-- ==== Sys2Proof/Word.lean ====
section
/-!
DEFINITION. The word types of the PHC RLE codec core: a byte of a byte memory, and the 16-bit element that holds
a pixel code or a colour (spec 00_scope.md R5, R10; 10_state.md R40 to R44).
-/

namespace Sys2Proof

/-- One element of `PAYLOAD` or `FILE`. -/
abbrev Byte := BitVec 8

/-- A pixel code of 1 to 16 bits, zero-extended to 16 (R100). -/
abbrev Code := BitVec 16

/-- An opaque 16-bit colour (R93: no source divides it into channels). -/
abbrev Colour := BitVec 16

end Sys2Proof
end

