-- ==== Sys2Proof/Syntax.lean ====
section
/-!
DEFINITION. The instructions: one constructor per row of spec/opcode_table.json. Four are block instructions, the
decoder's program in `PAYLOAD` (spec 30_encoding.md R95 to R98); seven are codes written to `CMD` (R107, R108).
-/

namespace Sys2Proof

inductive Instr where
  /-- `REP`: a Repeat block with field `r`, count `r + 1` (R95, R99). -/
  | rep (r : BitVec 7)
  /-- `LIT`: a Literal block carrying its pixel codes; its field is their number less one (R96, R106). -/
  | lit (codes : List Code)
  /-- `RAW`: one raw pixel group, only in a payload with `compressed = 0` (R97). -/
  | raw (g : Code)
  /-- `PAD`: the zero bits after the last block, up to a multiple of 16 (R98). -/
  | pad
  /-- `OPT`, command code 1. -/
  | opt
  /-- `ENC`, command code 2. -/
  | enc
  /-- `ASM`, command code 3. -/
  | asm
  /-- `LDHDR`, command code 4. -/
  | ldhdr
  /-- `DEC`, command code 5. -/
  | dec
  /-- `RESERVED0`, command code 0. -/
  | reserved0
  /-- `RESERVED6_7`, command code `6 + lo`. -/
  | reserved67 (lo : BitVec 1)
deriving DecidableEq, Repr

/-- What decides how a payload is cut into blocks (R101): the grammar and the field widths, with the two facts
about the decoder's position that select `PAD` (R98, R202). -/
structure Mode where
  /-- `true`: the `REP`/`LIT` grammar; `false`: the `RAW` grammar. -/
  comp : Bool
  /-- `br`, the width of a `REP` field. -/
  br : Nat
  /-- `bo`, the width of a `LIT` field. -/
  bo : Nat
  /-- `d`, the width of a pixel group. -/
  d : Nat
  /-- Pixel `N` is complete: what follows is `PAD`. -/
  done : Bool
  /-- The stream position the next bit stands at. -/
  pos : Nat
deriving DecidableEq, Repr

/-- Where an instruction is read from: the command register, or the payload under a mode. -/
inductive Space where
  | command
  | payload (m : Mode)
deriving DecidableEq, Repr

end Sys2Proof
end

