-- ==== Sys2Proof/WellFormed.lean ====
section
/-!
DEFINITION. Which instructions an encoding exists for, in the command register or in a payload of a given mode
(spec 30_encoding.md R95 to R101, R106).
-/

namespace Sys2Proof

/-- The widths of a mode the header can hold: both fields 0 to 7, the depth 1 to 16 (00_scope.md R5). -/
def Mode.wf (m : Mode) : Bool :=
  m.br ≤ 7 && m.bo ≤ 7 && 1 ≤ m.d && m.d ≤ 16

/-- The number of pad bits that bring position `p` to a multiple of 16 (R98). -/
def padBits (p : Nat) : Nat := (16 - p % 16) % 16

/-- `i` has an encoding in `sp`, with every operand in the range its field admits. -/
def Instr.wf (i : Instr) (sp : Space) : Bool :=
  match sp with
  | .command =>
    match i with
    | .rep _ => false
    | .lit _ => false
    | .raw _ => false
    | .pad => false
    | .opt => true
    | .enc => true
    | .asm => true
    | .ldhdr => true
    | .dec => true
    | .reserved0 => true
    | .reserved67 _ => true
  | .payload m =>
    m.wf &&
    match i with
    | .rep r => !m.done && m.comp && decide (r.toNat < 2 ^ m.br)
    | .lit gs => !m.done && m.comp && decide (1 ≤ gs.length) && decide (gs.length ≤ 2 ^ m.bo) &&
        gs.all (fun g => decide (g.toNat < 2 ^ m.d))
    | .raw g => !m.done && !m.comp && decide (g.toNat < 2 ^ m.d)
    | .pad => m.done
    | .opt => false
    | .enc => false
    | .asm => false
    | .ldhdr => false
    | .dec => false
    | .reserved0 => false
    | .reserved67 _ => false

end Sys2Proof
end

