-- ==== Sys2Proof/Decode.lean ====
section
/-!
DEFINITION. The decoder, total on any bits, rejecting by name; then the encoder; then the host's table-word entry.
Bit strings are lists in stream order, position 0 first (spec 20_memory.md R61, R62; 30_encoding.md R95 to R108).
-/

namespace Sys2Proof

/-- Why no instruction could be read. -/
inductive Reject where
  /-- Fewer bits remain than the instruction needs (43_decoder.md R191). -/
  | truncated
  /-- The mode's widths are none the header can hold. -/
  | badMode
deriving DecidableEq, Repr

/-- The `n`-bit field of value `v`, most significant bit first (R62). -/
def fieldBits (n v : Nat) : List Bool :=
  (List.range n).map fun i => v.testBit (n - 1 - i)

/-- The value of a bit string read most significant bit first, a plain shift-in (R62, R191). -/
def bitsVal (bs : List Bool) : Nat :=
  bs.foldl (fun v b => 2 * v + b.toNat) 0

/-- Stream bit `k` of a byte string: bit `7 - k mod 8` of byte `k / 8` (R61). -/
def byteBits (bytes : List Byte) : List Bool :=
  bytes.flatMap fun b => fieldBits 8 b.toNat

/-- Read an `n`-bit field, all or nothing (R191). -/
def takeField (n : Nat) (bs : List Bool) : Option (Nat × List Bool) :=
  if bs.length < n then none else some (bitsVal (bs.take n), bs.drop n)

/-- Read `k` groups of `d` bits (R96, R100). -/
def takeGroups (d : Nat) : Nat → List Bool → Option (List Code × List Bool)
  | 0, bs => some ([], bs)
  | k + 1, bs =>
    match takeField d bs with
    | none => none
    | some (g, bs') =>
      match takeGroups d k bs' with
      | none => none
      | some (gs, rest) => some (BitVec.ofNat 16 g :: gs, rest)

/-- The opcode map of `CMD` (R107, R108). -/
def decodeCommand (c : BitVec 3) : Instr :=
  if c = 0 then .reserved0
  else if c = 1 then .opt
  else if c = 2 then .enc
  else if c = 3 then .asm
  else if c = 4 then .ldhdr
  else if c = 5 then .dec
  else .reserved67 (BitVec.ofNat 1 (c.toNat - 6))

/-- Read one block of the `REP`/`LIT` grammar (R95, R96, R102). -/
def decodeBlock (m : Mode) (bs : List Bool) : Except Reject (Instr × List Bool) :=
  match takeField 1 bs with
  | none => .error .truncated
  | some (ctrl, bs₁) =>
    if ctrl = 0 then
      match takeField m.br bs₁ with
      | none => .error .truncated
      | some (r, bs₂) => .ok (.rep (BitVec.ofNat 7 r), bs₂)
    else
      match takeField m.bo bs₁ with
      | none => .error .truncated
      | some (c, bs₂) =>
        match takeGroups m.d (c + 1) bs₂ with
        | none => .error .truncated
        | some (gs, bs₃) => .ok (.lit gs, bs₃)

/-- Read one raw group (R97). -/
def decodeRaw (m : Mode) (bs : List Bool) : Except Reject (Instr × List Bool) :=
  match takeField m.d bs with
  | none => .error .truncated
  | some (g, bs') => .ok (.raw (BitVec.ofNat 16 g), bs')

/-- Read the instruction at the front of a bit string: the instruction and the bits after it. In a payload whose
pixel `N` is complete nothing is examined and the rest is `PAD` (R98, R202); otherwise the mode's grammar applies
(R101). There is no reserved block encoding (R103). -/
def decode (sp : Space) (bs : List Bool) : Except Reject (Instr × List Bool) :=
  match sp with
  | .command =>
    match takeField 3 bs with
    | none => .error .truncated
    | some (c, bs') => .ok (decodeCommand (BitVec.ofNat 3 c), bs')
  | .payload m =>
    if !m.wf then .error .badMode
    else if m.done then .ok (.pad, bs.drop (padBits m.pos))
    else if m.comp then decodeBlock m bs
    else decodeRaw m bs

/-- The code of a command, for the instructions that are commands (R107, R108). -/
def commandCode (i : Instr) : Option (BitVec 3) :=
  match i with
  | .rep _ => none
  | .lit _ => none
  | .raw _ => none
  | .pad => none
  | .opt => some 1
  | .enc => some 2
  | .asm => some 3
  | .ldhdr => some 4
  | .dec => some 5
  | .reserved0 => some 0
  | .reserved67 lo => some (BitVec.ofNat 3 (6 + lo.toNat))

/-- The bits of a block instruction under a mode (R95 to R98); a command has none. -/
def encodeBlock (m : Mode) (i : Instr) : List Bool :=
  match i with
  | .rep r => false :: fieldBits m.br r.toNat
  | .lit gs => true :: (fieldBits m.bo (gs.length - 1) ++ gs.flatMap fun g => fieldBits m.d g.toNat)
  | .raw g => fieldBits m.d g.toNat
  | .pad => List.replicate (padBits m.pos) false
  | .opt => []
  | .enc => []
  | .asm => []
  | .ldhdr => []
  | .dec => []
  | .reserved0 => []
  | .reserved67 _ => []

/-- The bits of a well-formed instruction: `CMD[2:0]` most significant first, or the block's bits. -/
def encode (sp : Space) (i : Instr) : List Bool :=
  match sp with
  | .command =>
    match commandCode i with
    | none => []
    | some c => fieldBits 3 c.toNat
  | .payload m => encodeBlock m i

/-- The longest block: `1 + 7 + 128 × 16` bits (R96). -/
def maxBlockBits : Nat := 2056

/-- A table word is a value written to `CMD` (log 7): at most one byte, with no bit but those of the code, which is
all that the table gives a command (R107). -/
def tableIsCommand (nbits w : Nat) : Bool := decide (nbits ≤ 8) && decide (w < 8)

/-- The grammar of a table word that is a block (log 7): two bytes are a raw group, any other length a `REP` or `LIT`. -/
def tableComp (nbits : Nat) : Bool := decide (nbits ≤ 8) || decide (16 < nbits)

/-- The mode a table word that is a block is read under (log 7): the widths the table's encoding strings show,
`br = bo = 7` and `d = 16`, at the start of a stream. -/
def tableMode (comp : Bool) : Mode :=
  { comp := comp, br := 7, bo := 7, d := 16, done := false, pos := 0 }

/-- The bits of a table word in stream order: bit `k` of the table's numbering is stream bit `k` of the
instruction, since the table's bit 0 is the control bit (R102); every bit at or above `nbits` is 0. -/
def tableBits (nbits w : Nat) : List Bool :=
  (List.range maxBlockBits).map fun k => decide (k < nbits) && w.testBit k

/-- The instruction the decoder reads from a table word. The table holds two instruction spaces whose rows overlap
bit for bit, and a word does not say its space, so its length and its high bits select one (log 7). -/
def decodeTableWord (nbits w : Nat) : Option Instr :=
  if tableIsCommand nbits w then
    some (decodeCommand (BitVec.ofNat 3 w))
  else
    match decode (.payload (tableMode (tableComp nbits))) (tableBits nbits w) with
    | .ok (i, _) => some i
    | .error _ => none

end Sys2Proof
end

