-- ==== Sys2Proof/Config.lean ====
section
/-!
DEFINITION. What an implementation fixes (spec 00_scope.md R6) and the one free value of the model.
-/

namespace Sys2Proof

/-- The build-time parameters of R6. They are not state (10_state.md R20); `State` carries them so that every
statement over states ranges over every legal value, and no step changes them (log 3). A capacity `none` is
"unbounded". The defaults are R6's defaults for tests. -/
structure Config where
  /-- `BATCH`, the capacity of the output buffer in colours. -/
  batch : Nat := 4
  /-- `PIXIN_CAP`, in codes. -/
  pixinCap : Option Nat := none
  /-- `PAYLOAD_CAP`, in bytes. -/
  payloadCap : Option Nat := none
  /-- `FILE_CAP`, in bytes. -/
  fileCap : Option Nat := none
  /-- The constraints of R6: `BATCH ≥ 1` and `FILE_CAP ≥ 20`. -/
  legal : 1 ≤ batch ∧ 20 ≤ fileCap.getD 20 := by decide
deriving DecidableEq, Repr

/-- No memory has a bounded capacity (00_scope.md R6). -/
def Config.Unbounded (c : Config) : Prop := c.pixinCap = none ∧ c.payloadCap = none ∧ c.fileCap = none

/-- FREE VALUE (log 4): the bits `LASTPIX` holds once `DEC` has cleared `LASTV` and before the first group is
resolved (43_decoder.md R196 "unwritten"; 93_implementation_defined.md V1 "any value"). It has no body: no proof can
see a value of it. -/
opaque Config.freeLastpix : Nat → Colour

end Sys2Proof
end

