-- ==== Sys2Proof/Machine/State.lean ====
section
/-!
DEFINITION. The state of the core as plain data: control and status registers, working registers, memories, the sink
log (spec 10_state.md R20 to R50), the build-time parameters, and the host's pending accesses; the state after reset
(70_reset_and_hazards.md R280); the model's own stops.
-/

namespace Sys2Proof.Machine

/-- A memory of `w`-bit elements: (address, element) pairs in one canonical form (`Mem.wf` in Machine/Ops.lean).
`Mem 8` is a list of `Host.Cell`. -/
abbrev Mem (w : Nat) := List (Nat × BitVec w)

/-- The states of the decoder's state machine (R39, 43_decoder.md R197). -/
inductive DState where
  | idle
  | readControl
  | literal
  | repeat
  | raw
  | terminal
  | faulted
deriving DecidableEq, Repr

/-- The fault kinds a command can raise (60_exceptions.md R250). They are reported in `STATUS` and the machine goes
on: raising one is a next state. -/
inductive ErrKind where
  | streamTruncated
  | paletteIndexOutOfRange
  | noBasePixel
  | blockOverrun
  | badConfig
  | pixelCodeOutOfRange
  | badHeader
  | capacityExceeded
  | badCommand
deriving DecidableEq, Repr

/-- The registers by name (R22, R34). -/
inductive Reg where
  | cmd | status | errinfo | width | height | bitdepth | flags | palcount | paloff | paylen | filelen
  | cur | pixemit | lastpix | outcnt | dstate | cnt | wcur
deriving DecidableEq, Repr

/-- What the reset event finds in the state that R280 leaves unspecified: the 16 bits of `LASTPIX`, and the elements of
the five memories from index 0 up. R281 takes them as arbitrary inputs, and so does the model: they come with the event
(log 13). -/
structure ResetContents where
  lastpix : Colour
  pixin : List Code
  pal : List Colour
  payload : List Byte
  file : List Byte
  outbuf : List Colour
deriving DecidableEq, Repr

/-- One access of the host between commands (R21): a register write, an element write of a memory the host may
write (R40 to R43), or the reset event with the contents it leaves (R280, R281). Reads change nothing (20_memory.md R67) and are no step. -/
inductive HostOp where
  | writeReg (r : Reg) (v : Nat)
  | writePixin (i : Nat) (v : Code)
  | writePal (i : Nat) (v : Colour)
  | writePayload (i : Nat) (v : Byte)
  | writeFile (i : Nat) (v : Byte)
  | reset (c : ResetContents)
deriving DecidableEq, Repr

structure State where
  /-- The build-time parameters (00_scope.md R6); no step changes them (log 3). -/
  cfg : Config
  /-- The host's pending accesses, first one next (log 5). The model's own field. -/
  host : List HostOp
  /-- How many free values have been drawn (log 4). The model's own field. -/
  freeCount : Nat
  /-- `STATUS`, register 1 (R32). -/
  status : BitVec 8
  /-- `ERRINFO`, register 2 (R33). -/
  errinfo : Nat
  /-- `WIDTH`, register 3 (R23). -/
  width : BitVec 16
  /-- `HEIGHT`, register 4 (R23). -/
  height : BitVec 16
  /-- `BITDEPTH`, register 5 (R24). -/
  bitdepth : BitVec 8
  /-- `FLAGS`, register 6 (R27); read through `State.readFlags`, bit 7 hard-wired zero. -/
  flags : BitVec 8
  /-- `PALCOUNT`, register 7 (R25). -/
  palcount : BitVec 16
  /-- `PALOFF`, register 8 (R26). -/
  paloff : BitVec 16
  /-- `PAYLEN`, register 9, in bytes (R28). -/
  paylen : Nat
  /-- `FILELEN`, register 10, in bytes (R29). -/
  filelen : Nat
  /-- `CUR`, register 11, the decoder's program counter, in bits (R35). -/
  cur : Nat
  /-- `PIXEMIT`, register 12 (R38). -/
  pixemit : Nat
  /-- `LASTPIX`, register 13 (R37). -/
  lastpix : Colour
  /-- `LASTV`, the valid bit of register 13 (R37). -/
  lastv : Bool
  /-- `OUTCNT`, register 14 (R34, R44). -/
  outcnt : Nat
  /-- `DSTATE`, register 15 (R39). -/
  dstate : DState
  /-- `CNT`, register 16 (R34, R39). -/
  cnt : Nat
  /-- `WCUR`, register 17, the bit writer's cursor (R46). -/
  wcur : Nat
  /-- `PIXIN` (R40). -/
  pixin : Mem 16
  /-- `PAL` (R41). -/
  pal : Mem 16
  /-- `PAYLOAD` (R42). -/
  payload : Mem 8
  /-- `FILE` (R43). -/
  file : Mem 8
  /-- `OUTBUF` (R44). -/
  outbuf : Mem 16
  /-- `SINK`, the log of batches handed to the Frame Sink, oldest first (R45). -/
  sink : List (List Colour)
deriving DecidableEq, Repr

/-- The machine right after reset (R280), as the host's interface takes it: one state. The unspecified bits of `LASTPIX`
are 0 (log 2), the memories list nothing (log 1), the parameters are R6's defaults for tests (log 3), and the host has
nothing pending (log 5). The machine after reset with any other unspecified contents (R281) and any parameters is
`State.resetWith` (Machine/HostAccess.lean). -/
def State.reset : State where
  cfg := {}
  host := []
  freeCount := 0
  status := 0
  errinfo := 0
  width := 0
  height := 0
  bitdepth := 0
  flags := 0
  palcount := 0
  paloff := 0
  paylen := 0
  filelen := 0
  cur := 0
  pixemit := 0
  lastpix := 0
  lastv := false
  outcnt := 0
  dstate := .idle
  cnt := 0
  wcur := 0
  pixin := []
  pal := []
  payload := []
  file := []
  outbuf := []
  sink := []

/-- Why the model stops on an access to an element that does not exist. -/
inductive Fault where
  /-- The decoder would write `OUTBUF[OUTCNT]` with `OUTCNT ≥ BATCH`, an element that does not exist (R44). Raised by
  the block instructions and the decoder step, only in states that break 43_decoder.md R204 and that no run reaches.
  Safe (log 10). -/
  | outbufIndex
  /-- The host would write an element at or above a memory's capacity (R40 to R43, 20_memory.md R63). Raised by the
  host's element writes. Safe (log 11). -/
  | noSuchElement
deriving DecidableEq, Repr

/-- Why the model gives no next state. -/
inductive Refusal where
  /-- `exec` has no meaning yet for the instruction of this mnemonic. No arm of this model answers it. Safe. -/
  | notModelled (mnemonic : String)
  /-- A command is issued while a `DEC` runs, which the spec does not define (93_implementation_defined.md V3, D25).
  Raised by every command; no run from reset reaches it. Safe (log 9). -/
  | commandRunning
  /-- A block instruction stands where no running `DEC` would execute it, or has an operand the running mode cannot
  encode (44_host_commands.md R235, 43_decoder.md R197). Raised by the block instructions and the decoder step. Safe
  (log 8). -/
  | notAtBlock
  /-- The host writes a value above a register's width (93_implementation_defined.md V6). Raised by the host's
  register writes. Safe (log 12). -/
  | registerWidth
deriving DecidableEq, Repr

end Sys2Proof.Machine
end

