-- ==== Sys2Proof/Machine/Flags.lean ====
section
/-!
DEFINITION. The fields of `FLAGS` and `STATUS`, the codes of the fault kinds and of `DSTATE` (spec 10_state.md R27,
R32, R39, R47; 30_encoding.md R92; 60_exceptions.md R250).
-/

namespace Sys2Proof.Machine

/-- `FLAGS` as every reader sees it: bit 7 reads 0 (R27, D35). -/
def State.readFlags (s : State) : BitVec 8 := s.flags &&& 0x7F

/-- `FLAGS ← v`, bit 7 dropped (R27, D35). -/
def State.writeFlags (s : State) (v : BitVec 8) : State := { s with flags := v &&& 0x7F }

/-- `FLAGS.COMP`, bit 0 (R27). -/
def State.comp (s : State) : Bool := s.readFlags.getLsbD 0

/-- `FLAGS.BITSREP`, bits 3:1, `br` (R27). -/
def State.br (s : State) : Nat := s.readFlags.toNat / 2 % 8

/-- `FLAGS.BITSOFF`, bits 6:4, `bo` (R27). -/
def State.bo (s : State) : Nat := s.readFlags.toNat / 16 % 8

/-- The flags byte of three fields: `compressed + 2 × bitsRepeats + 16 × bitsOffset` (R92). -/
def flagsByte (comp : Bool) (br bo : Nat) : BitVec 8 :=
  BitVec.ofNat 8 (comp.toNat + 2 * (br % 8) + 16 * (bo % 8))

/-- The code of a fault kind, the value of `STATUS.ERRCODE` (R250). -/
def ErrKind.code : ErrKind → Nat
  | .streamTruncated => 1
  | .paletteIndexOutOfRange => 2
  | .noBasePixel => 3
  | .blockOverrun => 4
  | .badConfig => 5
  | .pixelCodeOutOfRange => 6
  | .badHeader => 7
  | .capacityExceeded => 8
  | .badCommand => 9

/-- `STATUS` after a fault of kind `k`: `ERR = 1`, `DONE = 0`, `ERRCODE = code(k)` (R256). -/
def faultStatus (k : ErrKind) : BitVec 8 := BitVec.ofNat 8 (0x02 + 16 * k.code)

/-- `STATUS.DONE`, bit 0 (R32). -/
def State.statusDone (s : State) : Bool := s.status.getLsbD 0

/-- `STATUS.ERR`, bit 1 (R32). -/
def State.statusErr (s : State) : Bool := s.status.getLsbD 1

/-- `STATUS.ERRCODE`, bits 7:4 (R32). -/
def State.errCode (s : State) : Nat := s.status.toNat / 16

/-- The number of a decoder state in register `DSTATE` (R39). -/
def DState.code : DState → Nat
  | .idle => 0
  | .readControl => 1
  | .literal => 2
  | .repeat => 3
  | .raw => 4
  | .terminal => 5
  | .faulted => 6

/-- A `DEC` is running: the state machine has a step to take (R39, 43_decoder.md R197). -/
def DState.active : DState → Bool
  | .idle => false
  | .readControl => true
  | .literal => true
  | .repeat => true
  | .raw => true
  | .terminal => false
  | .faulted => false

end Sys2Proof.Machine
end

