-- ==== Sys2Proof/Machine/Operands.lean ====
section
/-!
DEFINITION. The operand forms: element reads of the memories, big-endian pairs, payload bits and the bit reader
`GetBits`, palette resolution, and the header quantities `N` and `d` (spec 20_memory.md R60 to R64; 43_decoder.md
R190 to R193; 10_state.md R23, R24).
-/

namespace Sys2Proof.Machine

/-- What an element that nothing has written reads as (log 1: the spec leaves reset contents unspecified, R281). -/
def unlisted (w : Nat) : BitVec w := 0

/-- Read one element. The list is in rising order of addresses, so the search stops at the first larger one. -/
def Mem.read {w : Nat} : Mem w → Nat → BitVec w
  | [], _ => unlisted w
  | (b, v) :: t, a => if a < b then unlisted w else if a = b then v else Mem.read t a

/-- The `n` elements from address `a` up; `MemRead(M, a, n)` of R63 for the byte memories. -/
def Mem.readList {w : Nat} (m : Mem w) (a n : Nat) : List (BitVec w) :=
  (List.range n).map fun i => Mem.read m (a + i)

/-- `BE16(v)`: the two bytes of a 16-bit quantity, the more significant first (R60). -/
def be16 (v : BitVec 16) : List Byte := [BitVec.ofNat 8 (v.toNat / 256), BitVec.ofNat 8 v.toNat]

/-- `UBE16(b0, b1) = 256 × b0 + b1` (R60). -/
def ube16 (b0 b1 : Byte) : BitVec 16 := BitVec.ofNat 16 (256 * b0.toNat + b1.toNat)

/-- `N = WIDTH × HEIGHT`, without overflow (R23). -/
def State.pixelCount (s : State) : Nat := s.width.toNat * s.height.toNat

/-- `d = BITDEPTH` (R24). -/
def State.depth (s : State) : Nat := s.bitdepth.toNat

/-- `BITDEPTH` is in 1 to 16 (R24, 60_exceptions.md R262). -/
def State.depthOk (s : State) : Bool := decide (1 ≤ s.depth) && decide (s.depth ≤ 16)

/-- A length exceeds a capacity (00_scope.md R6, 60_exceptions.md R264). -/
def exceeds (n : Nat) : Option Nat → Bool
  | none => false
  | some cap => decide (cap < n)

/-- The pixel sequence `S = PIXIN[0 .. N-1]` (R40). -/
def State.pixels (s : State) : List Code := s.pixin.readList 0 s.pixelCount

/-- The least `j` with `S[j] ≥ 2^d` (60_exceptions.md R263). -/
def firstWide (d : Nat) (codes : List Code) : Option Nat :=
  codes.findIdx? fun c => decide (2 ^ d ≤ c.toNat)

/-- Stream bit `k` of the payload: bit `7 - k mod 8` of `PAYLOAD[k / 8]` (R61). -/
def State.bit (s : State) (k : Nat) : Bool :=
  (s.payload.read (k / 8)).getLsbD (7 - k % 8)

/-- The `n` payload bits from stream position `p` up, in stream order. -/
def State.bitsFrom (s : State) (p n : Nat) : List Bool :=
  (List.range n).map fun i => s.bit (p + i)

/-- `GetBits(n)` (R191): the value and the state with `CUR` advanced, or nothing when fewer than `n` bits remain. A
read of no bits gives 0 and cannot fail (D23). -/
def State.getBits (n : Nat) (s : State) : Option (Nat × State) :=
  if n = 0 then some (0, s)
  else if 8 * s.paylen < s.cur + n then none
  else some (bitsVal (s.bitsFrom s.cur n), { s with cur := s.cur + n })

/-- `Resolve(g)` (R193): the colour of a group, or nothing when a palette index has no entry. -/
def State.resolve (s : State) (g : Code) : Option Colour :=
  if s.depth = 16 then some g
  else if s.palcount.toNat ≤ g.toNat then none
  else some (s.pal.read g.toNat)

/-- The mode the running decoder reads its next block under (R101). The grammar is the one `DEC` selected from
`FLAGS.COMP` when it started, held since then by `DSTATE` (R196; log 15). -/
def State.mode (s : State) : Mode :=
  { comp := decide (s.dstate ≠ .raw), br := s.br, bo := s.bo, d := s.depth,
    done := decide (s.pixemit = s.pixelCount), pos := s.cur }

end Sys2Proof.Machine
end

