-- ==== Sys2Proof/Machine/Ops.lean ====
section
/-!
DEFINITION. The shared operations: element writes and the canonical form of a memory, raising a fault, starting and
completing a command, the bit writer, and the decoder's output (spec 20_memory.md R63; 60_exceptions.md R256;
44_host_commands.md R230; 42_assembler.md R160 to R162; 43_decoder.md R194, R195).
-/

namespace Sys2Proof.Machine

/-- The canonical form: addresses strictly rising, and no entry equal to what an unlisted address reads as. -/
abbrev Mem.wf {w : Nat} (m : Mem w) : Prop :=
  m.Pairwise (fun x y => x.1 < y.1) ∧ ∀ e ∈ m, e.2 ≠ unlisted w

/-- Write one element, keeping the canonical form: writing the value an unlisted address reads as removes the entry. -/
def Mem.write {w : Nat} : Mem w → Nat → BitVec w → Mem w
  | [], a, v => if v = unlisted w then [] else [(a, v)]
  | (b, u) :: t, a, v =>
    if a < b then (if v = unlisted w then (b, u) :: t else (a, v) :: (b, u) :: t)
    else if a = b then (if v = unlisted w then t.dropWhile (fun e => decide (e.1 ≤ a)) else (a, v) :: t)
    else (b, u) :: Mem.write t a v

/-- Write consecutive elements from address `a` up; `MemWrite(M, a, n, v)` of R63. -/
def Mem.writeList {w : Nat} : Mem w → Nat → List (BitVec w) → Mem w
  | m, _, [] => m
  | m, a, v :: vs => Mem.writeList (Mem.write m a v) (a + 1) vs

/-- TAKING A FAULT, the one shared operation: `raise K(info)` of R256 (2) and (3). What the failing step would have
written is not written because `s` is the state before it. There is no vector, no mode and no saved register but
`CUR` itself (R256), and no return from a fault (R259). -/
def State.raise (s : State) (k : ErrKind) (info : Nat) : State :=
  { s with status := faultStatus k, errinfo := info }

/-- `raise` inside `DEC`, which also enters `Faulted` (R256 (4), 43_decoder.md R203). -/
def State.raiseDec (s : State) (k : ErrKind) (info : Nat) : State :=
  { s.raise k info with dstate := .faulted }

/-- A command's start clears `STATUS` and `ERRINFO` (R230 (1), R32, R33). This is also all there is to going on
after a fault (R259). -/
def State.beginCommand (s : State) : State := { s with status := 0, errinfo := 0 }

/-- `STATUS.DONE ← 1` (R230 (3)). -/
def State.complete (s : State) : State := { s with status := s.status ||| 1 }

/-- Issue a command: between commands only (R21, V3; log 9), its start, then its body to the end (R230). -/
def State.issue (s : State) (body : State → State) : Host.Outcome State Fault Refusal :=
  if s.dstate.active then .refused .commandRunning else .next (body s.beginCommand)

/-- The bit writer of `ENC`: its cursor and the bytes written so far (R160). -/
structure BitWriter where
  wcur : Nat
  bytes : List Byte
deriving DecidableEq, Repr

/-- The writer when `ENC` starts: `WCUR = 0`, nothing written (10_state.md R46). -/
def BitWriter.empty : BitWriter := { wcur := 0, bytes := [] }

/-- One bit to stream position `WCUR`: bit `7 - WCUR mod 8` of byte `WCUR / 8`, a byte being created as `0x00` when
its first bit is written (R161). -/
def BitWriter.putBit (w : BitWriter) (b : Bool) : BitWriter :=
  let bytes := if w.wcur % 8 = 0 then w.bytes ++ [0] else w.bytes
  { wcur := w.wcur + 1,
    bytes := bytes.modify (w.wcur / 8) fun x => x + BitVec.ofNat 8 (b.toNat * 2 ^ (7 - w.wcur % 8)) }

/-- `PutBits(n, v)`: the `n` low bits of `v`, most significant first (R161). -/
def BitWriter.putBits (w : BitWriter) (n v : Nat) : BitWriter :=
  (fieldBits n v).foldl BitWriter.putBit w

/-- `PadTo16`: zero bits until `WCUR mod 16 = 0` (R162). -/
def BitWriter.padTo16 (w : BitWriter) : BitWriter :=
  (List.replicate (padBits w.wcur) false).foldl BitWriter.putBit w

/-- `Flush()`: hand `OUTBUF[0 .. OUTCNT-1]` to the sink as one batch (R195). -/
def State.flush (s : State) : State :=
  { s with sink := s.sink ++ [s.outbuf.readList 0 s.outcnt], outcnt := 0 }

/-- `Emit(v)`: append one colour, flushing at once when the buffer is full (R194). -/
def State.emit (s : State) (v : Colour) : State :=
  let s' := { s with
    outbuf := s.outbuf.write s.outcnt v, outcnt := s.outcnt + 1, pixemit := s.pixemit + 1 }
  if s'.outcnt = s'.cfg.batch then s'.flush else s'

end Sys2Proof.Machine
end

