-- ==== Sys2Proof/Machine/Assembler.lean ====
section
/-!
DEFINITION. The Header/Bitstream Assembler, command `ASM`, and the header loader, command `LDHDR` (spec
42_assembler.md R170 to R178). The file layout is 30_encoding.md R90 to R94.
-/

namespace Sys2Proof.Machine

/-- The ten magic bytes: the ASCII codes of "PHC1.0", then four zero bytes (R91; log 16). -/
def magic : List Byte := [0x50, 0x48, 0x43, 0x31, 0x2E, 0x30, 0, 0, 0, 0]

/-- The number of palette entries `ASM` writes: none when `BITDEPTH = 16` (R170, R172). -/
def State.asmEntries (s : State) : Nat := if s.depth = 16 then 0 else s.palcount.toNat

/-- The header field `paletteOffset` (R171). -/
def State.asmOffset (s : State) : Nat := 20 + 2 * s.asmEntries

/-- The 20 header bytes (R90, R170). -/
def State.headerBytes (s : State) : List Byte :=
  magic ++ be16 s.width ++ be16 s.height ++ [s.bitdepth, 0, 0, s.readFlags] ++
    be16 (BitVec.ofNat 16 s.asmOffset)

/-- The whole file, in address order: header, palette entries in index order, payload (R93, R170). -/
def State.fileBytes (s : State) : List Byte :=
  s.headerBytes ++ (s.pal.readList 0 s.asmEntries).flatMap be16 ++ s.payload.readList 0 s.paylen

/-- The body of `ASM` (R170, R172). -/
def asmBody (s : State) : State :=
  if !s.depthOk then s.raise .badConfig 1
  else if s.depth ≠ 16 ∧ 2 ^ s.depth < s.palcount.toNat then s.raise .badConfig 2
  else if s.depth ≠ 16 ∧ 65535 < 20 + 2 * s.palcount.toNat then s.raise .badConfig 3
  else if exceeds s.paylen s.cfg.payloadCap then s.raise .capacityExceeded 2
  else if exceeds (s.asmOffset + s.paylen) s.cfg.fileCap then s.raise .capacityExceeded 3
  else
    State.complete { s with
      file := s.file.writeList 0 s.fileBytes, paloff := BitVec.ofNat 16 s.asmOffset,
      filelen := s.asmOffset + s.paylen }

/-- `ASM`, command code 3 (R170). -/
def execAsm (s : State) : Host.Outcome State Fault Refusal := s.issue asmBody

/-- `paletteOffset` of the file to load, `UBE16(FILE[18], FILE[19])` (R175). -/
def State.fileOffset (s : State) : Nat := (ube16 (s.file.read 18) (s.file.read 19)).toNat

/-- The palette entries of the file to load, `np = (po - 20) / 2` of them (R175). -/
def State.filePalette (s : State) : List Colour :=
  (List.range ((s.fileOffset - 20) / 2)).map fun i =>
    ube16 (s.file.read (20 + 2 * i)) (s.file.read (21 + 2 * i))

/-- The body of `LDHDR` (R175, R176). -/
def ldhdrBody (s : State) : State :=
  let bd := s.file.read 14
  let po := s.fileOffset
  if exceeds s.filelen s.cfg.fileCap then s.raise .capacityExceeded 3
  else if s.filelen < 20 then s.raise .badHeader 1
  else if s.file.readList 0 10 ≠ magic then s.raise .badHeader 2
  else if bd.toNat < 1 ∨ 16 < bd.toNat then s.raise .badHeader 3
  else if po < 20 ∨ s.filelen < po then s.raise .badHeader 4
  else if (po - 20) % 2 = 1 then s.raise .badHeader 5
  else if exceeds (s.filelen - po) s.cfg.payloadCap then s.raise .capacityExceeded 2
  else
    let s' := s.writeFlags (s.file.read 17)
    State.complete { s' with
      width := ube16 (s.file.read 10) (s.file.read 11),
      height := ube16 (s.file.read 12) (s.file.read 13),
      bitdepth := bd,
      paloff := BitVec.ofNat 16 po,
      palcount := BitVec.ofNat 16 ((po - 20) / 2),
      pal := s.pal.writeList 0 s.filePalette,
      paylen := s.filelen - po,
      payload := s.payload.writeList 0 (s.file.readList po (s.filelen - po)) }

/-- `LDHDR`, command code 4 (R175). -/
def execLdhdr (s : State) : Host.Outcome State Fault Refusal := s.issue ldhdrBody

end Sys2Proof.Machine
end

