-- ==== Sys2Proof/Machine/Decoder.lean ====
section
/-!
DEFINITION. The decoder's state machine, one step at a time (spec 43_decoder.md R197 to R203). Each part of a step
is given `start`, the state the step began in, and `now`, that state with the bits of the step consumed; a step that
raises changes nothing of `start` but what `raise` writes (R197).
-/

namespace Sys2Proof.Machine

/-- The final flush of a partial buffer, then `Terminal`; the command ends with `STATUS.DONE` (R196, R202). -/
def State.finish (s : State) : State :=
  let s' := if 1 ≤ s.outcnt then s.flush else s
  { s'.complete with dstate := .terminal }

/-- After a `LIT` header of field `f` (R198). -/
def litHeader (start now : State) (f : Nat) : State :=
  if start.pixelCount - start.pixemit < f + 1 then start.raiseDec .blockOverrun start.cur
  else { now with cnt := f + 1, dstate := .literal }

/-- After a `REP` header of field `f` (R198). -/
def repHeader (start now : State) (f : Nat) : State :=
  if start.lastv = false then start.raiseDec .noBasePixel start.cur
  else if start.pixelCount - start.pixemit < f + 1 then start.raiseDec .blockOverrun start.cur
  else { now with cnt := f + 1, dstate := .repeat }

/-- `CNT ← CNT - 1`, and back to `ReadControl` when it reaches 0 (R199, R200). -/
def State.countDown (s : State) : State :=
  { s with cnt := s.cnt - 1, dstate := if s.cnt - 1 = 0 then .readControl else s.dstate }

/-- Resolve and emit one group, and remember its colour (R199, R201). -/
def State.emitGroup (start now : State) (g : Code) : State :=
  match start.resolve g with
  | none => start.raiseDec .paletteIndexOutOfRange g.toNat
  | some v => { now.emit v with lastpix := v, lastv := true }

/-- One group of a `LIT` block (R199). -/
def literalGroup (start now : State) (g : Code) : State :=
  let s := State.emitGroup start now g
  if s.dstate = .faulted then s else s.countDown

/-- One repetition of a `REP` block (R200). -/
def repeatPixel (s : State) : State := (s.emit s.lastpix).countDown

/-- One step of the state machine (R197). The test for the end comes before any bit is read (R198, R201, D7). -/
def State.decStep (s : State) : State :=
  match s.dstate with
  | .readControl =>
    if s.pixemit = s.pixelCount then s.finish
    else
      match s.getBits 1 with
      | none => s.raiseDec .streamTruncated s.cur
      | some (c, s₁) =>
        if c = 1 then
          match s₁.getBits s.bo with
          | none => s.raiseDec .streamTruncated s.cur
          | some (f, s₂) => litHeader s s₂ f
        else
          match s₁.getBits s.br with
          | none => s.raiseDec .streamTruncated s.cur
          | some (f, s₂) => repHeader s s₂ f
  | .literal =>
    match s.getBits s.depth with
    | none => s.raiseDec .streamTruncated s.cur
    | some (g, s₁) => literalGroup s s₁ (BitVec.ofNat 16 g)
  | .repeat => repeatPixel s
  | .raw =>
    if s.pixemit = s.pixelCount then s.finish
    else
      match s.getBits s.depth with
      | none => s.raiseDec .streamTruncated s.cur
      | some (g, s₁) => State.emitGroup s s₁ (BitVec.ofNat 16 g)
  | .idle => s
  | .terminal => s
  | .faulted => s

/-- `repeat Step() until DSTATE = Terminal or DSTATE = Faulted` (R196), at most `fuel` steps. -/
def runSteps : Nat → State → State
  | 0, s => s
  | fuel + 1, s => if s.dstate.active then runSteps fuel s.decStep else s

/-- The decoder's registers when `DEC` has made its checks (R196). `LASTPIX` is unwritten from here on until the
first group: its bits are a free value (log 4). -/
def State.decStart (s : State) : State :=
  { s with
    cur := 0, pixemit := 0, outcnt := 0, cnt := 0, lastv := false,
    lastpix := Config.freeLastpix s.freeCount, freeCount := s.freeCount + 1,
    dstate := if s.comp then .readControl else .raw }

/-- The body of `DEC` (R196). A `DEC` takes at most `2 × N + 1` steps (R205). -/
def decBody (s : State) : State :=
  if !s.depthOk then s.raiseDec .badConfig 1
  else if exceeds s.paylen s.cfg.payloadCap then s.raiseDec .capacityExceeded 2
  else runSteps (2 * s.pixelCount + 1) s.decStart

/-- `DEC`, command code 5 (R196). -/
def execDec (s : State) : Host.Outcome State Fault Refusal := s.issue decBody

end Sys2Proof.Machine
end

