-- ==== Sys2Proof/Machine/Blocks.lean ====
section
/-!
DEFINITION. The block instructions `REP`, `LIT`, `RAW` and `PAD` as the running decoder executes them, each whole: its
header step and one step for each pixel (spec 43_decoder.md R199 to R202). The operands are those the instruction
carries; `CUR` advances by the instruction's length (30_encoding.md R101).
-/

namespace Sys2Proof.Machine

/-- Run a part of a `DEC` where it may run (log 8), with an element of `OUTBUF` left to write (log 10). -/
def State.guarded (s : State) (ok : Bool) (next : State) : Host.Outcome State Fault Refusal :=
  if !ok then .refused .notAtBlock
  else if s.cfg.batch ≤ s.outcnt then .fault .outbufIndex
  else .next next

/-- The decoder is between blocks and `i` has an encoding under its mode (R197, log 8). -/
def State.atBlock (s : State) (i : Instr) : Bool :=
  (decide (s.dstate = .readControl) || decide (s.dstate = .raw)) && i.wf (.payload s.mode)

/-- The state with `CUR` moved past `n` bits. -/
def State.advance (s : State) (n : Nat) : State := { s with cur := s.cur + n }

/-- The `Literal` steps of a block, up to the first fault (R199). -/
def runGroups : List Code → State → State
  | [], s => s
  | g :: gs, s =>
    if s.dstate = .faulted then s else runGroups gs (literalGroup s (s.advance s.depth) g)

/-- The `Repeat` steps of a block (R200). -/
def runRepeats : Nat → State → State
  | 0, s => s
  | k + 1, s => if s.dstate = .faulted then s else runRepeats k (repeatPixel s)

/-- `REP` (R200). -/
def execRep (r : BitVec 7) (s : State) : Host.Outcome State Fault Refusal :=
  s.guarded (s.atBlock (.rep r))
    (runRepeats (r.toNat + 1) (repHeader s (s.advance (1 + s.br)) r.toNat))

/-- `LIT` (R199). -/
def execLit (codes : List Code) (s : State) : Host.Outcome State Fault Refusal :=
  s.guarded (s.atBlock (.lit codes))
    (runGroups codes (litHeader s (s.advance (1 + s.bo)) (codes.length - 1)))

/-- `RAW` (R201). -/
def execRaw (g : Code) (s : State) : Host.Outcome State Fault Refusal :=
  s.guarded (s.atBlock (.raw g)) (State.emitGroup s (s.advance s.depth) g)

/-- `PAD`: reached when pixel `N` is complete, it is not read; the step is the terminal one (R202). -/
def execPad (s : State) : Host.Outcome State Fault Refusal :=
  s.guarded (s.atBlock .pad) s.finish

/-- The decoder's own next step where no whole block can be read: inside a block, or at one the payload cuts short
(R197). In `Repeat` a base pixel is needed, inside a block a pixel to count (R204). -/
def State.decoderStep (s : State) : Host.Outcome State Fault Refusal :=
  s.guarded
    (s.depthOk &&
      match s.dstate with
      | .readControl => true
      | .raw => true
      | .literal => decide (1 ≤ s.cnt)
      | .repeat => decide (1 ≤ s.cnt) && s.lastv
      | .idle => false
      | .terminal => false
      | .faulted => false)
    s.decStep

end Sys2Proof.Machine
end

