-- ==== Sys2Proof/Machine/Optimizer.lean ====
section
/-!
DEFINITION. The Parameter Optimizer, command `OPT` (spec 40_optimizer.md).
-/

namespace Sys2Proof.Machine

/-- `Runs(S)`: the maximal runs of identical adjacent codes, as (code, length) pairs (R121). -/
def runs : List Code → List (Code × Nat)
  | [] => []
  | c :: cs =>
    match runs cs with
    | [] => [(c, 1)]
    | (v, l) :: rest => if c = v then (v, l + 1) :: rest else (c, 1) :: (v, l) :: rest

/-- `contrib(rep, b)`: pixels removed and blocks added by one run at candidate width `b`, with the source's two
branches kept apart (R122, D30). -/
def contrib (d rep b : Nat) : Nat × Nat :=
  let q := rep / 2 ^ b
  let r := rep % 2 ^ b
  if r = 1 ∧ b + 1 ≤ d then (q * 2 ^ b + 1, q + 1)
  else if 1 ≤ r then (q * 2 ^ b + r, q + 1)
  else (q * 2 ^ b, q)

/-- `pixelsRemoved(b)`, over all runs (R123). -/
def pixelsRemoved (d b : Nat) (rs : List (Code × Nat)) : Nat :=
  (rs.map fun x => (contrib d (x.2 - 1) b).1).sum

/-- `blocksAdded(b)`, over all runs (R123). -/
def blocksAdded (d b : Nat) (rs : List (Code × Nat)) : Nat :=
  (rs.map fun x => (contrib d (x.2 - 1) b).2).sum

/-- `bitsSaved(b)`, the one signed quantity (R124). -/
def bitsSaved (d b : Nat) (rs : List (Code × Nat)) : Int :=
  (pixelsRemoved d b rs * d : Nat) - (blocksAdded d b rs * (b + 1) : Nat)

/-- `bestRep`: ascending search with strict replacement, starting at `(0, 0)` (R125, D34). -/
def bestRep (d : Nat) (rs : List (Code × Nat)) : Nat :=
  ((List.range 8).foldl
    (fun best b => if best.2 < bitsSaved d b rs then (b, bitsSaved d b rs) else best) (0, (0 : Int))).1

/-- `SpanLengths`, with `cur` base pixels collected (R126, D15). -/
def spanLengths : Nat → List (Code × Nat) → List Nat
  | cur, [] => if 1 ≤ cur then [cur] else []
  | cur, (_, l) :: rest => if 2 ≤ l then (cur + 1) :: spanLengths 0 rest else spanLengths (cur + 1) rest

/-- `litBlocks(b)`: the sum over the spans of `ceil(s / 2^b)` (R127). -/
def litBlocks (b : Nat) (rs : List (Code × Nat)) : Nat :=
  ((spanLengths 0 rs).map fun l => (l + 2 ^ b - 1) / 2 ^ b).sum

/-- `cost(b)` (R127). -/
def cost (b : Nat) (rs : List (Code × Nat)) : Nat := litBlocks b rs * (b + 1)

/-- `bestOff`: ascending search with strict replacement, seeded by `b = 0` (R128, D16). -/
def bestOff (rs : List (Code × Nat)) : Nat :=
  ((List.range' 1 7).foldl
    (fun best b => if cost b rs < best.2 then (b, cost b rs) else best) (0, cost 0 rs)).1

/-- The body of `OPT` (R120, R129). -/
def optBody (s : State) : State :=
  if !s.depthOk then s.raise .badConfig 1
  else if exceeds s.pixelCount s.cfg.pixinCap then s.raise .capacityExceeded 1
  else
    match firstWide s.depth s.pixels with
    | some j => s.raise .pixelCodeOutOfRange j
    | none =>
      let rs := runs s.pixels
      (s.writeFlags (flagsByte s.comp (bestRep s.depth rs) (bestOff rs))).complete

/-- `OPT`, command code 1 (R120). -/
def execOpt (s : State) : Host.Outcome State Fault Refusal := s.issue optBody

end Sys2Proof.Machine
end

