-- ==== Sys2Proof/Machine/Encoder.lean ====
section
/-!
DEFINITION. The Encoder, command `ENC` (spec 41_encoder.md), and the pseudo-instructions `RUN` and `SPAN`
(30_encoding.md R109). Blocks are the block instructions of `Instr`.
-/

namespace Sys2Proof.Machine

/-- A `REP` block of count `k`, whose field is `k - 1` (R145). -/
def repBlock (k : Nat) : Instr := .rep (BitVec.ofNat 7 (k - 1))

/-- The loop of `RepBlocks` with `remaining` repeats, at most `fuel` full blocks (R145). -/
def repLoop (br : Nat) : Nat → Nat → List Instr
  | 0, remaining => if 1 ≤ remaining then [repBlock remaining] else []
  | fuel + 1, remaining =>
    if 2 ^ br ≤ remaining then repBlock (2 ^ br) :: repLoop br fuel (remaining - 2 ^ br)
    else if 1 ≤ remaining then [repBlock remaining]
    else []

/-- `RepBlocks(rep, br)` (R145). -/
def repBlocks (br rep : Nat) : List Instr := repLoop br rep rep

/-- The loop of `LitBlocks`, at most `fuel` full blocks (R146). -/
def litLoop (bo : Nat) : Nat → List Code → List Instr
  | 0, span => [.lit span]
  | fuel + 1, span =>
    if 2 ^ bo < span.length then .lit (span.take (2 ^ bo)) :: litLoop bo fuel (span.drop (2 ^ bo))
    else [.lit span]

/-- `LitBlocks(span, bo)` (R146). -/
def litBlockList (bo : Nat) (span : List Code) : List Instr := litLoop bo span.length span

/-- `Blocks(runs, br, bo)` with `span` collected so far (R143, R144). -/
def blocksFrom (br bo : Nat) : List Code → List (Code × Nat) → List Instr
  | span, [] => if 1 ≤ span.length then litBlockList bo span else []
  | span, (v, l) :: rest =>
    if 2 ≤ l then litBlockList bo (span ++ [v]) ++ repBlocks br (l - 1) ++ blocksFrom br bo [] rest
    else blocksFrom br bo (span ++ [v]) rest

/-- The blocks `ENC` forms from a pixel sequence (R144). -/
def blocks (br bo : Nat) (codes : List Code) : List Instr := blocksFrom br bo [] (runs codes)

/-- `RUN v, L` (30_encoding.md R109). -/
def pseudoRun (br : Nat) (v : Code) (l : Nat) : List Instr := .lit [v] :: repBlocks br (l - 1)

/-- `SPAN p0, ..., pm` (30_encoding.md R109). -/
def pseudoSpan (bo : Nat) (span : List Code) : List Instr := litBlockList bo span

/-- `PutBits(d, p)` for each code in order (R147, R149). -/
def putGroups (d : Nat) (w : BitWriter) (codes : List Code) : BitWriter :=
  codes.foldl (fun w' g => BitWriter.putBits w' d g.toNat) w

/-- Serialize one block (R147). Only `REP` and `LIT` are ever given to it. -/
def putBlock (d br bo : Nat) (w : BitWriter) (i : Instr) : BitWriter :=
  match i with
  | .rep r => (w.putBits 1 0).putBits br r.toNat
  | .lit gs => putGroups d ((w.putBits 1 1).putBits bo (gs.length - 1)) gs
  | .raw g => w.putBits d g.toNat
  | .pad => w.padTo16
  | .opt => w
  | .enc => w
  | .asm => w
  | .ldhdr => w
  | .dec => w
  | .reserved0 => w
  | .reserved67 _ => w

/-- The compressed candidate, padded (R147). -/
def compressed (d br bo : Nat) (codes : List Code) : BitWriter :=
  ((blocks br bo codes).foldl (putBlock d br bo) BitWriter.empty).padTo16

/-- The raw packing, padded (R149). -/
def rawPacked (d : Nat) (codes : List Code) : BitWriter :=
  (putGroups d BitWriter.empty codes).padTo16

/-- The naive packed length in bytes, `ceil(N × d / 16) × 2` (R148). -/
def naiveLength (d n : Nat) : Nat := (n * d + 15) / 16 * 2

/-- The fallback decision: the compressed stream is kept when its padded byte length does not exceed the naive one
(R148). -/
def keepsCompressed (d br bo : Nat) (codes : List Code) : Bool :=
  decide ((compressed d br bo codes).wcur / 8 ≤ naiveLength d codes.length)

/-- The payload `ENC` writes (R148, R149). -/
def encoded (d br bo : Nat) (codes : List Code) : BitWriter :=
  if keepsCompressed d br bo codes then compressed d br bo codes else rawPacked d codes

/-- The body of `ENC` (R140, R141, R150). -/
def encBody (s : State) : State :=
  if !s.depthOk then s.raise .badConfig 1
  else if exceeds s.pixelCount s.cfg.pixinCap then s.raise .capacityExceeded 1
  else
    match firstWide s.depth s.pixels with
    | some j => s.raise .pixelCodeOutOfRange j
    | none =>
      let p := encoded s.depth s.br s.bo s.pixels
      if exceeds (p.wcur / 8) s.cfg.payloadCap then s.raise .capacityExceeded 2
      else
        let s' := { s with
          payload := s.payload.writeList 0 p.bytes, paylen := p.wcur / 8, wcur := p.wcur }
        (s'.writeFlags (flagsByte (keepsCompressed s.depth s.br s.bo s.pixels) s.br s.bo)).complete

/-- `ENC`, command code 2 (R140). -/
def execEnc (s : State) : Host.Outcome State Fault Refusal := s.issue encBody

end Sys2Proof.Machine
end

