-- ==== Sys2Proof/Machine/Reserved.lean ====
section
/-!
DEFINITION. The reserved command codes 0, 6 and 7: `BadCommand` and nothing else (spec 44_host_commands.md R232;
30_encoding.md R108).
-/

namespace Sys2Proof.Machine

/-- The reserved code 0 (R232). -/
def execReserved0 (s : State) : Host.Outcome State Fault Refusal :=
  s.issue fun s' => s'.raise .badCommand 0

/-- The reserved codes 6 and 7 (R232). -/
def execReserved67 (lo : BitVec 1) (s : State) : Host.Outcome State Fault Refusal :=
  s.issue fun s' => s'.raise .badCommand (6 + lo.toNat)

end Sys2Proof.Machine
end

