-- ==== Sys2Proof/Machine/Dispatch.lean ====
section
/-!
DEFINITION. exec: one arm per instruction of spec/opcode_table.json, each one direct call of its meaning.
-/

namespace Sys2Proof.Machine

def exec (i : Instr) (s : State) : Host.Outcome State Fault Refusal :=
  match i with
  | .rep r => Sys2Proof.Machine.execRep r s
  | .lit codes => Sys2Proof.Machine.execLit codes s
  | .raw g => Sys2Proof.Machine.execRaw g s
  | .pad => Sys2Proof.Machine.execPad s
  | .opt => Sys2Proof.Machine.execOpt s
  | .enc => Sys2Proof.Machine.execEnc s
  | .asm => Sys2Proof.Machine.execAsm s
  | .ldhdr => Sys2Proof.Machine.execLdhdr s
  | .dec => Sys2Proof.Machine.execDec s
  | .reserved0 => Sys2Proof.Machine.execReserved0 s
  | .reserved67 lo => Sys2Proof.Machine.execReserved67 lo s

end Sys2Proof.Machine
end

