-- ==== Sys2Proof/Machine/HostAccess.lean ====
section
/-!
DEFINITION. What the host can do between commands, but for issuing a command: write and read registers, write
memories, reset (spec 10_state.md R21, R22, R34, R40 to R45; 70_reset_and_hazards.md R280).
-/

namespace Sys2Proof.Machine

/-- The register numbers (R22, R34). -/
def Reg.number : Reg → Nat
  | .cmd => 0 | .status => 1 | .errinfo => 2 | .width => 3 | .height => 4 | .bitdepth => 5 | .flags => 6
  | .palcount => 7 | .paloff => 8 | .paylen => 9 | .filelen => 10 | .cur => 11 | .pixemit => 12
  | .lastpix => 13 | .outcnt => 14 | .dstate => 15 | .cnt => 16 | .wcur => 17

/-- Register 13 as the host reads it, 16 bits and the valid bit `LASTV` (R34). DESIGN CHOICE (log 23): the spec gives
`LASTV` no bit position; the model reads the colour in bits 15:0 and `LASTV` in bit 16. -/
def State.readLastpix (s : State) : Nat := s.lastpix.toNat + 2 ^ 16 * s.lastv.toNat

/-- What the host reads from a register; `CMD` is write-only and holds nothing (R22, R30, R34). Register 13 shows
`LASTPIX` and `LASTV` (`State.readLastpix`, log 23). -/
def State.readReg (s : State) : Reg → Option Nat
  | .cmd => none
  | .status => some s.status.toNat
  | .errinfo => some s.errinfo
  | .width => some s.width.toNat
  | .height => some s.height.toNat
  | .bitdepth => some s.bitdepth.toNat
  | .flags => some s.readFlags.toNat
  | .palcount => some s.palcount.toNat
  | .paloff => some s.paloff.toNat
  | .paylen => some s.paylen
  | .filelen => some s.filelen
  | .cur => some s.cur
  | .pixemit => some s.pixemit
  | .lastpix => some s.readLastpix
  | .outcnt => some s.outcnt
  | .dstate => some s.dstate.code
  | .cnt => some s.cnt
  | .wcur => some s.wcur

/-- A register write of a value that fits in `w` bits (V6; log 12). -/
def fits (w v : Nat) (s : State) : Host.Outcome State Fault Refusal :=
  if v < 2 ^ w then .next s else .refused .registerWidth

/-- The host writes a register (R21, R22, R34): the RW registers take the value, a write of a read-only register is
ignored. A write of `CMD` issues a command and is the step's own business, so here it changes nothing. -/
def hostWriteReg (r : Reg) (v : Nat) (s : State) : Host.Outcome State Fault Refusal :=
  match r with
  | .cmd => .next s
  | .status => .next s
  | .errinfo => .next s
  | .width => fits 16 v { s with width := BitVec.ofNat 16 v }
  | .height => fits 16 v { s with height := BitVec.ofNat 16 v }
  | .bitdepth => fits 8 v { s with bitdepth := BitVec.ofNat 8 v }
  | .flags => fits 8 v (s.writeFlags (BitVec.ofNat 8 v))
  | .palcount => fits 16 v { s with palcount := BitVec.ofNat 16 v }
  | .paloff => .next s
  | .paylen => .next { s with paylen := v }
  | .filelen => .next { s with filelen := v }
  | .cur => .next s
  | .pixemit => .next s
  | .lastpix => .next s
  | .outcnt => .next s
  | .dstate => .next s
  | .cnt => .next s
  | .wcur => .next s

/-- An element write below a capacity (R40 to R43; log 11). -/
def inMemory (i : Nat) (cap : Option Nat) (s : State) : Host.Outcome State Fault Refusal :=
  if exceeds (i + 1) cap then .fault .noSuchElement else .next s

/-- `PAL_CAP` (00_scope.md R6). -/
def palCap : Nat := 32768

/-- A memory whose elements from index 0 up are those of a list, as far as the memory goes; what the list does not reach
is unlisted. -/
def Mem.ofContents {w : Nat} (cap : Option Nat) (vs : List (BitVec w)) : Mem w :=
  Mem.writeList [] 0 (match cap with
    | none => vs
    | some n => vs.take n)

/-- The machine right after reset for any parameters and any unspecified contents (R280, R281; log 13). -/
def State.resetWith (cfg : Config) (c : ResetContents) : State :=
  { State.reset with
    cfg := cfg, lastpix := c.lastpix,
    pixin := Mem.ofContents cfg.pixinCap c.pixin, pal := Mem.ofContents (some palCap) c.pal,
    payload := Mem.ofContents cfg.payloadCap c.payload, file := Mem.ofContents cfg.fileCap c.file,
    outbuf := Mem.ofContents (some cfg.batch) c.outbuf }

/-- The state the reset event leaves (R280): the parameters are unchanged, the contents R280 leaves unspecified are
those of the event (R281; log 13), and the host keeps what it has still to do. -/
def State.resetEvent (c : ResetContents) (s : State) : State :=
  { State.resetWith s.cfg c with host := s.host, freeCount := s.freeCount }

/-- One access of the host between commands (R21). -/
def hostAccess (op : HostOp) (s : State) : Host.Outcome State Fault Refusal :=
  match op with
  | .writeReg r v => hostWriteReg r v s
  | .writePixin i v => inMemory i s.cfg.pixinCap { s with pixin := s.pixin.write i v }
  | .writePal i v => inMemory i (some palCap) { s with pal := s.pal.write i v }
  | .writePayload i v => inMemory i s.cfg.payloadCap { s with payload := s.payload.write i v }
  | .writeFile i v => inMemory i s.cfg.fileCap { s with file := s.file.write i v }
  | .reset c => .next (s.resetEvent c)

end Sys2Proof.Machine
end

