-- ==== Sys2Proof/Machine/Fetch.lean ====
section
/-!
DEFINITION. What the machine does next: the block at `CUR` while a `DEC` runs, else the host's next access (spec
43_decoder.md R197; 44_host_commands.md R230; 10_state.md R21), and where a test places an instruction (log 5, log 7).
-/

namespace Sys2Proof.Machine

/-- What a step is about to do. -/
inductive Fetched where
  /-- Run an instruction in a state: a block of the payload, or a command with its write of `CMD` taken. -/
  | instr (i : Instr) (s : State)
  /-- The decoder's own step: inside a block, or at one the payload cuts short. -/
  | decoder
  /-- Another access of the host, taken from its queue. -/
  | access (op : HostOp) (s : State)
  /-- Nothing is pending: the core waits for a command (70_reset_and_hazards.md R282). -/
  | wait

/-- The payload bits from `CUR` up, as many as the longest block has and the payload holds (R96, R190). -/
def State.window (s : State) : List Bool :=
  s.bitsFrom s.cur (min maxBlockBits (8 * s.paylen - s.cur))

/-- The decoder between blocks reads the block at `CUR` (R197). -/
def fetchBlock (s : State) : Fetched :=
  match decode (.payload s.mode) s.window with
  | .ok (i, _) => .instr i s
  | .error _ => .decoder

/-- The host's next access (R21). The three low bits of a value written to `CMD` are the code (R232). -/
def fetchHost (s : State) : Fetched :=
  match s.host with
  | [] => .wait
  | .writeReg .cmd v :: rest => .instr (decodeCommand (BitVec.ofNat 3 v)) { s with host := rest }
  | op :: rest => .access op { s with host := rest }

/-- What the machine does next. No host access is taken while a `DEC` runs (R21). -/
def fetch (s : State) : Fetched :=
  match s.dstate with
  | .readControl => fetchBlock s
  | .raw => fetchBlock s
  | .literal => .decoder
  | .repeat => .decoder
  | .idle => fetchHost s
  | .terminal => fetchHost s
  | .faulted => fetchHost s

/-- The bytes of a bit string, most significant bit first, a last short byte filled with zeros (R61). -/
def packBytes : Nat → List Bool → List Byte
  | 0, _ => []
  | n + 1, bs =>
    BitVec.ofNat 8 (bitsVal ((bs ++ List.replicate 8 false).take 8)) :: packBytes n (bs.drop 8)

/-- Put a table word where the next step fetches it (log 7). A command is the host's next access, with no `DEC`
running. A block stands at the start of a payload of 257 bytes (the longest block) that a `DEC` has just begun to
read, with the widths of `tableMode` and 128 pixels wanted. -/
def State.placeWord (s : State) (nbits w : Nat) : State :=
  if tableIsCommand nbits w then
    { s with dstate := if s.dstate.active then .idle else s.dstate, host := .writeReg .cmd w :: s.host }
  else
    { s with
      dstate := if tableComp nbits then .readControl else .raw,
      flags := flagsByte (tableComp nbits) 7 7,
      bitdepth := 16, width := 128, height := 1,
      cur := 0, pixemit := 0, outcnt := 0, cnt := 0,
      paylen := 257, payload := s.payload.writeList 0 (packBytes 257 (tableBits nbits w)) }

end Sys2Proof.Machine
end

