-- ==== Sys2Proof/Machine/Step.lean ====
section
/-!
DEFINITION. One step of the machine, and the host's placing of an instruction word.
-/

namespace Sys2Proof.Machine

/-- One step: the block at `CUR` or the decoder's own step while a `DEC` runs, else one access of the host (a write of
`CMD` runs its command to the end, 44_host_commands.md R230), else wait. -/
def step (s : State) : Host.Outcome State Fault Refusal :=
  match fetch s with
  | .instr i s' => exec i s'
  | .decoder => s.decoderStep
  | .access op s' => hostAccess op s'
  | .wait => .next s

/-- `s` with a table word where `step` fetches its next instruction (log 5, log 7). -/
def State.withFetchWord (s : State) (nbits w : Nat) : State := s.placeWord nbits w

end Sys2Proof.Machine
end

