-- ==== Sys2Proof/Safety.lean ====
section
/-!
DEFINITION. What a safe state is, in the terms the statements use: the invariants of the spec's rules, and the
functions that say what has been delivered to the Frame Sink (spec 10_state.md R27, R32, R40 to R45;
43_decoder.md R204, R205).
-/

namespace Sys2Proof.Machine

/-- Every memory is in canonical form (log 1). -/
def State.MemoriesCanonical (s : State) : Prop :=
  s.pixin.wf ∧ s.pal.wf ∧ s.payload.wf ∧ s.file.wf ∧ s.outbuf.wf

/-- Every listed element of `m` is below a capacity. -/
def Mem.below {w : Nat} (m : Mem w) (cap : Option Nat) : Prop :=
  ∀ e ∈ m, exceeds (e.1 + 1) cap = false

/-- No memory lists an element that does not exist (R40 to R44). -/
def State.MemoriesInBounds (s : State) : Prop :=
  s.pixin.below s.cfg.pixinCap ∧ s.pal.below (some palCap) ∧ s.payload.below s.cfg.payloadCap ∧
    s.file.below s.cfg.fileCap ∧ s.outbuf.below (some s.cfg.batch)

/-- Bit 7 of `FLAGS` is 0 (R27). -/
def State.FlagsLegal (s : State) : Prop := s.flags.getLsbD 7 = false

/-- `STATUS` is 0, `DONE` alone, or `ERR` with one of the nine codes (R32, R250), and `ERRINFO` is 0 unless `ERR` is
set (R33, 60_exceptions.md R257). -/
def State.StatusLegal (s : State) : Prop :=
  (s.status = 0 ∨ s.status = 1 ∨ ∃ k : ErrKind, s.status = faultStatus k) ∧
    (s.statusErr = false → s.errinfo = 0)

/-- Every batch ever delivered is a non-empty list of at most `BATCH` colours (R45). -/
def State.BatchesLegal (s : State) : Prop :=
  ∀ b ∈ s.sink, 1 ≤ b.length ∧ b.length ≤ s.cfg.batch

/-- The invariants of R204, true between any two steps of a `DEC` (with R39 for `CNT`, and `STATUS` and `ERRINFO`
still as the start of the command left them). -/
def State.DecoderLegal (s : State) : Prop :=
  s.dstate.active = true →
    s.depthOk = true ∧ s.pixemit ≤ s.pixelCount ∧ s.outcnt = s.pixemit % s.cfg.batch ∧
    s.cur ≤ 8 * s.paylen ∧ s.status = 0 ∧ s.errinfo = 0 ∧
    (s.dstate = .literal ∨ s.dstate = .repeat →
      1 ≤ s.cnt ∧ s.cnt ≤ 128 ∧ s.cnt ≤ s.pixelCount - s.pixemit) ∧
    (s.dstate = .repeat → s.lastv = true) ∧
    (s.dstate = .readControl ∨ s.dstate = .raw → s.cnt = 0)

/-- The invariant of the machine. -/
structure State.Legal (s : State) : Prop where
  canonical : s.MemoriesCanonical
  inBounds : s.MemoriesInBounds
  flags : s.FlagsLegal
  status : s.StatusLegal
  batches : s.BatchesLegal
  decoder : s.DecoderLegal

/-- A host access the spec defines: an element that exists, a value that fits its register (V6). -/
def HostOp.defined (cfg : Config) : HostOp → Bool
  | .writeReg r v =>
    match r with
    | .width | .height | .palcount => decide (v < 2 ^ 16)
    | .bitdepth | .flags => decide (v < 2 ^ 8)
    | .cmd | .status | .errinfo | .paloff | .paylen | .filelen | .cur | .pixemit | .lastpix | .outcnt | .dstate
    | .cnt | .wcur => true
  | .writePixin i _ => !exceeds (i + 1) cfg.pixinCap
  | .writePal i _ => !exceeds (i + 1) (some palCap)
  | .writePayload i _ => !exceeds (i + 1) cfg.payloadCap
  | .writeFile i _ => !exceeds (i + 1) cfg.fileCap
  | .reset _ => true

/-- All the pixels delivered so far, then those still in the output buffer (R204). -/
def State.delivered (s : State) : List Colour := s.sink.flatten ++ s.outbuf.readList 0 s.outcnt

/-- `l` cut into batches of `b`, the last one possibly shorter, none empty; at most `fuel` of them. -/
def batchesOf (b : Nat) : Nat → List Colour → List (List Colour)
  | 0, _ => []
  | fuel + 1, l => if l.isEmpty then [] else l.take b :: batchesOf b fuel (l.drop b)

/-- The batches of a decoded pixel list (R205). -/
def batches (b : Nat) (l : List Colour) : List (List Colour) := batchesOf b l.length l

/-- The codes a list of blocks stands for, `last` being the code before it: a `LIT` its codes, a `REP` copies of the
last code before it, a `RAW` its group (R199 to R201, R205). -/
def expand : Code → List Instr → List Code
  | _, [] => []
  | last, .rep r :: rest => List.replicate (r.toNat + 1) last ++ expand last rest
  | last, .lit gs :: rest => gs ++ expand (gs.getLastD last) rest
  | _, .raw g :: rest => g :: expand g rest
  | last, .pad :: rest => expand last rest
  | last, .opt :: rest => expand last rest
  | last, .enc :: rest => expand last rest
  | last, .asm :: rest => expand last rest
  | last, .ldhdr :: rest => expand last rest
  | last, .dec :: rest => expand last rest
  | last, .reserved0 :: rest => expand last rest
  | last, .reserved67 _ :: rest => expand last rest

/-- The colour a code stands for: itself at depth 16, else its palette entry (R193, R206). -/
def State.colourOf (s : State) (g : Code) : Colour := if s.depth = 16 then g else s.pal.read g.toNat

/-- Every code of a list resolves (R193). -/
def State.Resolves (s : State) (codes : List Code) : Prop :=
  s.depth = 16 ∨ ∀ g ∈ codes, g.toNat < s.palcount.toNat

/-- `t` has emitted exactly the colours `vs` since `s` (R194, R195, R204): they follow what was delivered or buffered
before, every batch handed over meanwhile is full, the counters have moved by their number, and the only elements of
`OUTBUF` written are the ones the emits went to. -/
structure State.Emitted (s t : State) (vs : List Colour) : Prop where
  delivered : t.delivered = s.delivered ++ vs
  full : ∃ bs, t.sink = s.sink ++ bs ∧ ∀ b ∈ bs, b.length = s.cfg.batch
  outcnt : t.outcnt = (s.outcnt + vs.length) % s.cfg.batch
  pixemit : t.pixemit = s.pixemit + vs.length
  outbuf : ∀ a, (∀ j, j < vs.length → a ≠ (s.outcnt + j) % s.cfg.batch) → t.outbuf.read a = s.outbuf.read a

/-- What `OPT` and `ENC` need of their inputs (40_optimizer.md R129, 44_host_commands.md R238). -/
def State.PixelsLegal (s : State) : Prop :=
  s.depthOk = true ∧ exceeds s.pixelCount s.cfg.pixinCap = false ∧ ∀ c ∈ s.pixels, c.toNat < 2 ^ s.depth

/-- What `ASM` needs of the palette size (42_assembler.md R172). -/
def State.PaletteLegal (s : State) : Prop :=
  s.depth = 16 ∨ (s.palcount.toNat ≤ 2 ^ s.depth ∧ 20 + 2 * s.palcount.toNat ≤ 65535)

/-- The mode of a compressed stream of the given widths. -/
def streamMode (d br bo : Nat) : Mode := { comp := true, br := br, bo := bo, d := d, done := false, pos := 0 }

/-- The bits of a list of blocks, in order, without a pad (R147). -/
def blockStream (m : Mode) (is : List Instr) : List Bool := is.flatMap (encodeBlock m)

/-- The bits of the raw packing of a list of codes, without a pad (R149). -/
def rawStream (d : Nat) (codes : List Code) : List Bool := codes.flatMap fun g => fieldBits d g.toNat

/-- A bit string with zero bits up to a multiple of 16 (R98). -/
def padded (bs : List Bool) : List Bool := bs ++ List.replicate (padBits bs.length) false

/-- The bits of the compressed candidate for given parameters, padded (R140). -/
def candidate (d br bo : Nat) (codes : List Code) : List Bool :=
  padded (blockStream (streamMode d br bo) (blocks br bo codes))

/-- The payload's bits that `ENC` must write (R148, R149). -/
def payloadBits (d br bo : Nat) (codes : List Code) : List Bool :=
  if (candidate d br bo codes).length / 8 ≤ (codes.length * d + 15) / 16 * 2 then candidate d br bo codes
  else padded (rawStream d codes)

/-- `ceil(a / 2^b)` (00_scope.md R7). -/
def ceilPow (a b : Nat) : Nat := (a + 2 ^ b - 1) / 2 ^ b

/-- `bitsSaved(b)` in the closed form of R122 and R123: the repeats of all runs, less the blocks that carry them. -/
def savedBits (d b : Nat) (rs : List (Code × Nat)) : Int :=
  ((rs.map fun x => x.2 - 1).sum * d : Nat) - ((rs.map fun x => ceilPow (x.2 - 1) b).sum * (b + 1) : Nat)

/-- `b` is the least of `0 .. 7` with the largest `f b`. -/
def LeastMax (f : Nat → Int) (b : Nat) : Prop :=
  b ≤ 7 ∧ (∀ c, c ≤ 7 → f c ≤ f b) ∧ ∀ c, c < b → f c < f b

end Sys2Proof.Machine
end

