-- ==== Sys2Proof/Certificates/Slice0/Obligations.lean ====
section
/-!
DEFINITION. The statements for the provers, each a proposition about the machine; the rule of spec/ each one follows is
in its docstring, and OBLIGATIONS.json lists them.
-/

open Sys2Proof Sys2Proof.Machine

/-! ### Encoding -/

/-- R95 to R98, R107, R108: reading back what was encoded gives every operand and leaves the rest of the stream. -/
def Obligations.DecodeOfEncode : Prop :=
  ∀ (i : Instr) (sp : Space) (rest : List Bool), i.wf sp = true → decode sp (encode sp i ++ rest) = .ok (i, rest)

/-- R101, R103: what the decoder reads is well formed, and but for the unread pad it is the encoding of exactly the bits
consumed, so no bit of an instruction is ignored. -/
def Obligations.EncodeOfDecode : Prop :=
  ∀ (sp : Space) (bs rest : List Bool) (i : Instr), decode sp bs = .ok (i, rest) →
    i.wf sp = true ∧ (i ≠ .pad → bs = encode sp i ++ rest)

/-- R95 to R98 on the bits of R157, R201 and the codes of R107: instructions written out bit by bit decode to what they
stand for. -/
def Obligations.SpecBitsDecode : Prop :=
  let m : Mode := { comp := true, br := 2, bo := 1, d := 8, done := false, pos := 0 }
  decode (.payload m) [true, false, false, false, false, false, false, true, false, true] = .ok (.lit [5], []) ∧
  decode (.payload m) [false, true, false] = .ok (.rep 2, []) ∧
  decode (.payload { m with comp := false, d := 4 }) [false, false, false, true] = .ok (.raw 1, []) ∧
  decode (.payload { m with done := true, pos := 36 }) (List.replicate 12 true) = .ok (.pad, []) ∧
  decode .command [false, false, false] = .ok (.reserved0, []) ∧
  decode .command [false, false, true] = .ok (.opt, []) ∧
  decode .command [false, true, false] = .ok (.enc, []) ∧
  decode .command [false, true, true] = .ok (.asm, []) ∧
  decode .command [true, false, false] = .ok (.ldhdr, []) ∧
  decode .command [true, false, true] = .ok (.dec, []) ∧
  decode .command [true, true, false] = .ok (.reserved67 0, []) ∧
  decode .command [true, true, true] = .ok (.reserved67 1, [])

/-! ### The step -/

/-- THE MODEL'S CHOICE (log 6): between blocks of a running `DEC` one step of the machine runs the whole block that stands
at `CUR`, read by R101's grammar, which between steps follows `DSTATE` (log 15). R197's own steps are smaller, a header or
one group; BlockIsItsSteps says that the block is those steps one after another. -/
def Obligations.StepRunsBlockAtCur : Prop :=
  ∀ (s : State) (i : Instr) (rest : List Bool), s.dstate = .readControl ∨ s.dstate = .raw →
    decode (.payload s.mode) (s.bitsFrom s.cur (min 2056 (8 * s.paylen - s.cur))) = .ok (i, rest) →
    step s = exec i s

/-- R230, R232: a write of `CMD` runs the command of its three low bits, the write being taken from the host. -/
def Obligations.StepRunsCommandWritten : Prop :=
  ∀ (s : State) (v : Nat) (ops : List HostOp), s.dstate.active = false → s.host = .writeReg .cmd v :: ops →
    step s = exec (decodeCommand (BitVec.ofNat 3 (v % 8))) { s with host := ops }

/-- R282: with nothing pending the core waits. -/
def Obligations.StepWaitsWhenIdle : Prop :=
  ∀ s : State, s.dstate.active = false → s.host = [] → step s = .next s

/-- R21, R74, R208: a step of a running `DEC` (a whole block between blocks: the model's choice, log 6) takes no host access and writes only `OUTBUF`, `SINK`, `STATUS`, `ERRINFO`
and the decoder's working registers; the payload it executes and the header registers stay. -/
def Obligations.RunningDecWritesOnlyItsOwn : Prop :=
  ∀ s t : State, s.dstate.active = true → step s = .next t →
    t = { s with
      status := t.status, errinfo := t.errinfo, cur := t.cur, pixemit := t.pixemit, lastpix := t.lastpix,
      lastv := t.lastv, outcnt := t.outcnt, dstate := t.dstate, cnt := t.cnt, outbuf := t.outbuf,
      sink := t.sink } ∧
    (∀ a, s.cfg.batch ≤ a → t.outbuf.read a = s.outbuf.read a) ∧ s.sink <+: t.sink ∧ s.cur ≤ t.cur

/-- THE MODEL'S CHOICE (log 9; 93_implementation_defined.md V3): no command is issued while a `DEC` runs. -/
def Obligations.CommandsRefusedWhileDecRuns : Prop :=
  ∀ (s : State) (i : Instr), s.dstate.active = true → i.wf .command = true →
    exec i s = .refused .commandRunning

/-- THE MODEL'S CHOICE (log 8; R235): a block instruction has no effect but inside a running `DEC`. -/
def Obligations.BlocksRefusedOutsideDec : Prop :=
  ∀ (s : State) (r : BitVec 7) (gs : List Code) (g : Code), s.dstate ≠ .readControl → s.dstate ≠ .raw →
    exec (.rep r) s = .refused .notAtBlock ∧ exec (.lit gs) s = .refused .notAtBlock ∧
    exec (.raw g) s = .refused .notAtBlock ∧ exec .pad s = .refused .notAtBlock

/-! ### Reset -/

/-- R280: what the reset event leaves, whatever the unspecified contents `c`, for the registers the rule gives a value;
`State.reset` has the same values, and every command but `LDHDR` then raises `BadConfig(1)`. -/
def Obligations.ResetLeaves : Prop :=
  ∀ (s : State) (c : ResetContents) (ops : List HostOp), s.dstate.active = false → s.host = .reset c :: ops →
    ∃ t, step s = .next t ∧ t.cfg = s.cfg ∧ t.host = ops ∧ ∀ u ∈ [t, State.reset],
      u.status = 0 ∧ u.errinfo = 0 ∧ u.width = 0 ∧ u.height = 0 ∧ u.bitdepth = 0 ∧ u.flags = 0 ∧ u.palcount = 0 ∧
      u.paloff = 0 ∧ u.paylen = 0 ∧ u.filelen = 0 ∧ u.cur = 0 ∧ u.pixemit = 0 ∧ u.outcnt = 0 ∧ u.cnt = 0 ∧
      u.wcur = 0 ∧ u.lastv = false ∧ u.dstate = .idle ∧ u.sink = [] ∧
      exec .opt u = .next { u with status := 0x52, errinfo := 1 } ∧
      exec .enc u = .next { u with status := 0x52, errinfo := 1 } ∧
      exec .asm u = .next { u with status := 0x52, errinfo := 1 } ∧
      exec .dec u = .next { u with status := 0x52, errinfo := 1, dstate := .faulted }

/-- R24, R262, R280: with `BITDEPTH` outside 1 to 16 every command but `LDHDR` raises `BadConfig(1)` and does nothing
else; `DEC` also enters `Faulted`. -/
def Obligations.BadDepthRaisesBadConfig : Prop :=
  ∀ s : State, s.dstate.active = false → s.bitdepth.toNat < 1 ∨ 16 < s.bitdepth.toNat →
    exec .opt s = .next { s with status := 0x52, errinfo := 1 } ∧
    exec .enc s = .next { s with status := 0x52, errinfo := 1 } ∧
    exec .asm s = .next { s with status := 0x52, errinfo := 1 } ∧
    exec .dec s = .next { s with status := 0x52, errinfo := 1, dstate := .faulted }

/-! ### Issuing commands -/

/-- R232: a write of 0, 6 or 7 to `CMD` sets `STATUS` and `ERRINFO` and changes nothing else; only the three low bits of
the value written are the code. -/
def Obligations.ReservedCodeRaisesBadCommand : Prop :=
  ∀ (s : State) (v : Nat) (ops : List HostOp), s.dstate.active = false → s.host = .writeReg .cmd v :: ops →
    v % 8 = 0 ∨ v % 8 = 6 ∨ v % 8 = 7 →
    step s = .next { s with host := ops, status := 0x92, errinfo := v % 8 }

/-- R232, R108: the reserved instructions themselves. -/
def Obligations.ReservedInstructionsRaise : Prop :=
  ∀ (s : State) (lo : BitVec 1), s.dstate.active = false →
    exec .reserved0 s = .next { s with status := 0x92, errinfo := 0 } ∧
    exec (.reserved67 lo) s = .next { s with status := 0x92, errinfo := 6 + lo.toNat }

/-- R230 (3), R32, R33: every command issued between commands comes to its end, with `DONE` and no `ERRINFO`, or with
`ERR` and one of the nine codes; never with both, and the decoder is not left running. -/
def Obligations.CommandEndsDoneOrFaulted : Prop :=
  ∀ (s : State) (i : Instr), s.dstate.active = false → i.wf .command = true →
    ∃ t, exec i s = .next t ∧ t.dstate.active = false ∧
      ((t.status = 0x01 ∧ t.errinfo = 0) ∨ ∃ k : ErrKind, t.status = BitVec.ofNat 8 (0x02 + 16 * k.code))

/-- R233, R256: a fault in `OPT`, `ENC`, `ASM` or `LDHDR` leaves everything but `STATUS` and `ERRINFO`. -/
def Obligations.FaultedCommandWritesNothingElse : Prop :=
  ∀ (s t : State) (i : Instr), i = .opt ∨ i = .enc ∨ i = .asm ∨ i = .ldhdr → exec i s = .next t →
    t.statusErr = true → t = { s with status := t.status, errinfo := t.errinfo }

/-- R120, R140, R170, R175, R233: what a completed command may write: `OPT` two fields of `FLAGS`; `ENC` the payload, its
length, `FLAGS.COMP` and `WCUR`; `ASM` the file, its length and `PALOFF`; `LDHDR` the header registers, palette and
payload. -/
def Obligations.CommandsWriteOnlyTheirResults : Prop :=
  ∀ s t : State,
    (exec .opt s = .next t → t = { s with status := t.status, errinfo := t.errinfo, flags := t.flags } ∧
      t.comp = s.comp) ∧
    (exec .enc s = .next t → t = { s with
        status := t.status, errinfo := t.errinfo, flags := t.flags, payload := t.payload, paylen := t.paylen,
        wcur := t.wcur } ∧ t.br = s.br ∧ t.bo = s.bo ∧
      ∀ a, t.paylen ≤ a → t.payload.read a = s.payload.read a) ∧
    (exec .asm s = .next t → t = { s with
        status := t.status, errinfo := t.errinfo, file := t.file, filelen := t.filelen, paloff := t.paloff } ∧
      ∀ a, t.filelen ≤ a → t.file.read a = s.file.read a) ∧
    (exec .ldhdr s = .next t → t = { s with
        status := t.status, errinfo := t.errinfo, width := t.width, height := t.height, bitdepth := t.bitdepth,
        flags := t.flags, paloff := t.paloff, palcount := t.palcount, pal := t.pal, paylen := t.paylen,
        payload := t.payload } ∧
      (∀ a, t.palcount.toNat ≤ a → t.pal.read a = s.pal.read a) ∧
      ∀ a, t.paylen ≤ a → t.payload.read a = s.payload.read a) ∧
    (exec .dec s = .next t → t = { s with
        status := t.status, errinfo := t.errinfo, cur := t.cur, pixemit := t.pixemit, lastpix := t.lastpix,
        lastv := t.lastv, outcnt := t.outcnt, dstate := t.dstate, cnt := t.cnt, outbuf := t.outbuf, sink := t.sink,
        freeCount := t.freeCount } ∧
      (∀ a, s.cfg.batch ≤ a → t.outbuf.read a = s.outbuf.read a) ∧ s.sink <+: t.sink)

/-! ### The optimizer -/

/-- R121: the runs of a sequence are the unique list of pairs that expands to it with lengths at least 1 and different
neighbours. -/
def Obligations.RunsAreTheMaximalRuns : Prop :=
  ∀ (codes : List Code) (rs : List (Code × Nat)),
    rs = runs codes ↔
      (rs.flatMap fun x => List.replicate x.2 x.1) = codes ∧ (∀ x ∈ rs, 1 ≤ x.2) ∧
      rs.IsChain fun x y => x.1 ≠ y.1

/-- R122: both branches of the fold rule remove all the repeats in `ceil(rep / 2^b)` blocks. -/
def Obligations.ContribHasClosedForm : Prop :=
  ∀ d rep b : Nat, contrib d rep b = (rep, ceilPow rep b)

/-- R120, R125, R128: on legal inputs `OPT` completes; `BITSREP` becomes the least width with the greatest savings and
`BITSOFF` the least with the smallest cost; nothing else changes. -/
def Obligations.OptChoosesLeastBest : Prop :=
  ∀ s : State, s.dstate.active = false → s.PixelsLegal →
    ∃ f, exec .opt s = .next { s with status := 0x01, errinfo := 0, flags := f } ∧
      f.getLsbD 7 = false ∧ f.getLsbD 0 = s.comp ∧
      LeastMax (fun b => savedBits s.depth b (runs s.pixels)) (f.toNat / 2 % 8) ∧
      LeastMax (fun b => -(((spanLengths 0 (runs s.pixels)).map fun l => ceilPow l b).sum * (b + 1) : Nat))
        (f.toNat / 16 % 8)

/-- R131: the length of the compressed stream, and the widths `OPT` chooses make it shortest over all 64 pairs; among
the shortest they are the least in both components. -/
def Obligations.OptMinimisesStreamLength : Prop :=
  ∀ (d br bo : Nat) (codes : List Code), 1 ≤ d → d ≤ 16 → br ≤ 7 → bo ≤ 7 →
    let len := fun br' bo' => (blockStream (streamMode d br' bo') (blocks br' bo' codes)).length
    let r := bestRep d (runs codes)
    let o := bestOff (runs codes)
    len br bo = (runs codes).length * d + ((runs codes).map fun x => ceilPow (x.2 - 1) br).sum * (br + 1) +
      ((spanLengths 0 (runs codes)).map fun l => ceilPow l bo).sum * (bo + 1) ∧
    len r o ≤ len br bo ∧ (len br bo = len r o → r ≤ br ∧ o ≤ bo)

/-- R129, R141, R263, R264: `OPT` and `ENC` check the capacity, then report the least pixel code that does not fit. -/
def Obligations.EncodeInputFaults : Prop :=
  ∀ s : State, s.dstate.active = false → s.depthOk = true → ∀ i, i = .opt ∨ i = .enc →
    (exceeds s.pixelCount s.cfg.pixinCap = true → exec i s = .next { s with status := 0x82, errinfo := 1 }) ∧
    (exceeds s.pixelCount s.cfg.pixinCap = false → ∀ j, j < s.pixelCount →
      2 ^ s.depth ≤ (s.pixin.read j).toNat → (∀ k, k < j → (s.pixin.read k).toNat < 2 ^ s.depth) →
      exec i s = .next { s with status := 0x62, errinfo := j })

/-- R40, R233: `OPT` and `ENC` never read `PIXIN` at `N` and above. -/
def Obligations.PixelsAboveNDoNotMatter : Prop :=
  ∀ (s t : State) (p : Mem 16) (i : Instr), i = .opt ∨ i = .enc →
    (∀ j, j < s.pixelCount → p.read j = s.pixin.read j) → exec i s = .next t →
    exec i { s with pixin := p } = .next { t with pixin := p }

/-! ### The encoder -/

/-- R145: the repeat blocks of a run are full blocks and then one for the remainder, `ceil(rep / 2^br)` in all. -/
def Obligations.RepBlocksAreFullThenRemainder : Prop :=
  ∀ br rep : Nat, br ≤ 7 →
    repBlocks br rep = List.replicate (rep / 2 ^ br) (.rep (BitVec.ofNat 7 (2 ^ br - 1))) ++
      (if rep % 2 ^ br = 0 then [] else [.rep (BitVec.ofNat 7 (rep % 2 ^ br - 1))]) ∧
    (repBlocks br rep).length = ceilPow rep br

/-- R146: the literal blocks of a span carry it in order, `2^bo` codes in each but the last, which carries the rest. -/
def Obligations.LitBlocksCutTheSpan : Prop :=
  ∀ (bo : Nat) (span : List Code), span ≠ [] →
    ∃ (full : List (List Code)) (last : List Code),
      litBlockList bo span = full.map .lit ++ [.lit last] ∧ full.flatten ++ last = span ∧
      (∀ gs ∈ full, gs.length = 2 ^ bo) ∧ 1 ≤ last.length ∧ last.length ≤ 2 ^ bo ∧
      full.length + 1 = ceilPow span.length bo

/-- R143, R144: the blocks of a sequence stand for exactly that sequence, each has an encoding, and the first is a
`LIT`. -/
def Obligations.BlocksStandForTheSequence : Prop :=
  ∀ (d br bo : Nat) (codes : List Code) (last : Code), 1 ≤ d → d ≤ 16 → br ≤ 7 → bo ≤ 7 →
    (∀ c ∈ codes, c.toNat < 2 ^ d) →
    expand last (blocks br bo codes) = codes ∧
    (∀ i ∈ blocks br bo codes, i.wf (.payload (streamMode d br bo)) = true) ∧
    (codes ≠ [] → ∃ gs rest, blocks br bo codes = .lit gs :: rest)

/-- R140, R147 to R150: on legal inputs with room for the payload `ENC` completes; the payload's bits are the padded
compressed stream, or the padded raw packing when that stream is longer; nothing else changes. -/
def Obligations.EncWritesTheStream : Prop :=
  ∀ s : State, s.dstate.active = false → s.PixelsLegal →
    let p := payloadBits s.depth s.br s.bo s.pixels
    exceeds (p.length / 8) s.cfg.payloadCap = false →
    ∃ t, exec .enc s = .next t ∧
      t = { s with
        status := 0x01, errinfo := 0, flags := t.flags, payload := t.payload, paylen := p.length / 8,
        wcur := p.length } ∧
      t.bitsFrom 0 p.length = p ∧ 8 * t.paylen = p.length ∧ t.br = s.br ∧ t.bo = s.bo ∧
      t.comp = decide ((candidate s.depth s.br s.bo s.pixels).length / 8 ≤
        (s.pixelCount * s.depth + 15) / 16 * 2) ∧
      ∀ a, p.length / 8 ≤ a → t.payload.read a = s.payload.read a

/-- R141, R264: `ENC` raises `CapacityExceeded(2)` when its payload does not fit, before anything is written. -/
def Obligations.EncPayloadTooLong : Prop :=
  ∀ s : State, s.dstate.active = false → s.PixelsLegal →
    exceeds ((payloadBits s.depth s.br s.bo s.pixels).length / 8) s.cfg.payloadCap = true →
    exec .enc s = .next { s with status := 0x82, errinfo := 2 }

/-- R150, R151: a completed `ENC` leaves an even payload length, at most the naive length and at most `2 × N`. -/
def Obligations.EncSizeBound : Prop :=
  ∀ s t : State, exec .enc s = .next t → t.statusDone = true →
    t.paylen % 2 = 0 ∧ t.wcur = 8 * t.paylen ∧ t.paylen ≤ (s.pixelCount * s.depth + 15) / 16 * 2 ∧
    t.paylen ≤ 2 * s.pixelCount

/-- R152: the empty sequence encodes to an empty payload with `COMP = 1`. -/
def Obligations.EncOfEmptyImage : Prop :=
  ∀ s : State, s.dstate.active = false → s.depthOk = true → s.pixelCount = 0 →
    ∃ t, exec .enc s = .next t ∧ t.status = 0x01 ∧ t.paylen = 0 ∧ t.comp = true ∧ t.wcur = 0

/-- R161, R163: the stream the bit writer produces is the concatenation of the fields given to it, the cursor counts
them, and the rest of the last byte is zero. -/
def Obligations.WriterConcatenatesFields : Prop :=
  ∀ fs : List (Nat × Nat),
    let w := fs.foldl (fun w f => BitWriter.putBits w f.1 f.2) BitWriter.empty
    let bs := fs.flatMap fun f => fieldBits f.1 f.2
    w.wcur = bs.length ∧
      byteBits w.bytes = bs ++ List.replicate ((8 - bs.length % 8) % 8) false

/-! ### The assembler and the header loader -/

/-- R90 to R93, R170 to R173: `ASM` completes on a legal configuration that fits; the file is the header, the palette
entries when the depth is below 16, and the payload; nothing else changes. -/
def Obligations.AsmBuildsTheFile : Prop :=
  ∀ s : State, s.dstate.active = false → s.depthOk = true → s.PaletteLegal →
    let np := if s.depth = 16 then 0 else s.palcount.toNat
    exceeds s.paylen s.cfg.payloadCap = false → exceeds (20 + 2 * np + s.paylen) s.cfg.fileCap = false →
    ∃ t, exec .asm s = .next t ∧
      t = { s with
        status := 0x01, errinfo := 0, file := t.file, filelen := 20 + 2 * np + s.paylen,
        paloff := BitVec.ofNat 16 (20 + 2 * np) } ∧
      t.paloff.toNat = 20 + 2 * np ∧
      t.file.readList 0 20 =
        [0x50, 0x48, 0x43, 0x31, 0x2E, 0x30, 0, 0, 0, 0] ++ be16 s.width ++ be16 s.height ++
          [s.bitdepth, 0, 0, s.flags &&& 0x7F] ++ be16 t.paloff ∧
      (∀ i, i < np → t.file.readList (20 + 2 * i) 2 = be16 (s.pal.read i)) ∧
      (∀ i, i < s.paylen → t.file.read (20 + 2 * np + i) = s.payload.read i) ∧
      ∀ a, t.filelen ≤ a → t.file.read a = s.file.read a

/-- R172, R258, R264: the faults of `ASM` behind `BadConfig(1)`, in their order. -/
def Obligations.AsmFaults : Prop :=
  ∀ s : State, s.dstate.active = false → s.depthOk = true →
    let np := if s.depth = 16 then 0 else s.palcount.toNat
    (s.depth ≠ 16 → 2 ^ s.depth < s.palcount.toNat →
      exec .asm s = .next { s with status := 0x52, errinfo := 2 }) ∧
    (s.depth ≠ 16 → s.palcount.toNat ≤ 2 ^ s.depth → 65535 < 20 + 2 * s.palcount.toNat →
      exec .asm s = .next { s with status := 0x52, errinfo := 3 }) ∧
    (s.PaletteLegal → exceeds s.paylen s.cfg.payloadCap = true →
      exec .asm s = .next { s with status := 0x82, errinfo := 2 }) ∧
    (s.PaletteLegal → exceeds s.paylen s.cfg.payloadCap = false →
      exceeds (20 + 2 * np + s.paylen) s.cfg.fileCap = true →
      exec .asm s = .next { s with status := 0x82, errinfo := 3 })

/-- R175, R176: `LDHDR` completes on a file that passes its checks; every field is taken from its place in the file, flags
bit 7 and the reserved bytes are ignored, and nothing else changes. -/
def Obligations.LdhdrLoadsTheFile : Prop :=
  ∀ s : State, s.dstate.active = false → exceeds s.filelen s.cfg.fileCap = false → 20 ≤ s.filelen →
    s.file.readList 0 10 = [0x50, 0x48, 0x43, 0x31, 0x2E, 0x30, 0, 0, 0, 0] →
    1 ≤ (s.file.read 14).toNat → (s.file.read 14).toNat ≤ 16 →
    let po := 256 * (s.file.read 18).toNat + (s.file.read 19).toNat
    20 ≤ po → po ≤ s.filelen → (po - 20) % 2 = 0 → exceeds (s.filelen - po) s.cfg.payloadCap = false →
    ∃ t, exec .ldhdr s = .next t ∧
      t = { s with
        status := 0x01, errinfo := 0, width := t.width, height := t.height, bitdepth := s.file.read 14,
        flags := s.file.read 17 &&& 0x7F, paloff := t.paloff, palcount := t.palcount, pal := t.pal,
        paylen := s.filelen - po, payload := t.payload } ∧
      t.width.toNat = 256 * (s.file.read 10).toNat + (s.file.read 11).toNat ∧
      t.height.toNat = 256 * (s.file.read 12).toNat + (s.file.read 13).toNat ∧
      t.paloff.toNat = po ∧ t.palcount.toNat = (po - 20) / 2 ∧
      (∀ i, i < (po - 20) / 2 →
        (t.pal.read i).toNat = 256 * (s.file.read (20 + 2 * i)).toNat + (s.file.read (21 + 2 * i)).toNat) ∧
      (∀ i, (po - 20) / 2 ≤ i → t.pal.read i = s.pal.read i) ∧
      (∀ i, i < s.filelen - po → t.payload.read i = s.file.read (po + i)) ∧
      ∀ i, s.filelen - po ≤ i → t.payload.read i = s.payload.read i

/-- R175, R258, R261, R264: the faults of `LDHDR`, in their order. -/
def Obligations.LdhdrFaults : Prop :=
  ∀ s : State, s.dstate.active = false →
    let bad := fun st (info : Nat) => exec .ldhdr s = .next { s with status := st, errinfo := info }
    let po := 256 * (s.file.read 18).toNat + (s.file.read 19).toNat
    let depth := (s.file.read 14).toNat
    if exceeds s.filelen s.cfg.fileCap = true then bad 0x82 3
    else if s.filelen < 20 then bad 0x72 1
    else if s.file.readList 0 10 ≠ [0x50, 0x48, 0x43, 0x31, 0x2E, 0x30, 0, 0, 0, 0] then bad 0x72 2
    else if depth < 1 ∨ 16 < depth then bad 0x72 3
    else if po < 20 ∨ s.filelen < po then bad 0x72 4
    else if (po - 20) % 2 = 1 then bad 0x72 5
    else if exceeds (s.filelen - po) s.cfg.payloadCap = true then bad 0x82 2
    else ∃ t, exec .ldhdr s = .next t ∧ t.status = 0x01

/-- R177: after a successful `ASM`, a `LDHDR` of the same file succeeds and restores what `ASM` read; with
`BITDEPTH = 16` it sets `PALCOUNT` to 0. -/
def Obligations.LdhdrInvertsAsm : Prop :=
  ∀ s t u : State, exec .asm s = .next t → t.statusDone = true → u.dstate.active = false →
    exceeds t.filelen u.cfg.fileCap = false → exceeds t.paylen u.cfg.payloadCap = false →
    u.filelen = t.filelen → (∀ a, a < t.filelen → u.file.read a = t.file.read a) →
    ∃ v, exec .ldhdr u = .next v ∧ v.statusDone = true ∧ v.width = s.width ∧ v.height = s.height ∧
      v.bitdepth = s.bitdepth ∧ v.flags = s.readFlags ∧ v.paylen = s.paylen ∧
      (∀ a, a < s.paylen → v.payload.read a = s.payload.read a) ∧
      (s.depth < 16 → v.palcount = s.palcount ∧ ∀ i, i < s.palcount.toNat → v.pal.read i = s.pal.read i) ∧
      (s.depth = 16 → v.palcount = 0)

/-! ### The block instructions -/

/-- R191: `GetBits(n)` gives the sum of its bits, the first the most significant, and moves `CUR` by `n`; it fails as a
whole when fewer than `n` bits remain; a read of no bits gives 0 and cannot fail. -/
def Obligations.GetBitsIsTheSumOfItsBits : Prop :=
  ∀ (s : State) (n : Nat),
    (n ≠ 0 → s.cur + n ≤ 8 * s.paylen → s.getBits n =
      some (∑ i ∈ Finset.range n, (s.bit (s.cur + i)).toNat * 2 ^ (n - 1 - i), { s with cur := s.cur + n })) ∧
    (n ≠ 0 → 8 * s.paylen < s.cur + n → s.getBits n = none) ∧ s.getBits 0 = some (0, s)

/-- R198, R200: a whole `REP` (log 6) inside a running `DEC`, with a base pixel and room for its count, completes: it emits `LASTPIX`
`r + 1` times, moves `CUR` past `1 + br` bits and changes nothing else. -/
def Obligations.RepRepeatsTheLastColour : Prop :=
  ∀ (s : State) (r : BitVec 7), s.dstate = .readControl → s.outcnt < s.cfg.batch →
    (Instr.rep r).wf (.payload s.mode) = true → s.lastv = true → r.toNat + 1 ≤ s.pixelCount - s.pixemit →
    ∃ t, exec (.rep r) s = .next t ∧ s.Emitted t (List.replicate (r.toNat + 1) s.lastpix) ∧
      t = { s with
        cur := s.cur + (1 + s.br), pixemit := t.pixemit, outcnt := t.outcnt, cnt := 0, outbuf := t.outbuf,
        sink := t.sink }

/-- R198, R253, R254, R256: a `REP` before any pixel, or longer than the pixels still wanted, faults at its header and
emits nothing. -/
def Obligations.RepFaults : Prop :=
  ∀ (s : State) (r : BitVec 7), s.dstate = .readControl → s.outcnt < s.cfg.batch →
    (Instr.rep r).wf (.payload s.mode) = true →
    (s.lastv = false →
      exec (.rep r) s = .next { s with status := 0x32, errinfo := s.cur, dstate := .faulted }) ∧
    (s.lastv = true → s.pixelCount - s.pixemit < r.toNat + 1 →
      exec (.rep r) s = .next { s with status := 0x42, errinfo := s.cur, dstate := .faulted })

/-- R193, R198, R199: a whole `LIT` (log 6) inside a running `DEC`, with room for its codes and every code resolving, completes: it
emits their colours in order, remembers the last, moves `CUR` past `1 + bo + (c + 1) × d` bits and changes nothing
else. -/
def Obligations.LitEmitsItsColours : Prop :=
  ∀ (s : State) (gs : List Code), s.dstate = .readControl → s.outcnt < s.cfg.batch →
    (Instr.lit gs).wf (.payload s.mode) = true → gs.length ≤ s.pixelCount - s.pixemit → s.Resolves gs →
    ∃ t, exec (.lit gs) s = .next t ∧ s.Emitted t (gs.map s.colourOf) ∧
      t = { s with
        cur := s.cur + (1 + s.bo + gs.length * s.depth), pixemit := t.pixemit, outcnt := t.outcnt, cnt := 0,
        outbuf := t.outbuf, sink := t.sink, lastpix := s.colourOf (gs.getLastD 0), lastv := true }

/-- R198, R252, R254, R256: a `LIT` longer than the pixels still wanted faults at its header; one whose group `j` has no
palette entry leaves the groups before it emitted and `CUR` at that group. THE MODEL'S READING (log 18): `CNT` stays in
`Faulted` at the codes left, as R203 and the vectors T54 and T56 have it, though R39 gives 0 outside `Literal` and
`Repeat`. -/
def Obligations.LitFaults : Prop :=
  ∀ (s : State) (gs : List Code), s.dstate = .readControl → s.outcnt < s.cfg.batch →
    (Instr.lit gs).wf (.payload s.mode) = true →
    (s.pixelCount - s.pixemit < gs.length →
      exec (.lit gs) s = .next { s with status := 0x42, errinfo := s.cur, dstate := .faulted }) ∧
    (gs.length ≤ s.pixelCount - s.pixemit → ∀ (pre post : List Code) (g : Code), gs = pre ++ g :: post →
      s.depth ≠ 16 → (∀ x ∈ pre, x.toNat < s.palcount.toNat) → s.palcount.toNat ≤ g.toNat →
      ∃ t, exec (.lit gs) s = .next t ∧ s.Emitted t (pre.map s.colourOf) ∧
        t = { s with
          status := 0x22, errinfo := g.toNat, dstate := .faulted, cnt := post.length + 1,
          cur := s.cur + (1 + s.bo + pre.length * s.depth), pixemit := t.pixemit, outcnt := t.outcnt,
          outbuf := t.outbuf, sink := t.sink, lastpix := t.lastpix, lastv := t.lastv } ∧
        (pre = [] → t.lastpix = s.lastpix ∧ t.lastv = s.lastv) ∧
        (pre ≠ [] → t.lastpix = s.colourOf (pre.getLastD 0) ∧ t.lastv = true))

/-- R193, R201: a `RAW` group inside a running raw `DEC` emits its colour, remembers it, moves `CUR` past `d` bits and
changes nothing else; with no palette entry it faults and emits nothing. -/
def Obligations.RawEmitsItsColour : Prop :=
  ∀ (s : State) (g : Code), s.dstate = .raw → s.outcnt < s.cfg.batch → (Instr.raw g).wf (.payload s.mode) = true →
    (s.Resolves [g] → ∃ t, exec (.raw g) s = .next t ∧ s.Emitted t [s.colourOf g] ∧
      t = { s with
        cur := s.cur + s.depth, pixemit := t.pixemit, outcnt := t.outcnt, outbuf := t.outbuf, sink := t.sink,
        lastpix := s.colourOf g, lastv := true }) ∧
    (¬ s.Resolves [g] →
      exec (.raw g) s = .next { s with status := 0x22, errinfo := g.toNat, dstate := .faulted })

/-- THE MODEL'S CHOICES: executing `PAD`, which R98 says is never executed, is the terminal step (log 20), and `STATUS.DONE`
is set in that very step, where R196 sets it after the last step (log 19). The rest is R202: when pixel `N` is complete
nothing is read, a partial buffer is flushed, and nothing else changes. -/
def Obligations.PadEndsTheDecode : Prop :=
  ∀ s : State, s.dstate = .readControl ∨ s.dstate = .raw → s.outcnt < s.cfg.batch → s.depthOk = true →
    s.pixemit = s.pixelCount → s.status = 0 →
    exec .pad s = .next { s with
      sink := if 1 ≤ s.outcnt then s.sink ++ [s.outbuf.readList 0 s.outcnt] else s.sink, outcnt := 0,
      status := 0x01, dstate := .terminal }

/-- R197, R203, R256, R257: a decoder step that faults writes `STATUS`, `ERRINFO` and `DSTATE` and nothing else; for every
fault but a bad palette index `ERRINFO` is the `CUR` the step began with. -/
def Obligations.FaultingStepIsPrecise : Prop :=
  ∀ s : State, s.dstate.active = true → s.decStep.dstate = .faulted →
    s.decStep = { s with status := s.decStep.status, errinfo := s.decStep.errinfo, dstate := .faulted } ∧
    ((s.decStep.status = 0x22 ∧ s.depth ≠ 16 ∧ s.palcount.toNat ≤ s.decStep.errinfo) ∨
      ((s.decStep.status = 0x12 ∨ s.decStep.status = 0x32 ∨ s.decStep.status = 0x42) ∧ s.decStep.errinfo = s.cur))

/-- R191, R198, R251: a block or group the payload cuts short raises `StreamTruncated` where its step began. -/
def Obligations.CutStreamRaisesTruncated : Prop :=
  ∀ s : State, s.depthOk = true → s.pixemit ≠ s.pixelCount →
    ((s.dstate = .readControl ∧
        (8 * s.paylen < s.cur + 1 ∨
          (s.bit s.cur = true ∧ 8 * s.paylen < s.cur + (1 + s.bo)) ∨
          (s.bit s.cur = false ∧ 8 * s.paylen < s.cur + (1 + s.br)))) ∨
      ((s.dstate = .literal ∨ s.dstate = .raw) ∧ 8 * s.paylen < s.cur + s.depth)) →
    s.decStep = { s with status := 0x12, errinfo := s.cur, dstate := .faulted }

/-- R197, R199, R200: a whole block is the state machine's steps one after another: executing the block at `CUR` gives the
state that 1 to 129 steps give. -/
def Obligations.BlockIsItsSteps : Prop :=
  ∀ (s t : State) (i : Instr) (rest : List Bool), s.dstate = .readControl ∨ s.dstate = .raw →
    decode (.payload s.mode) s.window = .ok (i, rest) → exec i s = .next t →
    ∃ n, 1 ≤ n ∧ n ≤ 129 ∧ t = State.decStep^[n] s

/-! ### The whole decode -/

/-- R196, R262, R264: the faults of `DEC` before its first step; the working registers keep their values. -/
def Obligations.DecPayloadTooLong : Prop :=
  ∀ s : State, s.dstate.active = false → s.depthOk = true → exceeds s.paylen s.cfg.payloadCap = true →
    exec .dec s = .next { s with status := 0x82, errinfo := 2, dstate := .faulted }

/-- R204, R205: every `DEC` ends, in `Terminal` or `Faulted`. One that ends in `Terminal` has delivered exactly `N`
colours, in batches of `BATCH` but for the last. -/
def Obligations.DecEndsWithNPixels : Prop :=
  ∀ s : State, s.dstate.active = false →
    ∃ t, exec .dec s = .next t ∧ (t.dstate = .terminal ∨ t.dstate = .faulted) ∧
      (t.dstate = .faulted → t.statusErr = true) ∧
      (t.dstate = .terminal → t.status = 0x01 ∧ t.errinfo = 0 ∧ t.pixemit = s.pixelCount ∧ t.outcnt = 0 ∧
        ∃ p : List Colour, p.length = s.pixelCount ∧ t.sink = s.sink ++ batches s.cfg.batch p)

/-- R205: the batches of a list are `ceil(N / BATCH)` lists of `BATCH` colours, the last holding the rest, and together
they are the list. -/
def Obligations.BatchesCutTheList : Prop :=
  ∀ (b : Nat) (l : List Colour), 1 ≤ b →
    (batches b l).flatten = l ∧ (batches b l).length = (l.length + b - 1) / b ∧
    ∀ (i : Nat) (h : i < (batches b l).length),
      ((batches b l)[i]).length = if i + 1 < (batches b l).length then b else l.length - b * i

/-- R196, R198 to R202, R205, R207: `DEC` of a payload that begins with the blocks of `N` pixels, the first a `LIT` and
every code resolving, completes: it delivers their colours in batches, leaves `CUR` after the last block, and neither
reads nor minds the bits behind it. -/
def Obligations.DecExecutesItsBlocks : Prop :=
  ∀ (s : State) (is : List Instr) (rest : List Bool), s.dstate.active = false → s.depthOk = true →
    exceeds s.paylen s.cfg.payloadCap = false → s.comp = true →
    let m := streamMode s.depth s.br s.bo
    (∀ i ∈ is, i.wf (.payload m) = true) → (∀ i, is.head? = some i → ∃ gs, i = .lit gs) →
    s.bitsFrom 0 (8 * s.paylen) = blockStream m is ++ rest → (expand 0 is).length = s.pixelCount →
    s.Resolves (expand 0 is) →
    ∃ t, exec .dec s = .next t ∧ t.status = 0x01 ∧ t.errinfo = 0 ∧ t.dstate = .terminal ∧
      t.cur = (blockStream m is).length ∧ t.pixemit = s.pixelCount ∧ t.outcnt = 0 ∧ t.cnt = 0 ∧
      t.sink = s.sink ++ batches s.cfg.batch ((expand 0 is).map s.colourOf)

/-- R201, R202, R205: `DEC` of a raw payload that begins with the groups of `N` codes, every one resolving, completes and
delivers their colours. -/
def Obligations.DecExecutesRawGroups : Prop :=
  ∀ (s : State) (codes : List Code) (rest : List Bool), s.dstate.active = false → s.depthOk = true →
    exceeds s.paylen s.cfg.payloadCap = false → s.comp = false → codes.length = s.pixelCount →
    (∀ c ∈ codes, c.toNat < 2 ^ s.depth) →
    s.bitsFrom 0 (8 * s.paylen) = rawStream s.depth codes ++ rest → s.Resolves codes →
    ∃ t, exec .dec s = .next t ∧ t.status = 0x01 ∧ t.errinfo = 0 ∧ t.dstate = .terminal ∧
      t.cur = s.pixelCount * s.depth ∧ t.pixemit = s.pixelCount ∧ t.outcnt = 0 ∧
      t.sink = s.sink ++ batches s.cfg.batch (codes.map s.colourOf)

/-- R207: no bit at or after the final `CUR` is read, so another payload that agrees before it, of whatever length, gives
the same decode. -/
def Obligations.TrailingBitsDoNotMatter : Prop :=
  ∀ (s t : State) (p : Mem 8) (n : Nat), exec .dec s = .next t → t.dstate = .terminal →
    exceeds n s.cfg.payloadCap = false → t.cur ≤ 8 * n →
    (∀ k, k < t.cur → (p.read (k / 8)).getLsbD (7 - k % 8) = s.bit k) →
    exec .dec { s with payload := p, paylen := n } = .next { t with payload := p, paylen := n }

/-- R196, R230: the whole command is the machine's own steps from the state `DEC` starts in, one after another. -/
def Obligations.DecIsARunOfSteps : Prop :=
  ∀ s t : State, s.depthOk = true → exceeds s.paylen s.cfg.payloadCap = false → exec .dec s = .next t →
    ∃ n, Host.Core.run Sys2Proof.core n s.beginCommand.decStart = .next t

/-- R155, R206: decoding the payload `ENC` wrote, with the same header fields, delivers the colours of the pixel sequence
in order when every code resolves. -/
def Obligations.DecodeInvertsEncode : Prop :=
  ∀ s t : State, exec .enc s = .next t → t.statusDone = true → s.Resolves s.pixels →
    ∃ u, exec .dec t = .next u ∧ u.status = 0x01 ∧ u.dstate = .terminal ∧
      u.sink = s.sink ++ batches s.cfg.batch (s.pixels.map s.colourOf)

/-- R236, R237: `OPT`, `ENC` and `ASM` complete on a legal image; then `LDHDR` and `DEC` on any machine that holds the file
complete and deliver the colours of the image. -/
def Obligations.FileCarriesTheImage : Prop :=
  ∀ s : State, s.dstate.active = false → s.cfg.Unbounded → s.PixelsLegal → s.PaletteLegal → s.Resolves s.pixels →
    ∃ a b c, exec .opt s = .next a ∧ a.status = 0x01 ∧ exec .enc a = .next b ∧ b.status = 0x01 ∧
      exec .asm b = .next c ∧ c.status = 0x01 ∧
      ∀ u : State, u.dstate.active = false → u.cfg.Unbounded → u.filelen = c.filelen →
        (∀ k, k < c.filelen → u.file.read k = c.file.read k) →
        ∃ v w, exec .ldhdr u = .next v ∧ v.status = 0x01 ∧ exec .dec v = .next w ∧ w.status = 0x01 ∧
          w.sink = u.sink ++ batches u.cfg.batch (s.pixels.map s.colourOf)

/-! ### Host access -/

/-- R21, R22, R27, R34: the host's write of a read-write register is what it reads back (bit 7 of `FLAGS` reads 0) and
changes no other register; a write of a read-only register is ignored. -/
def Obligations.HostWritesRegisters : Prop :=
  ∀ (s : State) (r : Reg) (v : Nat) (ops : List HostOp), s.dstate.active = false →
    s.host = .writeReg r v :: ops →
    (r = .width ∨ r = .height ∨ r = .palcount → v < 2 ^ 16 → ∃ t, step s = .next t ∧ t.readReg r = some v ∧
      ∀ q, q ≠ r → t.readReg q = s.readReg q) ∧
    (r = .bitdepth → v < 2 ^ 8 → ∃ t, step s = .next t ∧ t.readReg r = some v ∧
      ∀ q, q ≠ r → t.readReg q = s.readReg q) ∧
    (r = .flags → v < 2 ^ 8 → ∃ t, step s = .next t ∧ t.readReg r = some (v % 128) ∧
      ∀ q, q ≠ r → t.readReg q = s.readReg q) ∧
    (r = .paylen ∨ r = .filelen → ∃ t, step s = .next t ∧ t.readReg r = some v ∧
      ∀ q, q ≠ r → t.readReg q = s.readReg q) ∧
    (r = .status ∨ r = .errinfo ∨ r = .paloff ∨ r = .cur ∨ r = .pixemit ∨ r = .lastpix ∨ r = .outcnt ∨ r = .dstate ∨
      r = .cnt ∨ r = .wcur → step s = .next { s with host := ops })

/-- R40 to R43: the host's element write changes that element and nothing else. -/
def Obligations.HostWritesElements : Prop :=
  ∀ (s : State) (i : Nat) (c : Code) (b : Byte) (ops : List HostOp), s.dstate.active = false →
    (s.host = .writePixin i c :: ops → exceeds (i + 1) s.cfg.pixinCap = false → ∃ m : Mem 16,
      step s = .next { s with host := ops, pixin := m } ∧ ∀ j, m.read j = if j = i then c else s.pixin.read j) ∧
    (s.host = .writePal i c :: ops → i < 32768 → ∃ m : Mem 16,
      step s = .next { s with host := ops, pal := m } ∧ ∀ j, m.read j = if j = i then c else s.pal.read j) ∧
    (s.host = .writePayload i b :: ops → exceeds (i + 1) s.cfg.payloadCap = false → ∃ m : Mem 8,
      step s = .next { s with host := ops, payload := m } ∧ ∀ j, m.read j = if j = i then b else s.payload.read j) ∧
    (s.host = .writeFile i b :: ops → exceeds (i + 1) s.cfg.fileCap = false → ∃ m : Mem 8,
      step s = .next { s with host := ops, file := m } ∧ ∀ j, m.read j = if j = i then b else s.file.read j)

/-! ### Invariants -/

/-- R280, R281: the invariant holds after reset, for every parameters and whatever the unspecified contents; `LASTPIX`
and every element that exists and that the contents reach read as the contents give them, so a statement about the
states after reset assumes no value. THE MODEL'S CHOICE (log 13) is the form of that input, a list for each memory. -/
def Obligations.ResetIsLegal : Prop :=
  State.reset.Legal ∧ ∀ (cfg : Config) (c : ResetContents),
    let t := State.resetWith cfg c
    t.Legal ∧ t.cfg = cfg ∧ t.lastpix = c.lastpix ∧
    (∀ i v, c.pixin[i]? = some v → exceeds (i + 1) cfg.pixinCap = false → t.pixin.read i = v) ∧
    (∀ i v, c.pal[i]? = some v → i < 32768 → t.pal.read i = v) ∧
    (∀ i v, c.payload[i]? = some v → exceeds (i + 1) cfg.payloadCap = false → t.payload.read i = v) ∧
    (∀ i v, c.file[i]? = some v → exceeds (i + 1) cfg.fileCap = false → t.file.read i = v) ∧
    ∀ i v, c.outbuf[i]? = some v → i < cfg.batch → t.outbuf.read i = v

/-- R27, R32, R33, R40 to R45, R204: every step keeps the invariant: the memories canonical and in bounds, `FLAGS` and
`STATUS` legal, every batch of 1 to `BATCH` colours, and between the steps of a `DEC` the relations of R204. A whole block is one step
by the model's choice (log 6); the canonical form is the model's (log 1). -/
def Obligations.StepKeepsLegal : Prop :=
  ∀ s t : State, s.Legal → step s = .next t → t.Legal

/-- In a legal state with a host access the spec defines the machine always goes on: no stop of the model is reached. -/
def Obligations.LegalStatesAlwaysStep : Prop :=
  ∀ s : State, s.Legal → (∀ op ops, s.host = op :: ops → op.defined s.cfg = true) → ∃ t, step s = .next t

/-- R20, R280: no step changes the build-time parameters. -/
def Obligations.ParametersNeverChange : Prop :=
  ∀ s t : State, step s = .next t → t.cfg = s.cfg
end

