-- ==== Sys2Proof/Laws/State.lean ====
section
/-!
SUPPORT. One lemma per field per update of the state, true by `rfl`, so that no later proof unfolds a record update.
-/

namespace Sys2Proof.Machine

variable (s : State)


/-! ### `State.raise` -/

@[simp] theorem State.raise_cfg (k : ErrKind) (info : Nat) :
    (s.raise k info).cfg = s.cfg := rfl
@[simp] theorem State.raise_host (k : ErrKind) (info : Nat) :
    (s.raise k info).host = s.host := rfl
@[simp] theorem State.raise_freeCount (k : ErrKind) (info : Nat) :
    (s.raise k info).freeCount = s.freeCount := rfl
@[simp] theorem State.raise_status (k : ErrKind) (info : Nat) :
    (s.raise k info).status = faultStatus k := rfl
@[simp] theorem State.raise_errinfo (k : ErrKind) (info : Nat) :
    (s.raise k info).errinfo = info := rfl
@[simp] theorem State.raise_width (k : ErrKind) (info : Nat) :
    (s.raise k info).width = s.width := rfl
@[simp] theorem State.raise_height (k : ErrKind) (info : Nat) :
    (s.raise k info).height = s.height := rfl
@[simp] theorem State.raise_bitdepth (k : ErrKind) (info : Nat) :
    (s.raise k info).bitdepth = s.bitdepth := rfl
@[simp] theorem State.raise_flags (k : ErrKind) (info : Nat) :
    (s.raise k info).flags = s.flags := rfl
@[simp] theorem State.raise_palcount (k : ErrKind) (info : Nat) :
    (s.raise k info).palcount = s.palcount := rfl
@[simp] theorem State.raise_paloff (k : ErrKind) (info : Nat) :
    (s.raise k info).paloff = s.paloff := rfl
@[simp] theorem State.raise_paylen (k : ErrKind) (info : Nat) :
    (s.raise k info).paylen = s.paylen := rfl
@[simp] theorem State.raise_filelen (k : ErrKind) (info : Nat) :
    (s.raise k info).filelen = s.filelen := rfl
@[simp] theorem State.raise_cur (k : ErrKind) (info : Nat) :
    (s.raise k info).cur = s.cur := rfl
@[simp] theorem State.raise_pixemit (k : ErrKind) (info : Nat) :
    (s.raise k info).pixemit = s.pixemit := rfl
@[simp] theorem State.raise_lastpix (k : ErrKind) (info : Nat) :
    (s.raise k info).lastpix = s.lastpix := rfl
@[simp] theorem State.raise_lastv (k : ErrKind) (info : Nat) :
    (s.raise k info).lastv = s.lastv := rfl
@[simp] theorem State.raise_outcnt (k : ErrKind) (info : Nat) :
    (s.raise k info).outcnt = s.outcnt := rfl
@[simp] theorem State.raise_dstate (k : ErrKind) (info : Nat) :
    (s.raise k info).dstate = s.dstate := rfl
@[simp] theorem State.raise_cnt (k : ErrKind) (info : Nat) :
    (s.raise k info).cnt = s.cnt := rfl
@[simp] theorem State.raise_wcur (k : ErrKind) (info : Nat) :
    (s.raise k info).wcur = s.wcur := rfl
@[simp] theorem State.raise_pixin (k : ErrKind) (info : Nat) :
    (s.raise k info).pixin = s.pixin := rfl
@[simp] theorem State.raise_pal (k : ErrKind) (info : Nat) :
    (s.raise k info).pal = s.pal := rfl
@[simp] theorem State.raise_payload (k : ErrKind) (info : Nat) :
    (s.raise k info).payload = s.payload := rfl
@[simp] theorem State.raise_file (k : ErrKind) (info : Nat) :
    (s.raise k info).file = s.file := rfl
@[simp] theorem State.raise_outbuf (k : ErrKind) (info : Nat) :
    (s.raise k info).outbuf = s.outbuf := rfl
@[simp] theorem State.raise_sink (k : ErrKind) (info : Nat) :
    (s.raise k info).sink = s.sink := rfl
@[simp] theorem State.raise_pixelCount (k : ErrKind) (info : Nat) :
    (s.raise k info).pixelCount = s.pixelCount := rfl
@[simp] theorem State.raise_depth (k : ErrKind) (info : Nat) :
    (s.raise k info).depth = s.depth := rfl
@[simp] theorem State.raise_depthOk (k : ErrKind) (info : Nat) :
    (s.raise k info).depthOk = s.depthOk := rfl
@[simp] theorem State.raise_readFlags (k : ErrKind) (info : Nat) :
    (s.raise k info).readFlags = s.readFlags := rfl
@[simp] theorem State.raise_comp (k : ErrKind) (info : Nat) :
    (s.raise k info).comp = s.comp := rfl
@[simp] theorem State.raise_br (k : ErrKind) (info : Nat) :
    (s.raise k info).br = s.br := rfl
@[simp] theorem State.raise_bo (k : ErrKind) (info : Nat) :
    (s.raise k info).bo = s.bo := rfl

/-! ### `State.raiseDec` -/

@[simp] theorem State.raiseDec_cfg (k : ErrKind) (info : Nat) :
    (s.raiseDec k info).cfg = s.cfg := rfl
@[simp] theorem State.raiseDec_host (k : ErrKind) (info : Nat) :
    (s.raiseDec k info).host = s.host := rfl
@[simp] theorem State.raiseDec_freeCount (k : ErrKind) (info : Nat) :
    (s.raiseDec k info).freeCount = s.freeCount := rfl
@[simp] theorem State.raiseDec_status (k : ErrKind) (info : Nat) :
    (s.raiseDec k info).status = faultStatus k := rfl
@[simp] theorem State.raiseDec_errinfo (k : ErrKind) (info : Nat) :
    (s.raiseDec k info).errinfo = info := rfl
@[simp] theorem State.raiseDec_width (k : ErrKind) (info : Nat) :
    (s.raiseDec k info).width = s.width := rfl
@[simp] theorem State.raiseDec_height (k : ErrKind) (info : Nat) :
    (s.raiseDec k info).height = s.height := rfl
@[simp] theorem State.raiseDec_bitdepth (k : ErrKind) (info : Nat) :
    (s.raiseDec k info).bitdepth = s.bitdepth := rfl
@[simp] theorem State.raiseDec_flags (k : ErrKind) (info : Nat) :
    (s.raiseDec k info).flags = s.flags := rfl
@[simp] theorem State.raiseDec_palcount (k : ErrKind) (info : Nat) :
    (s.raiseDec k info).palcount = s.palcount := rfl
@[simp] theorem State.raiseDec_paloff (k : ErrKind) (info : Nat) :
    (s.raiseDec k info).paloff = s.paloff := rfl
@[simp] theorem State.raiseDec_paylen (k : ErrKind) (info : Nat) :
    (s.raiseDec k info).paylen = s.paylen := rfl
@[simp] theorem State.raiseDec_filelen (k : ErrKind) (info : Nat) :
    (s.raiseDec k info).filelen = s.filelen := rfl
@[simp] theorem State.raiseDec_cur (k : ErrKind) (info : Nat) :
    (s.raiseDec k info).cur = s.cur := rfl
@[simp] theorem State.raiseDec_pixemit (k : ErrKind) (info : Nat) :
    (s.raiseDec k info).pixemit = s.pixemit := rfl
@[simp] theorem State.raiseDec_lastpix (k : ErrKind) (info : Nat) :
    (s.raiseDec k info).lastpix = s.lastpix := rfl
@[simp] theorem State.raiseDec_lastv (k : ErrKind) (info : Nat) :
    (s.raiseDec k info).lastv = s.lastv := rfl
@[simp] theorem State.raiseDec_outcnt (k : ErrKind) (info : Nat) :
    (s.raiseDec k info).outcnt = s.outcnt := rfl
@[simp] theorem State.raiseDec_dstate (k : ErrKind) (info : Nat) :
    (s.raiseDec k info).dstate = .faulted := rfl
@[simp] theorem State.raiseDec_cnt (k : ErrKind) (info : Nat) :
    (s.raiseDec k info).cnt = s.cnt := rfl
@[simp] theorem State.raiseDec_wcur (k : ErrKind) (info : Nat) :
    (s.raiseDec k info).wcur = s.wcur := rfl
@[simp] theorem State.raiseDec_pixin (k : ErrKind) (info : Nat) :
    (s.raiseDec k info).pixin = s.pixin := rfl
@[simp] theorem State.raiseDec_pal (k : ErrKind) (info : Nat) :
    (s.raiseDec k info).pal = s.pal := rfl
@[simp] theorem State.raiseDec_payload (k : ErrKind) (info : Nat) :
    (s.raiseDec k info).payload = s.payload := rfl
@[simp] theorem State.raiseDec_file (k : ErrKind) (info : Nat) :
    (s.raiseDec k info).file = s.file := rfl
@[simp] theorem State.raiseDec_outbuf (k : ErrKind) (info : Nat) :
    (s.raiseDec k info).outbuf = s.outbuf := rfl
@[simp] theorem State.raiseDec_sink (k : ErrKind) (info : Nat) :
    (s.raiseDec k info).sink = s.sink := rfl
@[simp] theorem State.raiseDec_pixelCount (k : ErrKind) (info : Nat) :
    (s.raiseDec k info).pixelCount = s.pixelCount := rfl
@[simp] theorem State.raiseDec_depth (k : ErrKind) (info : Nat) :
    (s.raiseDec k info).depth = s.depth := rfl
@[simp] theorem State.raiseDec_depthOk (k : ErrKind) (info : Nat) :
    (s.raiseDec k info).depthOk = s.depthOk := rfl
@[simp] theorem State.raiseDec_readFlags (k : ErrKind) (info : Nat) :
    (s.raiseDec k info).readFlags = s.readFlags := rfl
@[simp] theorem State.raiseDec_comp (k : ErrKind) (info : Nat) :
    (s.raiseDec k info).comp = s.comp := rfl
@[simp] theorem State.raiseDec_br (k : ErrKind) (info : Nat) :
    (s.raiseDec k info).br = s.br := rfl
@[simp] theorem State.raiseDec_bo (k : ErrKind) (info : Nat) :
    (s.raiseDec k info).bo = s.bo := rfl

/-! ### `State.beginCommand` -/

@[simp] theorem State.beginCommand_cfg :
    (s.beginCommand).cfg = s.cfg := rfl
@[simp] theorem State.beginCommand_host :
    (s.beginCommand).host = s.host := rfl
@[simp] theorem State.beginCommand_freeCount :
    (s.beginCommand).freeCount = s.freeCount := rfl
@[simp] theorem State.beginCommand_status :
    (s.beginCommand).status = 0 := rfl
@[simp] theorem State.beginCommand_errinfo :
    (s.beginCommand).errinfo = 0 := rfl
@[simp] theorem State.beginCommand_width :
    (s.beginCommand).width = s.width := rfl
@[simp] theorem State.beginCommand_height :
    (s.beginCommand).height = s.height := rfl
@[simp] theorem State.beginCommand_bitdepth :
    (s.beginCommand).bitdepth = s.bitdepth := rfl
@[simp] theorem State.beginCommand_flags :
    (s.beginCommand).flags = s.flags := rfl
@[simp] theorem State.beginCommand_palcount :
    (s.beginCommand).palcount = s.palcount := rfl
@[simp] theorem State.beginCommand_paloff :
    (s.beginCommand).paloff = s.paloff := rfl
@[simp] theorem State.beginCommand_paylen :
    (s.beginCommand).paylen = s.paylen := rfl
@[simp] theorem State.beginCommand_filelen :
    (s.beginCommand).filelen = s.filelen := rfl
@[simp] theorem State.beginCommand_cur :
    (s.beginCommand).cur = s.cur := rfl
@[simp] theorem State.beginCommand_pixemit :
    (s.beginCommand).pixemit = s.pixemit := rfl
@[simp] theorem State.beginCommand_lastpix :
    (s.beginCommand).lastpix = s.lastpix := rfl
@[simp] theorem State.beginCommand_lastv :
    (s.beginCommand).lastv = s.lastv := rfl
@[simp] theorem State.beginCommand_outcnt :
    (s.beginCommand).outcnt = s.outcnt := rfl
@[simp] theorem State.beginCommand_dstate :
    (s.beginCommand).dstate = s.dstate := rfl
@[simp] theorem State.beginCommand_cnt :
    (s.beginCommand).cnt = s.cnt := rfl
@[simp] theorem State.beginCommand_wcur :
    (s.beginCommand).wcur = s.wcur := rfl
@[simp] theorem State.beginCommand_pixin :
    (s.beginCommand).pixin = s.pixin := rfl
@[simp] theorem State.beginCommand_pal :
    (s.beginCommand).pal = s.pal := rfl
@[simp] theorem State.beginCommand_payload :
    (s.beginCommand).payload = s.payload := rfl
@[simp] theorem State.beginCommand_file :
    (s.beginCommand).file = s.file := rfl
@[simp] theorem State.beginCommand_outbuf :
    (s.beginCommand).outbuf = s.outbuf := rfl
@[simp] theorem State.beginCommand_sink :
    (s.beginCommand).sink = s.sink := rfl
@[simp] theorem State.beginCommand_pixelCount :
    (s.beginCommand).pixelCount = s.pixelCount := rfl
@[simp] theorem State.beginCommand_depth :
    (s.beginCommand).depth = s.depth := rfl
@[simp] theorem State.beginCommand_depthOk :
    (s.beginCommand).depthOk = s.depthOk := rfl
@[simp] theorem State.beginCommand_readFlags :
    (s.beginCommand).readFlags = s.readFlags := rfl
@[simp] theorem State.beginCommand_comp :
    (s.beginCommand).comp = s.comp := rfl
@[simp] theorem State.beginCommand_br :
    (s.beginCommand).br = s.br := rfl
@[simp] theorem State.beginCommand_bo :
    (s.beginCommand).bo = s.bo := rfl

/-! ### `State.complete` -/

@[simp] theorem State.complete_cfg :
    (s.complete).cfg = s.cfg := rfl
@[simp] theorem State.complete_host :
    (s.complete).host = s.host := rfl
@[simp] theorem State.complete_freeCount :
    (s.complete).freeCount = s.freeCount := rfl
@[simp] theorem State.complete_status :
    (s.complete).status = s.status ||| 1 := rfl
@[simp] theorem State.complete_errinfo :
    (s.complete).errinfo = s.errinfo := rfl
@[simp] theorem State.complete_width :
    (s.complete).width = s.width := rfl
@[simp] theorem State.complete_height :
    (s.complete).height = s.height := rfl
@[simp] theorem State.complete_bitdepth :
    (s.complete).bitdepth = s.bitdepth := rfl
@[simp] theorem State.complete_flags :
    (s.complete).flags = s.flags := rfl
@[simp] theorem State.complete_palcount :
    (s.complete).palcount = s.palcount := rfl
@[simp] theorem State.complete_paloff :
    (s.complete).paloff = s.paloff := rfl
@[simp] theorem State.complete_paylen :
    (s.complete).paylen = s.paylen := rfl
@[simp] theorem State.complete_filelen :
    (s.complete).filelen = s.filelen := rfl
@[simp] theorem State.complete_cur :
    (s.complete).cur = s.cur := rfl
@[simp] theorem State.complete_pixemit :
    (s.complete).pixemit = s.pixemit := rfl
@[simp] theorem State.complete_lastpix :
    (s.complete).lastpix = s.lastpix := rfl
@[simp] theorem State.complete_lastv :
    (s.complete).lastv = s.lastv := rfl
@[simp] theorem State.complete_outcnt :
    (s.complete).outcnt = s.outcnt := rfl
@[simp] theorem State.complete_dstate :
    (s.complete).dstate = s.dstate := rfl
@[simp] theorem State.complete_cnt :
    (s.complete).cnt = s.cnt := rfl
@[simp] theorem State.complete_wcur :
    (s.complete).wcur = s.wcur := rfl
@[simp] theorem State.complete_pixin :
    (s.complete).pixin = s.pixin := rfl
@[simp] theorem State.complete_pal :
    (s.complete).pal = s.pal := rfl
@[simp] theorem State.complete_payload :
    (s.complete).payload = s.payload := rfl
@[simp] theorem State.complete_file :
    (s.complete).file = s.file := rfl
@[simp] theorem State.complete_outbuf :
    (s.complete).outbuf = s.outbuf := rfl
@[simp] theorem State.complete_sink :
    (s.complete).sink = s.sink := rfl
@[simp] theorem State.complete_pixelCount :
    (s.complete).pixelCount = s.pixelCount := rfl
@[simp] theorem State.complete_depth :
    (s.complete).depth = s.depth := rfl
@[simp] theorem State.complete_depthOk :
    (s.complete).depthOk = s.depthOk := rfl
@[simp] theorem State.complete_readFlags :
    (s.complete).readFlags = s.readFlags := rfl
@[simp] theorem State.complete_comp :
    (s.complete).comp = s.comp := rfl
@[simp] theorem State.complete_br :
    (s.complete).br = s.br := rfl
@[simp] theorem State.complete_bo :
    (s.complete).bo = s.bo := rfl

/-! ### `State.writeFlags` -/

@[simp] theorem State.writeFlags_cfg (v : BitVec 8) :
    (s.writeFlags v).cfg = s.cfg := rfl
@[simp] theorem State.writeFlags_host (v : BitVec 8) :
    (s.writeFlags v).host = s.host := rfl
@[simp] theorem State.writeFlags_freeCount (v : BitVec 8) :
    (s.writeFlags v).freeCount = s.freeCount := rfl
@[simp] theorem State.writeFlags_status (v : BitVec 8) :
    (s.writeFlags v).status = s.status := rfl
@[simp] theorem State.writeFlags_errinfo (v : BitVec 8) :
    (s.writeFlags v).errinfo = s.errinfo := rfl
@[simp] theorem State.writeFlags_width (v : BitVec 8) :
    (s.writeFlags v).width = s.width := rfl
@[simp] theorem State.writeFlags_height (v : BitVec 8) :
    (s.writeFlags v).height = s.height := rfl
@[simp] theorem State.writeFlags_bitdepth (v : BitVec 8) :
    (s.writeFlags v).bitdepth = s.bitdepth := rfl
@[simp] theorem State.writeFlags_flags (v : BitVec 8) :
    (s.writeFlags v).flags = v &&& 0x7F := rfl
@[simp] theorem State.writeFlags_palcount (v : BitVec 8) :
    (s.writeFlags v).palcount = s.palcount := rfl
@[simp] theorem State.writeFlags_paloff (v : BitVec 8) :
    (s.writeFlags v).paloff = s.paloff := rfl
@[simp] theorem State.writeFlags_paylen (v : BitVec 8) :
    (s.writeFlags v).paylen = s.paylen := rfl
@[simp] theorem State.writeFlags_filelen (v : BitVec 8) :
    (s.writeFlags v).filelen = s.filelen := rfl
@[simp] theorem State.writeFlags_cur (v : BitVec 8) :
    (s.writeFlags v).cur = s.cur := rfl
@[simp] theorem State.writeFlags_pixemit (v : BitVec 8) :
    (s.writeFlags v).pixemit = s.pixemit := rfl
@[simp] theorem State.writeFlags_lastpix (v : BitVec 8) :
    (s.writeFlags v).lastpix = s.lastpix := rfl
@[simp] theorem State.writeFlags_lastv (v : BitVec 8) :
    (s.writeFlags v).lastv = s.lastv := rfl
@[simp] theorem State.writeFlags_outcnt (v : BitVec 8) :
    (s.writeFlags v).outcnt = s.outcnt := rfl
@[simp] theorem State.writeFlags_dstate (v : BitVec 8) :
    (s.writeFlags v).dstate = s.dstate := rfl
@[simp] theorem State.writeFlags_cnt (v : BitVec 8) :
    (s.writeFlags v).cnt = s.cnt := rfl
@[simp] theorem State.writeFlags_wcur (v : BitVec 8) :
    (s.writeFlags v).wcur = s.wcur := rfl
@[simp] theorem State.writeFlags_pixin (v : BitVec 8) :
    (s.writeFlags v).pixin = s.pixin := rfl
@[simp] theorem State.writeFlags_pal (v : BitVec 8) :
    (s.writeFlags v).pal = s.pal := rfl
@[simp] theorem State.writeFlags_payload (v : BitVec 8) :
    (s.writeFlags v).payload = s.payload := rfl
@[simp] theorem State.writeFlags_file (v : BitVec 8) :
    (s.writeFlags v).file = s.file := rfl
@[simp] theorem State.writeFlags_outbuf (v : BitVec 8) :
    (s.writeFlags v).outbuf = s.outbuf := rfl
@[simp] theorem State.writeFlags_sink (v : BitVec 8) :
    (s.writeFlags v).sink = s.sink := rfl
@[simp] theorem State.writeFlags_pixelCount (v : BitVec 8) :
    (s.writeFlags v).pixelCount = s.pixelCount := rfl
@[simp] theorem State.writeFlags_depth (v : BitVec 8) :
    (s.writeFlags v).depth = s.depth := rfl
@[simp] theorem State.writeFlags_depthOk (v : BitVec 8) :
    (s.writeFlags v).depthOk = s.depthOk := rfl

/-! ### `State.flush` -/

@[simp] theorem State.flush_cfg :
    (s.flush).cfg = s.cfg := rfl
@[simp] theorem State.flush_host :
    (s.flush).host = s.host := rfl
@[simp] theorem State.flush_freeCount :
    (s.flush).freeCount = s.freeCount := rfl
@[simp] theorem State.flush_status :
    (s.flush).status = s.status := rfl
@[simp] theorem State.flush_errinfo :
    (s.flush).errinfo = s.errinfo := rfl
@[simp] theorem State.flush_width :
    (s.flush).width = s.width := rfl
@[simp] theorem State.flush_height :
    (s.flush).height = s.height := rfl
@[simp] theorem State.flush_bitdepth :
    (s.flush).bitdepth = s.bitdepth := rfl
@[simp] theorem State.flush_flags :
    (s.flush).flags = s.flags := rfl
@[simp] theorem State.flush_palcount :
    (s.flush).palcount = s.palcount := rfl
@[simp] theorem State.flush_paloff :
    (s.flush).paloff = s.paloff := rfl
@[simp] theorem State.flush_paylen :
    (s.flush).paylen = s.paylen := rfl
@[simp] theorem State.flush_filelen :
    (s.flush).filelen = s.filelen := rfl
@[simp] theorem State.flush_cur :
    (s.flush).cur = s.cur := rfl
@[simp] theorem State.flush_pixemit :
    (s.flush).pixemit = s.pixemit := rfl
@[simp] theorem State.flush_lastpix :
    (s.flush).lastpix = s.lastpix := rfl
@[simp] theorem State.flush_lastv :
    (s.flush).lastv = s.lastv := rfl
@[simp] theorem State.flush_outcnt :
    (s.flush).outcnt = 0 := rfl
@[simp] theorem State.flush_dstate :
    (s.flush).dstate = s.dstate := rfl
@[simp] theorem State.flush_cnt :
    (s.flush).cnt = s.cnt := rfl
@[simp] theorem State.flush_wcur :
    (s.flush).wcur = s.wcur := rfl
@[simp] theorem State.flush_pixin :
    (s.flush).pixin = s.pixin := rfl
@[simp] theorem State.flush_pal :
    (s.flush).pal = s.pal := rfl
@[simp] theorem State.flush_payload :
    (s.flush).payload = s.payload := rfl
@[simp] theorem State.flush_file :
    (s.flush).file = s.file := rfl
@[simp] theorem State.flush_outbuf :
    (s.flush).outbuf = s.outbuf := rfl
@[simp] theorem State.flush_sink :
    (s.flush).sink = s.sink ++ [s.outbuf.readList 0 s.outcnt] := rfl
@[simp] theorem State.flush_pixelCount :
    (s.flush).pixelCount = s.pixelCount := rfl
@[simp] theorem State.flush_depth :
    (s.flush).depth = s.depth := rfl
@[simp] theorem State.flush_depthOk :
    (s.flush).depthOk = s.depthOk := rfl
@[simp] theorem State.flush_readFlags :
    (s.flush).readFlags = s.readFlags := rfl
@[simp] theorem State.flush_comp :
    (s.flush).comp = s.comp := rfl
@[simp] theorem State.flush_br :
    (s.flush).br = s.br := rfl
@[simp] theorem State.flush_bo :
    (s.flush).bo = s.bo := rfl

/-! ### `State.advance` -/

@[simp] theorem State.advance_cfg (n : Nat) :
    (s.advance n).cfg = s.cfg := rfl
@[simp] theorem State.advance_host (n : Nat) :
    (s.advance n).host = s.host := rfl
@[simp] theorem State.advance_freeCount (n : Nat) :
    (s.advance n).freeCount = s.freeCount := rfl
@[simp] theorem State.advance_status (n : Nat) :
    (s.advance n).status = s.status := rfl
@[simp] theorem State.advance_errinfo (n : Nat) :
    (s.advance n).errinfo = s.errinfo := rfl
@[simp] theorem State.advance_width (n : Nat) :
    (s.advance n).width = s.width := rfl
@[simp] theorem State.advance_height (n : Nat) :
    (s.advance n).height = s.height := rfl
@[simp] theorem State.advance_bitdepth (n : Nat) :
    (s.advance n).bitdepth = s.bitdepth := rfl
@[simp] theorem State.advance_flags (n : Nat) :
    (s.advance n).flags = s.flags := rfl
@[simp] theorem State.advance_palcount (n : Nat) :
    (s.advance n).palcount = s.palcount := rfl
@[simp] theorem State.advance_paloff (n : Nat) :
    (s.advance n).paloff = s.paloff := rfl
@[simp] theorem State.advance_paylen (n : Nat) :
    (s.advance n).paylen = s.paylen := rfl
@[simp] theorem State.advance_filelen (n : Nat) :
    (s.advance n).filelen = s.filelen := rfl
@[simp] theorem State.advance_cur (n : Nat) :
    (s.advance n).cur = s.cur + n := rfl
@[simp] theorem State.advance_pixemit (n : Nat) :
    (s.advance n).pixemit = s.pixemit := rfl
@[simp] theorem State.advance_lastpix (n : Nat) :
    (s.advance n).lastpix = s.lastpix := rfl
@[simp] theorem State.advance_lastv (n : Nat) :
    (s.advance n).lastv = s.lastv := rfl
@[simp] theorem State.advance_outcnt (n : Nat) :
    (s.advance n).outcnt = s.outcnt := rfl
@[simp] theorem State.advance_dstate (n : Nat) :
    (s.advance n).dstate = s.dstate := rfl
@[simp] theorem State.advance_cnt (n : Nat) :
    (s.advance n).cnt = s.cnt := rfl
@[simp] theorem State.advance_wcur (n : Nat) :
    (s.advance n).wcur = s.wcur := rfl
@[simp] theorem State.advance_pixin (n : Nat) :
    (s.advance n).pixin = s.pixin := rfl
@[simp] theorem State.advance_pal (n : Nat) :
    (s.advance n).pal = s.pal := rfl
@[simp] theorem State.advance_payload (n : Nat) :
    (s.advance n).payload = s.payload := rfl
@[simp] theorem State.advance_file (n : Nat) :
    (s.advance n).file = s.file := rfl
@[simp] theorem State.advance_outbuf (n : Nat) :
    (s.advance n).outbuf = s.outbuf := rfl
@[simp] theorem State.advance_sink (n : Nat) :
    (s.advance n).sink = s.sink := rfl
@[simp] theorem State.advance_pixelCount (n : Nat) :
    (s.advance n).pixelCount = s.pixelCount := rfl
@[simp] theorem State.advance_depth (n : Nat) :
    (s.advance n).depth = s.depth := rfl
@[simp] theorem State.advance_depthOk (n : Nat) :
    (s.advance n).depthOk = s.depthOk := rfl
@[simp] theorem State.advance_readFlags (n : Nat) :
    (s.advance n).readFlags = s.readFlags := rfl
@[simp] theorem State.advance_comp (n : Nat) :
    (s.advance n).comp = s.comp := rfl
@[simp] theorem State.advance_br (n : Nat) :
    (s.advance n).br = s.br := rfl
@[simp] theorem State.advance_bo (n : Nat) :
    (s.advance n).bo = s.bo := rfl

/-! ### `State.countDown` -/

@[simp] theorem State.countDown_cfg :
    (s.countDown).cfg = s.cfg := rfl
@[simp] theorem State.countDown_host :
    (s.countDown).host = s.host := rfl
@[simp] theorem State.countDown_freeCount :
    (s.countDown).freeCount = s.freeCount := rfl
@[simp] theorem State.countDown_status :
    (s.countDown).status = s.status := rfl
@[simp] theorem State.countDown_errinfo :
    (s.countDown).errinfo = s.errinfo := rfl
@[simp] theorem State.countDown_width :
    (s.countDown).width = s.width := rfl
@[simp] theorem State.countDown_height :
    (s.countDown).height = s.height := rfl
@[simp] theorem State.countDown_bitdepth :
    (s.countDown).bitdepth = s.bitdepth := rfl
@[simp] theorem State.countDown_flags :
    (s.countDown).flags = s.flags := rfl
@[simp] theorem State.countDown_palcount :
    (s.countDown).palcount = s.palcount := rfl
@[simp] theorem State.countDown_paloff :
    (s.countDown).paloff = s.paloff := rfl
@[simp] theorem State.countDown_paylen :
    (s.countDown).paylen = s.paylen := rfl
@[simp] theorem State.countDown_filelen :
    (s.countDown).filelen = s.filelen := rfl
@[simp] theorem State.countDown_cur :
    (s.countDown).cur = s.cur := rfl
@[simp] theorem State.countDown_pixemit :
    (s.countDown).pixemit = s.pixemit := rfl
@[simp] theorem State.countDown_lastpix :
    (s.countDown).lastpix = s.lastpix := rfl
@[simp] theorem State.countDown_lastv :
    (s.countDown).lastv = s.lastv := rfl
@[simp] theorem State.countDown_outcnt :
    (s.countDown).outcnt = s.outcnt := rfl
@[simp] theorem State.countDown_dstate :
    (s.countDown).dstate = if s.cnt - 1 = 0 then .readControl else s.dstate := rfl
@[simp] theorem State.countDown_cnt :
    (s.countDown).cnt = s.cnt - 1 := rfl
@[simp] theorem State.countDown_wcur :
    (s.countDown).wcur = s.wcur := rfl
@[simp] theorem State.countDown_pixin :
    (s.countDown).pixin = s.pixin := rfl
@[simp] theorem State.countDown_pal :
    (s.countDown).pal = s.pal := rfl
@[simp] theorem State.countDown_payload :
    (s.countDown).payload = s.payload := rfl
@[simp] theorem State.countDown_file :
    (s.countDown).file = s.file := rfl
@[simp] theorem State.countDown_outbuf :
    (s.countDown).outbuf = s.outbuf := rfl
@[simp] theorem State.countDown_sink :
    (s.countDown).sink = s.sink := rfl
@[simp] theorem State.countDown_pixelCount :
    (s.countDown).pixelCount = s.pixelCount := rfl
@[simp] theorem State.countDown_depth :
    (s.countDown).depth = s.depth := rfl
@[simp] theorem State.countDown_depthOk :
    (s.countDown).depthOk = s.depthOk := rfl
@[simp] theorem State.countDown_readFlags :
    (s.countDown).readFlags = s.readFlags := rfl
@[simp] theorem State.countDown_comp :
    (s.countDown).comp = s.comp := rfl
@[simp] theorem State.countDown_br :
    (s.countDown).br = s.br := rfl
@[simp] theorem State.countDown_bo :
    (s.countDown).bo = s.bo := rfl

/-! ### `State.decStart` -/

@[simp] theorem State.decStart_cfg :
    (s.decStart).cfg = s.cfg := rfl
@[simp] theorem State.decStart_host :
    (s.decStart).host = s.host := rfl
@[simp] theorem State.decStart_freeCount :
    (s.decStart).freeCount = s.freeCount + 1 := rfl
@[simp] theorem State.decStart_status :
    (s.decStart).status = s.status := rfl
@[simp] theorem State.decStart_errinfo :
    (s.decStart).errinfo = s.errinfo := rfl
@[simp] theorem State.decStart_width :
    (s.decStart).width = s.width := rfl
@[simp] theorem State.decStart_height :
    (s.decStart).height = s.height := rfl
@[simp] theorem State.decStart_bitdepth :
    (s.decStart).bitdepth = s.bitdepth := rfl
@[simp] theorem State.decStart_flags :
    (s.decStart).flags = s.flags := rfl
@[simp] theorem State.decStart_palcount :
    (s.decStart).palcount = s.palcount := rfl
@[simp] theorem State.decStart_paloff :
    (s.decStart).paloff = s.paloff := rfl
@[simp] theorem State.decStart_paylen :
    (s.decStart).paylen = s.paylen := rfl
@[simp] theorem State.decStart_filelen :
    (s.decStart).filelen = s.filelen := rfl
@[simp] theorem State.decStart_cur :
    (s.decStart).cur = 0 := rfl
@[simp] theorem State.decStart_pixemit :
    (s.decStart).pixemit = 0 := rfl
@[simp] theorem State.decStart_lastpix :
    (s.decStart).lastpix = Config.freeLastpix s.freeCount := rfl
@[simp] theorem State.decStart_lastv :
    (s.decStart).lastv = false := rfl
@[simp] theorem State.decStart_outcnt :
    (s.decStart).outcnt = 0 := rfl
@[simp] theorem State.decStart_dstate :
    (s.decStart).dstate = if s.comp then .readControl else .raw := rfl
@[simp] theorem State.decStart_cnt :
    (s.decStart).cnt = 0 := rfl
@[simp] theorem State.decStart_wcur :
    (s.decStart).wcur = s.wcur := rfl
@[simp] theorem State.decStart_pixin :
    (s.decStart).pixin = s.pixin := rfl
@[simp] theorem State.decStart_pal :
    (s.decStart).pal = s.pal := rfl
@[simp] theorem State.decStart_payload :
    (s.decStart).payload = s.payload := rfl
@[simp] theorem State.decStart_file :
    (s.decStart).file = s.file := rfl
@[simp] theorem State.decStart_outbuf :
    (s.decStart).outbuf = s.outbuf := rfl
@[simp] theorem State.decStart_sink :
    (s.decStart).sink = s.sink := rfl
@[simp] theorem State.decStart_pixelCount :
    (s.decStart).pixelCount = s.pixelCount := rfl
@[simp] theorem State.decStart_depth :
    (s.decStart).depth = s.depth := rfl
@[simp] theorem State.decStart_depthOk :
    (s.decStart).depthOk = s.depthOk := rfl
@[simp] theorem State.decStart_readFlags :
    (s.decStart).readFlags = s.readFlags := rfl
@[simp] theorem State.decStart_comp :
    (s.decStart).comp = s.comp := rfl
@[simp] theorem State.decStart_br :
    (s.decStart).br = s.br := rfl
@[simp] theorem State.decStart_bo :
    (s.decStart).bo = s.bo := rfl

/-! ### `State.emit` -/

/-- `Emit` as one update. -/
theorem State.emit_eq (v : Colour) : s.emit v = { s with
    outbuf := s.outbuf.write s.outcnt v
    outcnt := if s.outcnt + 1 = s.cfg.batch then 0 else s.outcnt + 1
    pixemit := s.pixemit + 1
    sink := if s.outcnt + 1 = s.cfg.batch then
      s.sink ++ [(s.outbuf.write s.outcnt v).readList 0 (s.outcnt + 1)] else s.sink } := by
  simp only [State.emit]; split <;> rfl

@[simp] theorem State.emit_cfg (v : Colour) :
    (s.emit v).cfg = s.cfg := by rw [State.emit_eq]
@[simp] theorem State.emit_host (v : Colour) :
    (s.emit v).host = s.host := by rw [State.emit_eq]
@[simp] theorem State.emit_freeCount (v : Colour) :
    (s.emit v).freeCount = s.freeCount := by rw [State.emit_eq]
@[simp] theorem State.emit_status (v : Colour) :
    (s.emit v).status = s.status := by rw [State.emit_eq]
@[simp] theorem State.emit_errinfo (v : Colour) :
    (s.emit v).errinfo = s.errinfo := by rw [State.emit_eq]
@[simp] theorem State.emit_width (v : Colour) :
    (s.emit v).width = s.width := by rw [State.emit_eq]
@[simp] theorem State.emit_height (v : Colour) :
    (s.emit v).height = s.height := by rw [State.emit_eq]
@[simp] theorem State.emit_bitdepth (v : Colour) :
    (s.emit v).bitdepth = s.bitdepth := by rw [State.emit_eq]
@[simp] theorem State.emit_flags (v : Colour) :
    (s.emit v).flags = s.flags := by rw [State.emit_eq]
@[simp] theorem State.emit_palcount (v : Colour) :
    (s.emit v).palcount = s.palcount := by rw [State.emit_eq]
@[simp] theorem State.emit_paloff (v : Colour) :
    (s.emit v).paloff = s.paloff := by rw [State.emit_eq]
@[simp] theorem State.emit_paylen (v : Colour) :
    (s.emit v).paylen = s.paylen := by rw [State.emit_eq]
@[simp] theorem State.emit_filelen (v : Colour) :
    (s.emit v).filelen = s.filelen := by rw [State.emit_eq]
@[simp] theorem State.emit_cur (v : Colour) :
    (s.emit v).cur = s.cur := by rw [State.emit_eq]
@[simp] theorem State.emit_pixemit (v : Colour) :
    (s.emit v).pixemit = s.pixemit + 1 := by rw [State.emit_eq]
@[simp] theorem State.emit_lastpix (v : Colour) :
    (s.emit v).lastpix = s.lastpix := by rw [State.emit_eq]
@[simp] theorem State.emit_lastv (v : Colour) :
    (s.emit v).lastv = s.lastv := by rw [State.emit_eq]
@[simp] theorem State.emit_outcnt (v : Colour) :
    (s.emit v).outcnt = if s.outcnt + 1 = s.cfg.batch then 0 else s.outcnt + 1 := by rw [State.emit_eq]
@[simp] theorem State.emit_dstate (v : Colour) :
    (s.emit v).dstate = s.dstate := by rw [State.emit_eq]
@[simp] theorem State.emit_cnt (v : Colour) :
    (s.emit v).cnt = s.cnt := by rw [State.emit_eq]
@[simp] theorem State.emit_wcur (v : Colour) :
    (s.emit v).wcur = s.wcur := by rw [State.emit_eq]
@[simp] theorem State.emit_pixin (v : Colour) :
    (s.emit v).pixin = s.pixin := by rw [State.emit_eq]
@[simp] theorem State.emit_pal (v : Colour) :
    (s.emit v).pal = s.pal := by rw [State.emit_eq]
@[simp] theorem State.emit_payload (v : Colour) :
    (s.emit v).payload = s.payload := by rw [State.emit_eq]
@[simp] theorem State.emit_file (v : Colour) :
    (s.emit v).file = s.file := by rw [State.emit_eq]
@[simp] theorem State.emit_outbuf (v : Colour) :
    (s.emit v).outbuf = s.outbuf.write s.outcnt v := by rw [State.emit_eq]
@[simp] theorem State.emit_sink (v : Colour) :
    (s.emit v).sink = if s.outcnt + 1 = s.cfg.batch then
      s.sink ++ [(s.outbuf.write s.outcnt v).readList 0 (s.outcnt + 1)] else s.sink := by rw [State.emit_eq]
@[simp] theorem State.emit_pixelCount (v : Colour) :
    (s.emit v).pixelCount = s.pixelCount := by rw [State.emit_eq]; rfl
@[simp] theorem State.emit_depth (v : Colour) :
    (s.emit v).depth = s.depth := by rw [State.emit_eq]; rfl
@[simp] theorem State.emit_depthOk (v : Colour) :
    (s.emit v).depthOk = s.depthOk := by rw [State.emit_eq]; rfl
@[simp] theorem State.emit_readFlags (v : Colour) :
    (s.emit v).readFlags = s.readFlags := by rw [State.emit_eq]; rfl
@[simp] theorem State.emit_comp (v : Colour) :
    (s.emit v).comp = s.comp := by rw [State.emit_eq]; rfl
@[simp] theorem State.emit_br (v : Colour) :
    (s.emit v).br = s.br := by rw [State.emit_eq]; rfl
@[simp] theorem State.emit_bo (v : Colour) :
    (s.emit v).bo = s.bo := by rw [State.emit_eq]; rfl

end Sys2Proof.Machine
end

