-- ==== Sys2Proof/Laws/Memory.lean ====
section
/-!
SUPPORT. The laws of the memories: what a read gives after a write, what a write leaves alone, that every write keeps
the canonical form and the bounds (spec 20_memory.md R63).
-/

namespace Sys2Proof.Machine

variable {w : Nat}

@[simp] theorem Mem.read_nil (a : Nat) : Mem.read ([] : Mem w) a = unlisted w := rfl

theorem Mem.read_cons (b : Nat) (u : BitVec w) (t : Mem w) (a : Nat) :
    Mem.read ((b, u) :: t) a = if a < b then unlisted w else if a = b then u else t.read a := rfl

/-- Dropping the entries at or below `a` changes no read above `a`. -/
theorem Mem.read_dropWhile_gt {a x : Nat} (h : a < x) :
    ∀ t : Mem w, Mem.read (t.dropWhile fun e => decide (e.1 ≤ a)) x = t.read x
  | [] => rfl
  | (b, u) :: t => by
    by_cases hb : b ≤ a
    · have h1 : ¬ x < b := by omega
      have h2 : x ≠ b := by omega
      simp [hb, Mem.read_dropWhile_gt h t, Mem.read_cons, h1, h2]
    · simp [hb]

/-- After dropping the entries at or below `a`, a read at or below `a` finds nothing. -/
theorem Mem.read_dropWhile_le {a x : Nat} (h : x ≤ a) :
    ∀ t : Mem w, Mem.read (t.dropWhile fun e => decide (e.1 ≤ a)) x = unlisted w
  | [] => rfl
  | (b, u) :: t => by
    by_cases hb : b ≤ a
    · simp [hb, Mem.read_dropWhile_le h t]
    · have h1 : x < b := by omega
      simp [hb, Mem.read_cons, h1]

/-- A read of the element just written gives the value written. -/
@[simp] theorem Mem.read_write_same (a : Nat) (v : BitVec w) : ∀ m : Mem w, (m.write a v).read a = v
  | [] => by
    by_cases hv : v = unlisted w <;> simp [Mem.write, hv, Mem.read_cons]
  | (b, u) :: t => by
    simp only [Mem.write]
    split_ifs with h1 h2 h3 h4
    · simp [Mem.read_cons, h1, h2]
    · simp [Mem.read_cons]
    · rw [Mem.read_dropWhile_le (le_refl a), h4]
    · simp [Mem.read_cons]
    · simp [Mem.read_cons, h1, h3, Mem.read_write_same a v t]

/-- A write leaves every other element alone. -/
@[simp] theorem Mem.read_write_ne {a x : Nat} (h : x ≠ a) (v : BitVec w) :
    ∀ m : Mem w, (m.write a v).read x = m.read x
  | [] => by
    by_cases hv : v = unlisted w <;> simp [Mem.write, hv, Mem.read_cons, h]
  | (b, u) :: t => by
    simp only [Mem.write]
    split_ifs with h1 h2 h3 h4
    · rfl
    · by_cases hx : x < a
      · have h3 : x < b := by omega
        simp [Mem.read_cons, hx, h3]
      · rw [Mem.read_cons a v, if_neg hx, if_neg h]
    · subst h3
      rcases Nat.lt_or_gt_of_ne h with hx | hx
      · rw [Mem.read_dropWhile_le (Nat.le_of_lt hx)]; simp [Mem.read_cons, hx]
      · have h5 : ¬ x < a := by omega
        rw [Mem.read_dropWhile_gt hx]; simp [Mem.read_cons, h, h5]
    · subst h3
      simp only [Mem.read_cons, h, if_false]
    · simp only [Mem.read_cons, Mem.read_write_ne h v t]

theorem Mem.read_write (a x : Nat) (v : BitVec w) (m : Mem w) :
    (m.write a v).read x = if x = a then v else m.read x := by
  split_ifs with h
  · subst h; simp
  · simp [h]

/-- What a read gives after consecutive elements are written. -/
theorem Mem.read_writeList (x : Nat) : ∀ (vs : List (BitVec w)) (m : Mem w) (a : Nat),
    (m.writeList a vs).read x = if a ≤ x then vs.getD (x - a) (m.read x) else m.read x
  | [], m, a => by simp [Mem.writeList]
  | v :: vs, m, a => by
    rw [Mem.writeList, Mem.read_writeList x vs, Mem.read_write]
    by_cases h1 : a + 1 ≤ x
    · have h2 : a ≤ x := by omega
      have h3 : x ≠ a := by omega
      obtain ⟨k, rfl⟩ : ∃ k, x = a + 1 + k := ⟨x - (a + 1), by omega⟩
      have h4 : a + 1 + k - a = k + 1 := by omega
      have h5 : a + 1 + k - (a + 1) = k := by omega
      simp [h4, h2, h3]
    · by_cases h2 : x = a
      · subst h2; simp
      · have h3 : ¬ a ≤ x := by omega
        simp [h1, h2, h3]

/-- The bytes just written read back (R63). -/
theorem Mem.read_writeList_mem {vs : List (BitVec w)} (m : Mem w) (a : Nat) {i : Nat} (h : i < vs.length) :
    (m.writeList a vs).read (a + i) = vs[i] := by
  rw [Mem.read_writeList]; simp [h]

/-- Every element outside those written reads as before (R63). -/
theorem Mem.read_writeList_out {vs : List (BitVec w)} (m : Mem w) {a x : Nat} (h : x < a ∨ a + vs.length ≤ x) :
    (m.writeList a vs).read x = m.read x := by
  rw [Mem.read_writeList]
  split_ifs with h1
  · rw [List.getD_eq_default]; omega
  · rfl

@[simp] theorem Mem.readList_length (m : Mem w) (a n : Nat) : (m.readList a n).length = n := by
  simp [Mem.readList]

@[simp] theorem Mem.readList_getElem (m : Mem w) (a n : Nat) {i : Nat} (h : i < (m.readList a n).length) :
    (m.readList a n)[i] = m.read (a + i) := by
  simp [Mem.readList]

@[simp] theorem Mem.readList_zero (m : Mem w) (a : Nat) : m.readList a 0 = [] := rfl

theorem Mem.readList_succ (m : Mem w) (a n : Nat) :
    m.readList a (n + 1) = m.readList a n ++ [m.read (a + n)] := by
  simp [Mem.readList, List.range_succ]

theorem Mem.readList_add (m : Mem w) (a n k : Nat) :
    m.readList a (n + k) = m.readList a n ++ m.readList (a + n) k := by
  simp only [Mem.readList, List.range_add, List.map_append, List.map_map]
  congr 1
  exact List.map_congr_left fun i _ => by simp [Nat.add_assoc]

/-- Reading back what was written gives it whole (R63). -/
theorem Mem.readList_writeList (m : Mem w) (a : Nat) (vs : List (BitVec w)) :
    (m.writeList a vs).readList a vs.length = vs := by
  apply List.ext_getElem
  · simp
  · intro i h1 h2
    rw [Mem.readList_getElem, Mem.read_writeList_mem m a h2]

/-- Two memories that read alike on a range give the same list there. -/
theorem Mem.readList_congr {m m' : Mem w} {a n : Nat} (h : ∀ i, i < n → m.read (a + i) = m'.read (a + i)) :
    m.readList a n = m'.readList a n :=
  List.map_congr_left fun i hi => h i (List.mem_range.1 hi)

/-- A write at or above a range leaves the range alone. -/
theorem Mem.readList_write_ge (m : Mem w) {a n x : Nat} (h : a + n ≤ x) (v : BitVec w) :
    (m.write x v).readList a n = m.readList a n :=
  Mem.readList_congr fun i hi => Mem.read_write_ne (by omega) v m

/-- Writing the element after a range extends it by that element. -/
theorem Mem.readList_write_snoc (m : Mem w) (a n : Nat) (v : BitVec w) :
    (m.write (a + n) v).readList a (n + 1) = m.readList a n ++ [v] := by
  rw [Mem.readList_succ, Mem.readList_write_ge m (le_refl _), Mem.read_write_same]

/-! ### The canonical form and the bounds -/

theorem Mem.wf_nil : Mem.wf ([] : Mem w) := ⟨List.Pairwise.nil, by simp⟩

/-- An entry of a memory after a write is an old one or the one written. -/
theorem Mem.mem_write {a : Nat} {v : BitVec w} {e : Nat × BitVec w} :
    ∀ {m : Mem w}, e ∈ m.write a v → e = (a, v) ∧ v ≠ unlisted w ∨ e ∈ m
  | [], h => by
    by_cases hv : v = unlisted w <;> simp_all [Mem.write]
  | (b, u) :: t, h => by
    simp only [Mem.write] at h
    split_ifs at h with h1 h2 h3 h4
    · exact .inr h
    · rcases List.mem_cons.1 h with rfl | h
      · exact .inl ⟨rfl, h2⟩
      · exact .inr h
    · exact .inr (List.mem_cons_of_mem _ ((List.dropWhile_sublist _).mem h))
    · rcases List.mem_cons.1 h with rfl | h
      · exact .inl ⟨rfl, h4⟩
      · exact .inr (List.mem_cons_of_mem _ h)
    · rcases List.mem_cons.1 h with rfl | h
      · exact .inr List.mem_cons_self
      · rcases Mem.mem_write h with h | h
        · exact .inl h
        · exact .inr (List.mem_cons_of_mem _ h)

/-- A write keeps the addresses strictly rising. -/
theorem Mem.pairwise_write (a : Nat) (v : BitVec w) : ∀ {m : Mem w},
    m.Pairwise (fun x y => x.1 < y.1) → (m.write a v).Pairwise (fun x y => x.1 < y.1)
  | [], _ => by by_cases hv : v = unlisted w <;> simp [Mem.write, hv]
  | (b, u) :: t, h => by
    have ht := List.pairwise_cons.1 h
    simp only [Mem.write]
    split_ifs with h1 h2 h3 h4
    · exact h
    · refine List.pairwise_cons.2 ⟨fun e he => ?_, h⟩
      rcases List.mem_cons.1 he with rfl | he
      · exact h1
      · exact lt_trans h1 (ht.1 e he)
    · exact ht.2.sublist (List.dropWhile_sublist _)
    · exact List.pairwise_cons.2 ⟨fun e he => h3 ▸ ht.1 e he, ht.2⟩
    · refine List.pairwise_cons.2 ⟨fun e he => ?_, Mem.pairwise_write a v ht.2⟩
      rcases Mem.mem_write he with ⟨rfl, _⟩ | he
      · show b < a; omega
      · exact ht.1 e he

/-- A write keeps the canonical form. -/
theorem Mem.wf_write {m : Mem w} (h : m.wf) (a : Nat) (v : BitVec w) : (m.write a v).wf :=
  ⟨Mem.pairwise_write a v h.1, fun e he => by
    rcases Mem.mem_write he with ⟨rfl, hv⟩ | he
    · exact hv
    · exact h.2 e he⟩

/-- Writing consecutive elements keeps the canonical form. -/
theorem Mem.wf_writeList : ∀ (vs : List (BitVec w)) {m : Mem w} (_ : m.wf) (a : Nat), (m.writeList a vs).wf
  | [], _, h, _ => h
  | v :: vs, _, h, a => Mem.wf_writeList vs (Mem.wf_write h a v) (a + 1)

theorem exceeds_mono {n k : Nat} (hk : k ≤ n) : ∀ {cap : Option Nat}, exceeds n cap = false → exceeds k cap = false
  | none, _ => rfl
  | some c, h => by simp [exceeds] at *; omega

/-- A write below a capacity keeps the memory below it. -/
theorem Mem.below_write {m : Mem w} {cap : Option Nat} (h : m.below cap) {a : Nat} (ha : exceeds (a + 1) cap = false)
    (v : BitVec w) : (m.write a v).below cap := fun e he => by
  rcases Mem.mem_write he with ⟨rfl, _⟩ | he
  · exact ha
  · exact h e he

/-- Consecutive writes below a capacity keep the memory below it. -/
theorem Mem.below_writeList {cap : Option Nat} : ∀ (vs : List (BitVec w)) {m : Mem w} (_ : m.below cap) {a : Nat}
    (_ : exceeds (a + vs.length) cap = false), (m.writeList a vs).below cap
  | [], _, h, _, _ => h
  | v :: vs, m, h, a, ha => by
    have h1 : exceeds (a + 1 + vs.length) cap = false := by
      rw [List.length_cons] at ha; rwa [Nat.add_right_comm, Nat.add_assoc]
    exact Mem.below_writeList vs (Mem.below_write h (exceeds_mono (by omega) h1) v) h1

end Sys2Proof.Machine
end

