-- ==== Sys2Proof/Laws/Bits.lean ====
section
/-!
SUPPORT. The laws of bit strings, of fields and of the bit writer (spec 20_memory.md R61, R62; 42_assembler.md R161,
R162).
-/

namespace Sys2Proof

@[simp] theorem fieldBits_length (n v : Nat) : (fieldBits n v).length = n := by simp [fieldBits]

@[simp] theorem fieldBits_zero (v : Nat) : fieldBits 0 v = [] := rfl

/-- The most significant bit of a field comes first (R62). -/
theorem fieldBits_getElem {n v i : Nat} (h : i < (fieldBits n v).length) :
    (fieldBits n v)[i] = v.testBit (n - 1 - i) := by simp [fieldBits]

theorem fieldBits_succ (n v : Nat) : fieldBits (n + 1) v = v.testBit n :: fieldBits n v := by
  apply List.ext_getElem
  · simp
  · intro i h1 h2
    cases i with
    | zero => simp [fieldBits]
    | succ i => simp [fieldBits, Nat.sub_sub, Nat.add_comm]

theorem foldl_bits (bs : List Bool) : ∀ v : Nat,
    bs.foldl (fun v b => 2 * v + b.toNat) v = v * 2 ^ bs.length + bitsVal bs := by
  induction bs with
  | nil => intro v; simp [bitsVal]
  | cons b bs ih =>
    intro v
    rw [bitsVal, List.foldl_cons, List.foldl_cons, ih, ih (2 * 0 + b.toNat), List.length_cons, pow_succ]
    ring

@[simp] theorem bitsVal_nil : bitsVal [] = 0 := rfl

theorem bitsVal_cons (b : Bool) (bs : List Bool) : bitsVal (b :: bs) = b.toNat * 2 ^ bs.length + bitsVal bs := by
  rw [bitsVal, List.foldl_cons, foldl_bits]; simp

/-- A mixed-width view of adjacent fields (R64). -/
theorem bitsVal_append (xs ys : List Bool) : bitsVal (xs ++ ys) = bitsVal xs * 2 ^ ys.length + bitsVal ys := by
  rw [bitsVal, List.foldl_append, foldl_bits]; rfl

theorem bitsVal_lt : ∀ bs : List Bool, bitsVal bs < 2 ^ bs.length
  | [] => by simp
  | b :: bs => by
    have h := bitsVal_lt bs
    rw [bitsVal_cons, List.length_cons, pow_succ]
    have : b.toNat ≤ 1 := Bool.toNat_le b
    nlinarith

@[simp] theorem bitsVal_replicate_false (n : Nat) : bitsVal (List.replicate n false) = 0 := by
  induction n with
  | zero => rfl
  | succ n ih => rw [List.replicate_succ, bitsVal_cons, ih]; simp

/-- A field holds its value (R62). -/
theorem bitsVal_fieldBits : ∀ (n v : Nat), bitsVal (fieldBits n v) = v % 2 ^ n
  | 0, v => by simp [Nat.mod_one]
  | n + 1, v => by
    rw [fieldBits_succ, bitsVal_cons, bitsVal_fieldBits n v, fieldBits_length, Nat.testBit_eq_decide_div_mod_eq,
      pow_succ, Nat.mod_mul]
    rcases Nat.mod_two_eq_zero_or_one (v / 2 ^ n) with h | h <;> simp [h, Nat.add_comm]

theorem bitsVal_fieldBits_of_lt {n v : Nat} (h : v < 2 ^ n) : bitsVal (fieldBits n v) = v := by
  rw [bitsVal_fieldBits, Nat.mod_eq_of_lt h]

/-- A bit string is the field of its own value. -/
theorem fieldBits_bitsVal : ∀ bs : List Bool, fieldBits bs.length (bitsVal bs) = bs
  | [] => rfl
  | b :: bs => by
    have h := bitsVal_lt bs
    have ih := fieldBits_bitsVal bs
    rw [List.length_cons, fieldBits_succ, bitsVal_cons]
    congr 1
    · cases b <;> simp [Nat.testBit_eq_decide_div_mod_eq, Nat.div_eq_of_lt h, Nat.add_div_left]
    · refine Eq.trans (List.ext_getElem (by simp) fun i h1 h2 => ?_) ih
      have hi : i < bs.length := by simpa using h1
      have h3 : bs.length - 1 - i < bs.length := by omega
      rw [fieldBits_getElem, fieldBits_getElem, Nat.mul_comm, Nat.testBit_two_pow_mul_add _ h]
      simp [h3]

theorem fieldBits_injective {n a b : Nat} (ha : a < 2 ^ n) (hb : b < 2 ^ n) (h : fieldBits n a = fieldBits n b) :
    a = b := by
  rw [← bitsVal_fieldBits_of_lt ha, h, bitsVal_fieldBits_of_lt hb]

/-- Reading a field off the front of a stream. -/
theorem takeField_append {n : Nat} {bs : List Bool} (h : bs.length = n) (rest : List Bool) :
    takeField n (bs ++ rest) = some (bitsVal bs, rest) := by
  subst h; simp [takeField]

theorem takeField_field {n v : Nat} (h : v < 2 ^ n) (rest : List Bool) :
    takeField n (fieldBits n v ++ rest) = some (v, rest) := by
  rw [takeField_append (fieldBits_length n v), bitsVal_fieldBits_of_lt h]

/-- A field that was read stands at the front of the stream, and is in range. -/
theorem takeField_eq_some {n v : Nat} {bs rest : List Bool} (h : takeField n bs = some (v, rest)) :
    bs = fieldBits n v ++ rest ∧ v < 2 ^ n := by
  unfold takeField at h
  split at h
  · cases h
  · rename_i hn
    obtain ⟨rfl, rfl⟩ := Prod.mk.inj (Option.some.inj h)
    have hl : (bs.take n).length = n := by simp; omega
    have h1 := fieldBits_bitsVal (bs.take n)
    have h2 := bitsVal_lt (bs.take n)
    rw [hl] at h1 h2
    exact ⟨by rw [h1, List.take_append_drop], h2⟩

@[simp] theorem byteBits_nil : byteBits [] = [] := rfl

theorem byteBits_cons (b : Byte) (bs : List Byte) : byteBits (b :: bs) = fieldBits 8 b.toNat ++ byteBits bs := rfl

@[simp] theorem byteBits_append (xs ys : List Byte) : byteBits (xs ++ ys) = byteBits xs ++ byteBits ys := by
  simp [byteBits]

@[simp] theorem byteBits_length : ∀ bs : List Byte, (byteBits bs).length = 8 * bs.length
  | [] => rfl
  | b :: bs => by simp [byteBits_cons, byteBits_length bs]; ring

end Sys2Proof

namespace Sys2Proof.Machine

/-! ### The bit writer -/

/-- `w` has been given exactly the bits `bs`: the cursor counts them, and the bytes hold them followed by the zero
bits of the last byte (R161). -/
def BitWriter.Holds (w : BitWriter) (bs : List Bool) : Prop :=
  w.wcur = bs.length ∧ byteBits w.bytes = bs ++ List.replicate ((8 - bs.length % 8) % 8) false

theorem BitWriter.holds_empty : BitWriter.empty.Holds [] := ⟨rfl, rfl⟩

theorem modify_last {α : Type} (f : α → α) (x : α) : ∀ pre : List α,
    (pre ++ [x]).modify pre.length f = pre ++ [f x]
  | [] => rfl
  | a :: pre => by simpa using modify_last f x pre

/-- One bit set in a byte whose bits from position `c.length` on are still zero. -/
theorem byte_add_bit {x : Byte} {c : List Bool} (b : Bool) (hc : c.length < 8)
    (hx : fieldBits 8 x.toNat = c ++ List.replicate (8 - c.length) false) :
    fieldBits 8 (x + BitVec.ofNat 8 (b.toNat * 2 ^ (7 - c.length))).toNat =
      c ++ b :: List.replicate (7 - c.length) false := by
  have hv : x.toNat = bitsVal c * 2 ^ (8 - c.length) := by
    rw [← bitsVal_fieldBits_of_lt x.isLt, hx, bitsVal_append]; simp
  have h2 := bitsVal_lt (c ++ b :: List.replicate (7 - c.length) false)
  have h3 : (c ++ b :: List.replicate (7 - c.length) false).length = 8 := by simp; omega
  have h4 := fieldBits_bitsVal (c ++ b :: List.replicate (7 - c.length) false)
  have h5 : bitsVal (c ++ b :: List.replicate (7 - c.length) false) =
      x.toNat + b.toNat * 2 ^ (7 - c.length) := by
    rw [bitsVal_append, bitsVal_cons, hv]
    have h6 : (b :: List.replicate (7 - c.length) false).length = 8 - c.length := by simp; omega
    simp only [List.length_replicate, bitsVal_replicate_false, h6, Nat.add_zero]
  rw [h3] at h4 h2
  have h7 : (x + BitVec.ofNat 8 (b.toNat * 2 ^ (7 - c.length))).toNat =
      bitsVal (c ++ b :: List.replicate (7 - c.length) false) := by
    rw [h5] at h2 ⊢
    rw [BitVec.toNat_add, BitVec.toNat_ofNat, Nat.add_mod_mod, Nat.mod_eq_of_lt h2]
  rw [h7, h4]

/-- `PutBits` of one bit appends it (R161). -/
theorem BitWriter.holds_putBit {w : BitWriter} {bs : List Bool} (h : w.Holds bs) (b : Bool) :
    (w.putBit b).Holds (bs ++ [b]) := by
  obtain ⟨hw, hb⟩ := h
  refine ⟨by simp [BitWriter.putBit, hw], ?_⟩
  have hl := congrArg List.length hb
  simp only [byteBits_length, List.length_append, List.length_replicate] at hl
  -- the byte that takes the bit, and the bytes before it
  obtain ⟨pre, x, c, hbytes, hpre, hbs, hc, hx⟩ : ∃ (pre : List Byte) (x : Byte) (c : List Bool),
      (if w.wcur % 8 = 0 then w.bytes ++ [0] else w.bytes) = pre ++ [x] ∧ pre.length = w.wcur / 8 ∧
      bs = byteBits pre ++ c ∧ c.length = bs.length % 8 ∧
      fieldBits 8 x.toNat = c ++ List.replicate (8 - c.length) false := by
    by_cases h0 : bs.length % 8 = 0
    · refine ⟨w.bytes, 0, [], by simp [hw, h0], by omega, ?_, by simp [h0], by decide⟩
      rw [hb]; simp [h0]
    · have hne : w.bytes ≠ [] := by
        intro h; rw [h] at hl; simp at hl; omega
      have hsplit := List.dropLast_append_getLast hne
      have hlen : w.bytes.dropLast.length = bs.length / 8 := by rw [List.length_dropLast]; omega
      have hbits : byteBits w.bytes.dropLast ++ fieldBits 8 (w.bytes.getLast hne).toNat =
          bs ++ List.replicate (8 - bs.length % 8) false := by
        rw [← hsplit, byteBits_append] at hb
        have : (8 - bs.length % 8) % 8 = 8 - bs.length % 8 := by omega
        rw [this] at hb
        simpa [byteBits_cons] using hb
      have hlb : (byteBits w.bytes.dropLast).length = 8 * (bs.length / 8) := by rw [byteBits_length, hlen]
      refine ⟨w.bytes.dropLast, w.bytes.getLast hne, bs.drop (8 * (bs.length / 8)), ?_, ?_, ?_, ?_, ?_⟩
      · rw [hw, if_neg h0, hsplit]
      · rw [hw, hlen]
      · have h1 := congrArg (List.take (8 * (bs.length / 8))) hbits
        rw [List.take_left' hlb, List.take_append_of_le_length (by omega)] at h1
        rw [h1, List.take_append_drop]
      · simp; omega
      · have h1 := congrArg (List.drop (8 * (bs.length / 8))) hbits
        rw [List.drop_left' hlb, List.drop_append_of_le_length (by omega)] at h1
        rw [h1]; congr 2; simp; omega
  have hc8 : c.length < 8 := by omega
  have hnew := byte_add_bit b hc8 hx
  have hput : (w.putBit b).bytes = pre ++ [x + BitVec.ofNat 8 (b.toNat * 2 ^ (7 - c.length))] := by
    simp only [BitWriter.putBit, hbytes]
    rw [← hpre, modify_last, hc, hw]
  rw [hput, byteBits_append, byteBits_cons, byteBits_nil, List.append_nil, hnew]
  have hrep : (8 - (bs ++ [b]).length % 8) % 8 = 7 - c.length := by
    rw [List.length_append, List.length_singleton, hc]; omega
  rw [hrep, hbs]; simp

theorem BitWriter.holds_foldl {w : BitWriter} {bs : List Bool} (h : w.Holds bs) (cs : List Bool) :
    (cs.foldl BitWriter.putBit w).Holds (bs ++ cs) := by
  induction cs generalizing w bs with
  | nil => simpa using h
  | cons c cs ih => simpa using ih (BitWriter.holds_putBit h c)

/-- `PutBits(n, v)` appends the field of `v` (R161). -/
theorem BitWriter.holds_putBits {w : BitWriter} {bs : List Bool} (h : w.Holds bs) (n v : Nat) :
    (w.putBits n v).Holds (bs ++ fieldBits n v) := BitWriter.holds_foldl h _

/-- `PadTo16` appends the pad (R162). -/
theorem BitWriter.holds_padTo16 {w : BitWriter} {bs : List Bool} (h : w.Holds bs) :
    w.padTo16.Holds (bs ++ List.replicate (padBits bs.length) false) := by
  rw [BitWriter.padTo16, h.1]; exact BitWriter.holds_foldl h _

/-- When the writer stands at a byte boundary its bytes are exactly the bits it was given. -/
theorem BitWriter.Holds.bits {w : BitWriter} {bs : List Bool} (h : w.Holds bs) (h8 : bs.length % 8 = 0) :
    byteBits w.bytes = bs := by
  rw [h.2, h8]; simp

theorem BitWriter.Holds.bytes_length {w : BitWriter} {bs : List Bool} (h : w.Holds bs) :
    w.bytes.length = (bs.length + 7) / 8 := by
  have := congrArg List.length h.2
  simp at this; omega

end Sys2Proof.Machine
end

