-- ==== Sys2Proof/Laws/Commands.lean ====
section
/-!
SUPPORT. What issuing a command can do, said once; the fields of `FLAGS` and `STATUS` as numbers.
-/

namespace Sys2Proof.Machine

/-- A command answers a next state exactly when no `DEC` runs, and then it is its body from a cleared `STATUS`. -/
theorem issue_eq_next {s t : State} {body : State → State} :
    s.issue body = .next t ↔ s.dstate.active = false ∧ t = body s.beginCommand := by
  unfold State.issue
  split
  · rename_i h; simp [h]
  · rename_i h; simp [h, eq_comm]

theorem issue_of_idle {s : State} (h : s.dstate.active = false) (body : State → State) :
    s.issue body = .next (body s.beginCommand) := issue_eq_next.2 ⟨h, rfl⟩

theorem issue_of_active {s : State} (h : s.dstate.active = true) (body : State → State) :
    s.issue body = .refused .commandRunning := by simp [State.issue, h]

/-- No command faults the model. -/
theorem issue_ne_fault (s : State) (body : State → State) (r : Fault) : s.issue body ≠ .fault r := by
  unfold State.issue; split <;> simp

/-- Where a guarded part of a `DEC` answers a next state. -/
theorem guarded_eq_next {s u t : State} {ok : Bool} :
    s.guarded ok u = .next t ↔ ok = true ∧ s.outcnt < s.cfg.batch ∧ t = u := by
  unfold State.guarded
  cases ok <;> simp [eq_comm]
  split
  · simp; omega
  · simp; omega

theorem guarded_of {s : State} {ok : Bool} (h : ok = true) (ho : s.outcnt < s.cfg.batch) (u : State) :
    s.guarded ok u = .next u := guarded_eq_next.2 ⟨h, ho, rfl⟩

@[simp] theorem beginCommand_pixels (s : State) : s.beginCommand.pixels = s.pixels := rfl

/-- A command that completes ends with `STATUS = 0x01`, since its start cleared the register (R230). -/
theorem complete_of_status {s : State} (h : s.status = 0) : s.complete = { s with status := 1 } := by
  unfold State.complete; rw [h]; rfl

/-- `BITDEPTH` in 1 to 16 (R24). -/
theorem depthOk_iff {s : State} : s.depthOk = true ↔ 1 ≤ s.depth ∧ s.depth ≤ 16 := by
  unfold State.depthOk; rw [Bool.and_eq_true, decide_eq_true_iff, decide_eq_true_iff]

theorem depthOk_eq_false {s : State} (h : s.depth < 1 ∨ 16 < s.depth) : s.depthOk = false := by
  rcases hd : s.depthOk with _ | _
  · rfl
  · have := depthOk_iff.1 hd; omega

/-! ### The status byte -/

@[simp] theorem faultStatus_toNat (k : ErrKind) : (faultStatus k).toNat = 2 + 16 * k.code := by cases k <;> rfl

/-- A fault sets `ERR` and clears `DONE` (R256). -/
theorem faultStatus_bits (k : ErrKind) :
    (faultStatus k).getLsbD 1 = true ∧ (faultStatus k).getLsbD 0 = false := by cases k <;> decide

@[simp] theorem statusErr_raise (s : State) (k : ErrKind) (info : Nat) : (s.raise k info).statusErr = true :=
  (faultStatus_bits k).1

@[simp] theorem statusDone_raise (s : State) (k : ErrKind) (info : Nat) : (s.raise k info).statusDone = false :=
  (faultStatus_bits k).2

@[simp] theorem statusErr_raiseDec (s : State) (k : ErrKind) (info : Nat) : (s.raiseDec k info).statusErr = true :=
  (faultStatus_bits k).1

@[simp] theorem statusDone_raiseDec (s : State) (k : ErrKind) (info : Nat) :
    (s.raiseDec k info).statusDone = false := (faultStatus_bits k).2

/-- The nine codes are distinct (R250). -/
theorem ErrKind.code_injective : ∀ {j k : ErrKind}, j.code = k.code → j = k := by
  intro j k; cases j <;> cases k <;> simp [ErrKind.code]

/-! ### The flags byte -/

theorem readFlags_writeFlags (s : State) (v : BitVec 8) : (s.writeFlags v).readFlags = v &&& 0x7F := by
  simp [State.readFlags, BitVec.and_assoc]

theorem flagsByte_bounds : ∀ (c : Bool) (br bo : Fin 8),
    flagsByte c br bo &&& 0x7F = flagsByte c br bo ∧ (flagsByte c br bo).getLsbD 0 = c ∧
    (flagsByte c br bo).toNat / 2 % 8 = br ∧ (flagsByte c br bo).toNat / 16 % 8 = bo ∧
    (flagsByte c br bo).getLsbD 7 = false := by decide

/-- The three fields read back as they were composed (R92). -/
theorem fields_writeFlags (s : State) (c : Bool) {br bo : Nat} (h1 : br < 8) (h2 : bo < 8) :
    (s.writeFlags (flagsByte c br bo)).comp = c ∧ (s.writeFlags (flagsByte c br bo)).br = br ∧
    (s.writeFlags (flagsByte c br bo)).bo = bo := by
  obtain ⟨h3, h4, h5, h6, -⟩ := flagsByte_bounds c ⟨br, h1⟩ ⟨bo, h2⟩
  simp only [] at h3 h4 h5 h6
  refine ⟨?_, ?_, ?_⟩
  · rw [State.comp, readFlags_writeFlags, h3, h4]
  · rw [State.br, readFlags_writeFlags, h3, h5]
  · rw [State.bo, readFlags_writeFlags, h3, h6]

theorem br_lt (s : State) : s.br < 8 := Nat.mod_lt _ (by decide)

theorem bo_lt (s : State) : s.bo < 8 := Nat.mod_lt _ (by decide)

theorem and_7F_getLsbD_7 (v : BitVec 8) : (v &&& 0x7F).getLsbD 7 = false := by
  rw [BitVec.getLsbD_and]; simp

end Sys2Proof.Machine
end

