-- ==== Sys2Proof/Laws/Decoder.lean ====
section
/-!
SUPPORT. What each shared operation of the decoder can do, said once: the bit reader, `Emit` and `Flush`, and one
step of the state machine (spec 43_decoder.md R191 to R203).
-/

namespace Sys2Proof.Machine

/-! ### The bit reader -/

@[simp] theorem bitsFrom_length (s : State) (p n : Nat) : (s.bitsFrom p n).length = n := by simp [State.bitsFrom]

@[simp] theorem bitsFrom_getElem (s : State) (p n : Nat) {i : Nat} (h : i < (s.bitsFrom p n).length) :
    (s.bitsFrom p n)[i] = s.bit (p + i) := by simp [State.bitsFrom]

theorem bitsFrom_add (s : State) (p n k : Nat) : s.bitsFrom p (n + k) = s.bitsFrom p n ++ s.bitsFrom (p + n) k := by
  simp only [State.bitsFrom, List.range_add, List.map_append, List.map_map]
  congr 1
  exact List.map_congr_left fun i _ => by simp [Nat.add_assoc]

/-- The bits of the payload's bytes are its stream bits (R61). -/
theorem byteBits_readList_payload (s : State) (n : Nat) :
    byteBits (s.payload.readList 0 n) = s.bitsFrom 0 (8 * n) := by
  induction n with
  | zero => rfl
  | succ n ih =>
    rw [Mem.readList_succ, byteBits_append, ih, Nat.mul_succ, bitsFrom_add]
    congr 1
    apply List.ext_getElem
    · simp [byteBits_cons]
    · intro i h1 h2
      have hi : i < 8 := by simpa using h2
      simp only [byteBits_cons, byteBits_nil, List.append_nil, fieldBits_getElem, bitsFrom_getElem, State.bit]
      have h3 : (0 + 8 * n + i) / 8 = n := by omega
      have h4 : (0 + 8 * n + i) % 8 = i := by omega
      rw [h3, h4, Nat.zero_add]
      rfl

/-- What `GetBits` gives when it gives anything (R191). -/
theorem getBits_eq_some {s s' : State} {n v : Nat} (h : s.getBits n = some (v, s')) :
    s' = s.advance n ∧ (n = 0 ∨ s.cur + n ≤ 8 * s.paylen) ∧ v = bitsVal (s.bitsFrom s.cur n) ∧ v < 2 ^ n := by
  unfold State.getBits at h
  split at h
  · rename_i h0
    obtain ⟨rfl, rfl⟩ := Prod.mk.inj (Option.some.inj h)
    subst h0; exact ⟨rfl, .inl rfl, rfl, by simp⟩
  · split at h
    · cases h
    · obtain ⟨rfl, rfl⟩ := Prod.mk.inj (Option.some.inj h)
      refine ⟨rfl, .inr (by omega), rfl, ?_⟩
      simpa using bitsVal_lt (s.bitsFrom s.cur n)

/-- `GetBits` fails exactly when it needs bits past the end (R191). -/
theorem getBits_eq_none {s : State} {n : Nat} : s.getBits n = none ↔ n ≠ 0 ∧ 8 * s.paylen < s.cur + n := by
  unfold State.getBits
  split
  · simp_all
  · split <;> simp_all

/-- `GetBits` where the bits are there (R191). -/
theorem getBits_of_le {s : State} {n : Nat} (h : n = 0 ∨ s.cur + n ≤ 8 * s.paylen) :
    s.getBits n = some (bitsVal (s.bitsFrom s.cur n), s.advance n) := by
  unfold State.getBits
  split
  · rename_i h0; subst h0; rfl
  · rw [if_neg (by omega)]; rfl

/-! ### Output -/

theorem delivered_flush (s : State) : s.flush.delivered = s.delivered := by
  simp [State.delivered]

/-- `Emit` adds one colour to what has been delivered or buffered (R194, R204). -/
theorem delivered_emit {s : State} (v : Colour) : (s.emit v).delivered = s.delivered ++ [v] := by
  have h : (s.outbuf.write s.outcnt v).readList 0 (s.outcnt + 1) = s.outbuf.readList 0 s.outcnt ++ [v] := by
    simpa using Mem.readList_write_snoc s.outbuf 0 s.outcnt v
  rw [State.emit_eq, State.delivered]
  split <;> simp [State.delivered, h]

/-- `OUTCNT` after an `Emit` is below `BATCH` if it was (R204, D31). -/
theorem outcnt_emit_lt {s : State} (h : s.outcnt < s.cfg.batch) (v : Colour) : (s.emit v).outcnt < s.cfg.batch := by
  rw [State.emit_outcnt]; split <;> omega

/-- `OUTCNT = PIXEMIT mod BATCH` is kept by an `Emit` (R204). -/
theorem outcnt_emit_mod {s : State} (h : s.outcnt = s.pixemit % s.cfg.batch) (v : Colour) :
    (s.emit v).outcnt = (s.emit v).pixemit % (s.emit v).cfg.batch := by
  have hb := s.cfg.legal.1
  have hlt : s.outcnt < s.cfg.batch := h ▸ Nat.mod_lt _ hb
  rw [State.emit_outcnt, State.emit_pixemit, State.emit_cfg, Nat.add_mod, ← h]
  split
  · rename_i he
    rcases Nat.lt_or_ge 1 s.cfg.batch with h1 | h1
    · rw [Nat.mod_eq_of_lt h1, he, Nat.mod_self]
    · have : s.cfg.batch = 1 := by omega
      simp [this, Nat.mod_one]
  · rcases Nat.lt_or_ge 1 s.cfg.batch with h1 | h1
    · rw [Nat.mod_eq_of_lt h1, Nat.mod_eq_of_lt (by omega)]
    · omega

/-- The batches stay non-empty and at most `BATCH` long (R45). -/
theorem batchesLegal_emit {s : State} (h : s.BatchesLegal) (v : Colour) : (s.emit v).BatchesLegal := by
  intro b hb
  rw [State.emit_sink] at hb
  rw [State.emit_cfg]
  split at hb
  · rename_i he
    rcases List.mem_append.1 hb with hb | hb
    · exact h b hb
    · rw [List.mem_singleton.1 hb]; simp [he, s.cfg.legal.1]
  · exact h b hb

theorem batchesLegal_flush {s : State} (h : s.BatchesLegal) (h1 : 1 ≤ s.outcnt) (h2 : s.outcnt ≤ s.cfg.batch) :
    s.flush.BatchesLegal := by
  intro b hb
  rcases List.mem_append.1 hb with hb | hb
  · exact h b hb
  · rw [List.mem_singleton.1 hb]; simp [h1, h2]

/-- The last step of a `DEC` as one update (R202). -/
theorem finish_eq (s : State) : s.finish = { s with
    sink := if 1 ≤ s.outcnt then s.sink ++ [s.outbuf.readList 0 s.outcnt] else s.sink
    outcnt := 0, status := s.status ||| 1, dstate := .terminal } := by
  unfold State.finish
  split
  · rfl
  · rename_i h
    have : s.outcnt = 0 := by omega
    simp only [State.complete, ← this]

/-- `Resolve` (R193). -/
theorem resolve_eq_some {s : State} {g : Code} {v : Colour} :
    s.resolve g = some v ↔ (s.depth = 16 ∨ g.toNat < s.palcount.toNat) ∧ v = s.colourOf g := by
  unfold State.resolve State.colourOf
  split
  · rename_i h; simp [h, eq_comm]
  · rename_i h
    split
    · simp_all
    · simp_all [eq_comm]

theorem resolve_eq_none {s : State} {g : Code} :
    s.resolve g = none ↔ s.depth ≠ 16 ∧ s.palcount.toNat ≤ g.toNat := by
  unfold State.resolve
  split
  · rename_i h; simp [h]
  · rename_i h
    split <;> simp_all

/-! ### One step of the state machine -/

/-- The state after a resolved group, before any counting (R199, R201). -/
def State.afterGroup (s : State) (v : Colour) : State :=
  { (s.advance s.depth).emit v with lastpix := v, lastv := true }

/-- Everything one step of a running decoder can do (R197 to R203). -/
inductive State.Steps (s : State) : State → Prop
  /-- Pixel `N` is complete (R198, R201, R202). -/
  | finish (hd : s.dstate = .readControl ∨ s.dstate = .raw) (hn : s.pixemit = s.pixelCount) : Steps s s.finish
  /-- A bit read runs out (R251). -/
  | truncated (hd : s.dstate = .readControl ∨ s.dstate = .literal ∨ s.dstate = .raw)
      (hn : s.dstate ≠ .literal → s.pixemit ≠ s.pixelCount) : Steps s (s.raiseDec .streamTruncated s.cur)
  /-- A `REP` before any pixel (R253). -/
  | noBase (hd : s.dstate = .readControl) (hn : s.pixemit ≠ s.pixelCount) (hl : s.lastv = false) :
      Steps s (s.raiseDec .noBasePixel s.cur)
  /-- A block longer than the pixels still wanted (R254). -/
  | overrun (hd : s.dstate = .readControl) (hn : s.pixemit ≠ s.pixelCount) (f : Nat)
      (hf : s.pixelCount - s.pixemit < f + 1) : Steps s (s.raiseDec .blockOverrun s.cur)
  /-- A group with no palette entry (R252). -/
  | badIndex (hd : s.dstate = .literal ∨ s.dstate = .raw) (hn : s.dstate = .raw → s.pixemit ≠ s.pixelCount)
      (g : Code) (hg : s.resolve g = none) : Steps s (s.raiseDec .paletteIndexOutOfRange g.toNat)
  /-- A `LIT` header (R198). -/
  | litHead (hd : s.dstate = .readControl) (hn : s.pixemit ≠ s.pixelCount) (f : Nat) (hf : f < 2 ^ s.bo)
      (hr : f + 1 ≤ s.pixelCount - s.pixemit) (hb : s.cur + (1 + s.bo) ≤ 8 * s.paylen) :
      Steps s { s.advance (1 + s.bo) with cnt := f + 1, dstate := .literal }
  /-- A `REP` header (R198). -/
  | repHead (hd : s.dstate = .readControl) (hn : s.pixemit ≠ s.pixelCount) (f : Nat) (hf : f < 2 ^ s.br)
      (hl : s.lastv = true) (hr : f + 1 ≤ s.pixelCount - s.pixemit) (hb : s.cur + (1 + s.br) ≤ 8 * s.paylen) :
      Steps s { s.advance (1 + s.br) with cnt := f + 1, dstate := .repeat }
  /-- One group of a `LIT` (R199). -/
  | group (hd : s.dstate = .literal) (g : Code) (v : Colour) (hv : s.resolve g = some v)
      (hb : s.depth = 0 ∨ s.cur + s.depth ≤ 8 * s.paylen) : Steps s (s.afterGroup v).countDown
  /-- One repetition of a `REP` (R200). -/
  | repetition (hd : s.dstate = .repeat) : Steps s (repeatPixel s)
  /-- One raw group (R201). -/
  | rawGroup (hd : s.dstate = .raw) (hn : s.pixemit ≠ s.pixelCount) (g : Code) (v : Colour)
      (hv : s.resolve g = some v) (hb : s.depth = 0 ∨ s.cur + s.depth ≤ 8 * s.paylen) : Steps s (s.afterGroup v)

theorem emitGroup_cases (s : State) (g : Code) :
    (s.resolve g = none ∧ State.emitGroup s (s.advance s.depth) g = s.raiseDec .paletteIndexOutOfRange g.toNat) ∨
    ∃ v, s.resolve g = some v ∧ State.emitGroup s (s.advance s.depth) g = s.afterGroup v := by
  unfold State.emitGroup
  cases h : s.resolve g with
  | none => exact .inl ⟨rfl, rfl⟩
  | some v => exact .inr ⟨v, rfl, rfl⟩

@[simp] theorem afterGroup_dstate (s : State) (v : Colour) : (s.afterGroup v).dstate = s.dstate := by
  simp [State.afterGroup]

theorem literalGroup_cases {s : State} (hd : s.dstate ≠ .faulted) (g : Code) :
    (s.resolve g = none ∧ literalGroup s (s.advance s.depth) g = s.raiseDec .paletteIndexOutOfRange g.toNat) ∨
    ∃ v, s.resolve g = some v ∧ literalGroup s (s.advance s.depth) g = (s.afterGroup v).countDown := by
  unfold literalGroup
  rcases emitGroup_cases s g with ⟨h, he⟩ | ⟨v, h, he⟩
  · exact .inl ⟨h, by simp [he]⟩
  · exact .inr ⟨v, h, by simp [he, hd]⟩

/-- The inversion of a step: a running decoder does one of these things (R197). -/
theorem decStep_cases {s : State} (h : s.dstate.active = true) : s.Steps s.decStep := by
  unfold State.decStep
  split
  · rename_i hd
    split
    · exact .finish (.inl hd) ‹_›
    · rename_i hn
      split
      · exact .truncated (.inl hd) fun _ => hn
      · rename_i c s₁ h1
        obtain ⟨rfl, hb1, -, -⟩ := getBits_eq_some h1
        have hb1 : s.cur + 1 ≤ 8 * s.paylen := by omega
        split
        · split
          · exact .truncated (.inl hd) fun _ => hn
          · rename_i f s₂ h2
            obtain ⟨rfl, hb2, -, hf⟩ := getBits_eq_some h2
            unfold litHeader
            split
            · exact .overrun hd hn f ‹_›
            · rw [show (s.advance 1).advance s.bo = s.advance (1 + s.bo) by simp [State.advance, Nat.add_assoc]]
              refine .litHead hd hn f hf (by omega) ?_
              simp at hb2; omega
        · split
          · exact .truncated (.inl hd) fun _ => hn
          · rename_i f s₂ h2
            obtain ⟨rfl, hb2, -, hf⟩ := getBits_eq_some h2
            unfold repHeader
            split
            · exact .noBase hd hn ‹_›
            · rename_i hl
              split
              · exact .overrun hd hn f ‹_›
              · rw [show (s.advance 1).advance s.br = s.advance (1 + s.br) by simp [State.advance, Nat.add_assoc]]
                refine .repHead hd hn f hf (by simpa using hl) (by omega) ?_
                simp at hb2; omega
  · rename_i hd
    split
    · exact .truncated (.inr (.inl hd)) fun h => absurd hd h
    · rename_i g s₁ h1
      obtain ⟨rfl, hb, -, -⟩ := getBits_eq_some h1
      rcases literalGroup_cases (s := s) (by simp [hd]) (BitVec.ofNat 16 g) with ⟨hg, he⟩ | ⟨v, hv, he⟩
      · rw [he]; exact .badIndex (.inl hd) (fun h => by rw [hd] at h; cases h) _ hg
      · rw [he]; exact .group hd _ v hv hb
  · exact .repetition ‹_›
  · rename_i hd
    split
    · exact .finish (.inr hd) ‹_›
    · rename_i hn
      split
      · exact .truncated (.inr (.inr hd)) fun _ => hn
      · rename_i g s₁ h1
        obtain ⟨rfl, hb, -, -⟩ := getBits_eq_some h1
        rcases emitGroup_cases s (BitVec.ofNat 16 g) with ⟨hg, he⟩ | ⟨v, hv, he⟩
        · rw [he]; exact .badIndex (.inr hd) (fun _ => hn) _ hg
        · rw [he]; exact .rawGroup hd hn _ v hv hb
  · rename_i hd; rw [hd] at h; cases h
  · rename_i hd; rw [hd] at h; cases h
  · rename_i hd; rw [hd] at h; cases h

end Sys2Proof.Machine
end

