-- ==== Sys2Proof/Laws/Emitted.lean ====
section
/-!
SUPPORT. What emitting colours does, said once through `State.Emitted`, and the fields after a resolved group.
-/

namespace Sys2Proof.Machine

theorem State.Emitted.refl {s : State} (h : s.outcnt < s.cfg.batch) : s.Emitted s [] :=
  ⟨by simp, ⟨[], by simp, by simp⟩, by simp [Nat.mod_eq_of_lt h], by simp, fun _ _ => rfl⟩

theorem State.Emitted.trans {s t u : State} {vs ws : List Colour} (h1 : s.Emitted t vs) (h2 : t.Emitted u ws)
    (hc : t.cfg = s.cfg) : s.Emitted u (vs ++ ws) := by
  refine ⟨?_, ?_, ?_, ?_, ?_⟩
  · rw [h2.delivered, h1.delivered, List.append_assoc]
  · obtain ⟨b1, e1, f1⟩ := h1.full
    obtain ⟨b2, e2, f2⟩ := h2.full
    refine ⟨b1 ++ b2, by rw [e2, e1, List.append_assoc], fun b hb => ?_⟩
    rcases List.mem_append.1 hb with hb | hb
    · exact f1 b hb
    · rw [← hc]
      exact f2 b hb
  · rw [h2.outcnt, h1.outcnt, hc, List.length_append, Nat.mod_add_mod, Nat.add_assoc]
  · rw [h2.pixemit, h1.pixemit, List.length_append, Nat.add_assoc]
  · intro a ha
    rw [h2.outbuf, h1.outbuf]
    · intro j hj
      apply ha
      simp
      omega
    · intro j hj
      have := ha (vs.length + j) (by simp; omega)
      rw [h1.outcnt, hc, Nat.mod_add_mod, Nat.add_assoc]
      exact this

/-- `Emit(v)` (R194). -/
theorem emitted_emit {s : State} (h : s.outcnt < s.cfg.batch) (v : Colour) : s.Emitted (s.emit v) [v] := by
  refine ⟨delivered_emit v, ?_, ?_, by simp, ?_⟩
  · rw [State.emit_sink]
    split
    · rename_i hb
      exact ⟨_, rfl, by simp [hb]⟩
    · exact ⟨[], by simp, by simp⟩
  · rw [State.emit_outcnt]
    simp only [List.length_singleton]
    split
    · rename_i hb
      rw [hb, Nat.mod_self]
    · rw [Nat.mod_eq_of_lt (by omega)]
  · intro a ha
    have := ha 0 (by simp)
    rw [Nat.add_zero, Nat.mod_eq_of_lt h] at this
    simp [Mem.read_write_ne this]

/-- `Emitted` looks at four fields of the later state. -/
theorem State.Emitted.congr {s t u : State} {vs : List Colour} (h : s.Emitted t vs) (h1 : u.sink = t.sink)
    (h2 : u.outbuf = t.outbuf) (h3 : u.outcnt = t.outcnt) (h4 : u.pixemit = t.pixemit) : s.Emitted u vs := by
  obtain ⟨a, b, c, d, e⟩ := h
  refine ⟨?_, by rw [h1]; exact b, by rw [h3]; exact c, by rw [h4]; exact d, by rw [h2]; exact e⟩
  rw [← a]
  simp [State.delivered, h1, h2, h3]

/-- `Emitted` looks at five fields of the earlier state. -/
theorem State.Emitted.congr_left {s t u : State} {vs : List Colour} (h : s.Emitted t vs) (h1 : u.sink = s.sink)
    (h2 : u.outbuf = s.outbuf) (h3 : u.outcnt = s.outcnt) (h4 : u.pixemit = s.pixemit) (h5 : u.cfg = s.cfg) :
    u.Emitted t vs := by
  obtain ⟨a, b, c, d, e⟩ := h
  refine ⟨?_, by rw [h1, h5]; exact b, by rw [h3, h5]; exact c, by rw [h4]; exact d, by rw [h2, h3, h5]; exact e⟩
  rw [a]
  simp [State.delivered, h1, h2, h3]

/-! ### After a resolved group -/

theorem emitted_afterGroup {s : State} (h : s.outcnt < s.cfg.batch) (v : Colour) : s.Emitted (s.afterGroup v) [v] :=
  State.Emitted.congr_left (s := s.advance s.depth)
    ((emitted_emit (s := s.advance s.depth) h v).congr (u := s.afterGroup v) rfl rfl rfl rfl) rfl rfl rfl rfl rfl

@[simp] theorem afterGroup_payload (s : State) (v : Colour) : (s.afterGroup v).payload = s.payload := by
  simp [State.afterGroup]
@[simp] theorem afterGroup_paylen (s : State) (v : Colour) : (s.afterGroup v).paylen = s.paylen := by
  simp [State.afterGroup]
@[simp] theorem afterGroup_cur (s : State) (v : Colour) : (s.afterGroup v).cur = s.cur + s.depth := by
  simp [State.afterGroup]
@[simp] theorem afterGroup_cnt (s : State) (v : Colour) : (s.afterGroup v).cnt = s.cnt := by
  simp [State.afterGroup]
@[simp] theorem afterGroup_bitdepth (s : State) (v : Colour) : (s.afterGroup v).bitdepth = s.bitdepth := by
  simp [State.afterGroup]
@[simp] theorem afterGroup_depth (s : State) (v : Colour) : (s.afterGroup v).depth = s.depth := by
  simp [State.depth]
@[simp] theorem afterGroup_pixemit (s : State) (v : Colour) : (s.afterGroup v).pixemit = s.pixemit + 1 := by
  simp [State.afterGroup]
@[simp] theorem afterGroup_pixelCount (s : State) (v : Colour) : (s.afterGroup v).pixelCount = s.pixelCount := by
  simp [State.afterGroup, State.pixelCount]
@[simp] theorem afterGroup_depthOk (s : State) (v : Colour) : (s.afterGroup v).depthOk = s.depthOk := by
  simp [State.depthOk]
@[simp] theorem afterGroup_status (s : State) (v : Colour) : (s.afterGroup v).status = s.status := by
  simp [State.afterGroup]
@[simp] theorem afterGroup_errinfo (s : State) (v : Colour) : (s.afterGroup v).errinfo = s.errinfo := by
  simp [State.afterGroup]
@[simp] theorem afterGroup_cfg (s : State) (v : Colour) : (s.afterGroup v).cfg = s.cfg := by
  simp [State.afterGroup]
@[simp] theorem afterGroup_lastv (s : State) (v : Colour) : (s.afterGroup v).lastv = true := by
  simp [State.afterGroup]

/-! ### Steps that do nothing -/

/-- With no `DEC` running the state machine has no step to take (R197). -/
theorem decStep_inactive {s : State} (h : s.dstate.active = false) : s.decStep = s := by
  unfold State.decStep
  cases hd : s.dstate <;> simp_all [DState.active]

end Sys2Proof.Machine
end

