-- ==== Sys2Proof/Laws/Host.lean ====
section
/-!
SUPPORT. What the host reads of register 13, and what the reset event leaves (spec 10_state.md R34;
70_reset_and_hazards.md R280, R281).
-/

namespace Sys2Proof.Machine

/-- The low 16 bits of register 13 are `LASTPIX` (R34). -/
@[simp] theorem readLastpix_low (s : State) : s.readLastpix % 2 ^ 16 = s.lastpix.toNat := by
  rw [State.readLastpix, Nat.add_mul_mod_self_left, Nat.mod_eq_of_lt s.lastpix.isLt]

/-- The bit above them is `LASTV` (R34; log 23). -/
@[simp] theorem readLastpix_high (s : State) : s.readLastpix / 2 ^ 16 = s.lastv.toNat := by
  rw [State.readLastpix, Nat.add_mul_div_left _ _ (by decide), Nat.div_eq_of_lt s.lastpix.isLt, Nat.zero_add]

/-! ### The contents of a memory after reset -/

variable {w : Nat}

@[simp] theorem Mem.ofContents_nil (cap : Option Nat) : Mem.ofContents cap ([] : List (BitVec w)) = [] := by
  cases cap <;> simp [Mem.ofContents, Mem.writeList]

theorem Mem.wf_ofContents (cap : Option Nat) (vs : List (BitVec w)) : (Mem.ofContents cap vs).wf :=
  Mem.wf_writeList _ Mem.wf_nil 0

/-- No element at or above the capacity is listed. -/
theorem Mem.below_ofContents (cap : Option Nat) (vs : List (BitVec w)) : (Mem.ofContents cap vs).below cap := by
  have hn : Mem.below ([] : Mem w) cap := fun _ h => absurd h List.not_mem_nil
  cases cap with
  | none => exact fun _ _ => rfl
  | some n =>
    apply Mem.below_writeList _ hn
    simp [exceeds]

/-- An element that exists and that the contents reach reads as they give it. -/
theorem Mem.read_ofContents {cap : Option Nat} {vs : List (BitVec w)} {i : Nat} {v : BitVec w}
    (hv : vs[i]? = some v) (hi : exceeds (i + 1) cap = false) : (Mem.ofContents cap vs).read i = v := by
  obtain ⟨hl, rfl⟩ := List.getElem?_eq_some_iff.1 hv
  cases cap with
  | none => simpa [Mem.ofContents] using Mem.read_writeList_mem ([] : Mem w) 0 hl
  | some n =>
    have hn : i < n := by simpa [exceeds] using hi
    have ht : i < (vs.take n).length := by simp; omega
    simpa [Mem.ofContents] using Mem.read_writeList_mem ([] : Mem w) 0 ht

/-! ### The state after reset -/

/-- The one state after reset of the host's interface is the one with the default parameters and no contents listed. -/
theorem resetWith_nothing : State.resetWith {} ⟨0, [], [], [], [], []⟩ = State.reset := rfl

/-- The reset event leaves the machine right after reset, but for the model's own fields (R280). -/
theorem resetEvent_eq (c : ResetContents) (s : State) :
    s.resetEvent c = { State.resetWith s.cfg c with host := s.host, freeCount := s.freeCount } := rfl

@[simp] theorem resetWith_cfg (cfg : Config) (c : ResetContents) : (State.resetWith cfg c).cfg = cfg := rfl
@[simp] theorem resetWith_dstate (cfg : Config) (c : ResetContents) : (State.resetWith cfg c).dstate = .idle := rfl
@[simp] theorem resetWith_lastpix (cfg : Config) (c : ResetContents) :
    (State.resetWith cfg c).lastpix = c.lastpix := rfl
@[simp] theorem resetWith_lastv (cfg : Config) (c : ResetContents) : (State.resetWith cfg c).lastv = false := rfl
@[simp] theorem resetWith_sink (cfg : Config) (c : ResetContents) : (State.resetWith cfg c).sink = [] := rfl
@[simp] theorem resetWith_bitdepth (cfg : Config) (c : ResetContents) : (State.resetWith cfg c).bitdepth = 0 := rfl
@[simp] theorem resetWith_pixin (cfg : Config) (c : ResetContents) :
    (State.resetWith cfg c).pixin = Mem.ofContents cfg.pixinCap c.pixin := rfl
@[simp] theorem resetWith_pal (cfg : Config) (c : ResetContents) :
    (State.resetWith cfg c).pal = Mem.ofContents (some palCap) c.pal := rfl
@[simp] theorem resetWith_payload (cfg : Config) (c : ResetContents) :
    (State.resetWith cfg c).payload = Mem.ofContents cfg.payloadCap c.payload := rfl
@[simp] theorem resetWith_file (cfg : Config) (c : ResetContents) :
    (State.resetWith cfg c).file = Mem.ofContents cfg.fileCap c.file := rfl
@[simp] theorem resetWith_outbuf (cfg : Config) (c : ResetContents) :
    (State.resetWith cfg c).outbuf = Mem.ofContents (some cfg.batch) c.outbuf := rfl
@[simp] theorem resetEvent_cfg (c : ResetContents) (s : State) : (s.resetEvent c).cfg = s.cfg := rfl
@[simp] theorem resetEvent_host (c : ResetContents) (s : State) : (s.resetEvent c).host = s.host := rfl
@[simp] theorem resetEvent_dstate (c : ResetContents) (s : State) : (s.resetEvent c).dstate = .idle := rfl
@[simp] theorem resetEvent_freeCount (c : ResetContents) (s : State) : (s.resetEvent c).freeCount = s.freeCount := rfl

end Sys2Proof.Machine
end

