-- ==== Sys2Proof/Laws/PerInstr.lean ====
section
/-!
SUPPORT. The family made per instruction: how many bits each instruction takes, the column `length_bits` of
spec/opcode_table.json (30_encoding.md R95 to R98, R101, R107).
-/

namespace Sys2Proof.Laws.EncodedLength

open Sys2Proof

/-- The length of an instruction in bits, as the opcode table gives it for the space it is read from. -/
def bits (sp : Space) (i : Instr) : Nat :=
  match sp with
  | .command => 3
  | .payload m =>
    match i with
    | .rep _ => 1 + m.br
    | .lit gs => 1 + m.bo + gs.length * m.d
    | .raw _ => m.d
    | .pad => padBits m.pos
    | .opt => 3
    | .enc => 3
    | .asm => 3
    | .ldhdr => 3
    | .dec => 3
    | .reserved0 => 3
    | .reserved67 _ => 3

/-- The encoding of `i` has the length the opcode table gives. -/
def Statement (i : Instr) : Prop :=
  ∀ sp : Space, i.wf sp = true → (encode sp i).length = bits sp i

theorem groups_length (d : Nat) (gs : List Code) :
    (gs.flatMap fun g => fieldBits d g.toNat).length = gs.length * d := by
  induction gs with
  | nil => simp
  | cons g gs ih => rw [List.flatMap_cons, List.length_append, ih, fieldBits_length, List.length_cons]; ring

theorem rep (r : BitVec 7) : Statement (.rep r)
  | .command, h => by cases h
  | .payload m, _ => by simp [encode, encodeBlock, bits, Nat.add_comm]

theorem lit (codes : List Code) : Statement (.lit codes)
  | .command, h => by cases h
  | .payload m, _ => by
    simp only [encode, encodeBlock, bits, List.length_cons, List.length_append, fieldBits_length, groups_length]
    omega

theorem raw (g : Code) : Statement (.raw g)
  | .command, h => by cases h
  | .payload m, _ => by simp [encode, encodeBlock, bits]

theorem pad : Statement .pad
  | .command, h => by cases h
  | .payload m, _ => by simp [encode, encodeBlock, bits]

/-- A command has no encoding in a payload. -/
theorem not_wf_payload {i : Instr} {m : Mode} (h : commandCode i ≠ none) : i.wf (.payload m) = false := by
  cases i <;> simp_all [Instr.wf, commandCode]

theorem of_command {i : Instr} {c : BitVec 3} (h : commandCode i = some c) : Statement i
  | .command, _ => by simp [encode, h, bits]
  | .payload m, hw => by rw [not_wf_payload (by simp [h])] at hw; cases hw

theorem opt : Statement .opt := of_command rfl
theorem enc : Statement .enc := of_command rfl
theorem asm : Statement .asm := of_command rfl
theorem ldhdr : Statement .ldhdr := of_command rfl
theorem dec : Statement .dec := of_command rfl
theorem reserved0 : Statement .reserved0 := of_command rfl
theorem reserved67 (lo : BitVec 1) : Statement (.reserved67 lo) := of_command rfl

end Sys2Proof.Laws.EncodedLength
end

