-- ==== Sys2Proof/Tests/Slice0.lean ====
section
/-!
SUPPORT. The model's own tests: what the well-formedness checks refuse; words written out from the spec's encodings;
steps whose results are the vectors T<n> of spec/95_test_vectors.md; and a witness for each statement with hypotheses.
-/

open Sys2Proof Sys2Proof.Machine

namespace Sys2Proof.Tests

/-! ### Small states -/

/-- The state an outcome holds; the state after reset when it holds none. -/
def after (o : Host.Outcome State Fault Refusal) : State :=
  match o with
  | .next s => s
  | .fault _ => State.reset
  | .refused _ => State.reset

/-- The test palette `PAL[i] = 0x1000 + i`, first `n` entries. -/
def palette (n : Nat) : Mem 16 := Mem.writeList [] 0 ((List.range n).map fun i => BitVec.ofNat 16 (0x1000 + i))

/-- An idle machine that holds an image of `w` by `h` pixels. -/
def image (w h d fl : Nat) (pix : List Nat) (pc : Nat) : State :=
  { State.reset with
    width := BitVec.ofNat 16 w, height := BitVec.ofNat 16 h, bitdepth := BitVec.ofNat 8 d,
    flags := BitVec.ofNat 8 fl, pixin := Mem.writeList [] 0 (pix.map (BitVec.ofNat 16)),
    palcount := BitVec.ofNat 16 pc, pal := palette (min pc 16) }

/-- An idle machine that holds a payload of `w` pixels. -/
def stream (w d fl : Nat) (bytes : List Nat) (pc : Nat) : State :=
  { image w 1 d fl [] pc with
    payload := Mem.writeList [] 0 (bytes.map (BitVec.ofNat 8)), paylen := bytes.length }

/-- The same inside a running `DEC`, before its first block. -/
def running (w d fl : Nat) (bytes : List Nat) (pc : Nat) : State :=
  { stream w d fl bytes pc with dstate := if fl % 2 = 1 then .readControl else .raw }

/-- An idle machine that holds a file. -/
def filed (bytes : List Nat) : State :=
  { State.reset with file := Mem.writeList [] 0 (bytes.map (BitVec.ofNat 8)), filelen := bytes.length }

/-- The payload of T1: `LIT 5; REP 3; LIT 2; REP 1; LIT 9`. -/
def bytesT1 : List Nat := [0x81, 0x54, 0x04, 0x20, 0x90, 0x00]

/-- The file of T45, with the byte at position `k` set to `v`. -/
def fileT45 (k v : Nat) : List Nat :=
  List.set [0x50, 0x48, 0x43, 0x31, 0x2E, 0x30, 0, 0, 0, 0, 0, 4, 0, 2, 2, 0, 0, 1, 0, 0x1A,
    0, 0, 0xF8, 0, 7, 0xE0, 0x85, 0x60] k v

/-- `br = 2`, `bo = 1`, `d = 8`, as in T1. -/
def modeT1 : Mode := { comp := true, br := 2, bo := 1, d := 8, done := false, pos := 0 }

/-! ### Well-formedness: what each check refuses -/

theorem test_wf_rep_width : (Instr.rep 4).wf (.payload modeT1) = false := by decide
theorem test_wf_rep_in_raw : (Instr.rep 0).wf (.payload { modeT1 with comp := false }) = false := by decide
theorem test_wf_rep_after_last_pixel : (Instr.rep 0).wf (.payload { modeT1 with done := true }) = false := by decide
theorem test_wf_lit_empty : (Instr.lit []).wf (.payload modeT1) = false := by decide
theorem test_wf_lit_too_many : (Instr.lit [1, 2, 3]).wf (.payload modeT1) = false := by decide
theorem test_wf_lit_wide_code : (Instr.lit [256]).wf (.payload modeT1) = false := by decide
theorem test_wf_lit_in_raw : (Instr.lit [1]).wf (.payload { modeT1 with comp := false }) = false := by decide
theorem test_wf_lit_after_last_pixel : (Instr.lit [1]).wf (.payload { modeT1 with done := true }) = false := by decide
theorem test_wf_raw_in_compressed : (Instr.raw 1).wf (.payload modeT1) = false := by decide
theorem test_wf_raw_wide_code :
    (Instr.raw 16).wf (.payload { modeT1 with comp := false, d := 4 }) = false := by decide
theorem test_wf_raw_after_last_pixel :
    (Instr.raw 1).wf (.payload { modeT1 with comp := false, done := true }) = false := by decide
theorem test_wf_pad_too_early : Instr.pad.wf (.payload modeT1) = false := by decide
theorem test_wf_block_as_command :
    (Instr.rep 0).wf .command = false ∧ (Instr.lit [1]).wf .command = false ∧ (Instr.raw 1).wf .command = false ∧
      Instr.pad.wf .command = false := by decide
theorem test_wf_command_as_block :
    ∀ i ∈ [Instr.opt, .enc, .asm, .ldhdr, .dec, .reserved0, .reserved67 0], i.wf (.payload modeT1) = false := by
  decide
theorem test_wf_mode_br : Instr.pad.wf (.payload { modeT1 with br := 8, done := true }) = false := by decide
theorem test_wf_mode_bo : Instr.pad.wf (.payload { modeT1 with bo := 8, done := true }) = false := by decide
theorem test_wf_mode_depth_zero : Instr.pad.wf (.payload { modeT1 with d := 0, done := true }) = false := by decide
theorem test_wf_mode_depth_17 : Instr.pad.wf (.payload { modeT1 with d := 17, done := true }) = false := by decide

/-! ### Decoding: words written out from 30_encoding.md R95 to R98, R107, R108 -/

/-- R95 with `br = 7`: control bit 0, then 5 as `0000101`. -/
theorem test_decode_rep :
    decode (.payload { modeT1 with br := 7 }) [false, false, false, false, false, true, false, true, true] =
      .ok (.rep 5, [true]) := rfl
/-- R100: with `br = 0` the control bit is the whole block. -/
theorem test_decode_rep_no_field :
    decode (.payload { modeT1 with br := 0 }) [false, true] = .ok (.rep 0, [true]) := rfl
/-- T61's first block: `1 1 0001 0010` is `LIT 1,2`. -/
theorem test_decode_lit :
    decode (.payload { modeT1 with br := 1, d := 4 })
      [true, true, false, false, false, true, false, false, true, false] = .ok (.lit [1, 2], []) := rfl
/-- R191: a block cut short is refused by name. -/
theorem test_decode_lit_cut :
    decode (.payload modeT1) [true, false, false, false, true] = .error .truncated := rfl
/-- T63's second group: `0010` is `RAW 2`. -/
theorem test_decode_raw :
    decode (.payload { modeT1 with comp := false, d := 4 }) [false, false, true, false, true] =
      .ok (.raw 2, [true]) := rfl
/-- R98: at position 36 twelve bits are pad whatever they are (T5), and those behind them are left. -/
theorem test_decode_pad :
    decode (.payload { modeT1 with done := true, pos := 36 }) (List.replicate 13 true) = .ok (.pad, [true]) := rfl
theorem test_decode_reserved0 : decode .command [false, false, false] = .ok (.reserved0, []) := rfl
theorem test_decode_opt : decode .command [false, false, true] = .ok (.opt, []) := rfl
theorem test_decode_enc : decode .command [false, true, false] = .ok (.enc, []) := rfl
theorem test_decode_asm : decode .command [false, true, true] = .ok (.asm, []) := rfl
theorem test_decode_ldhdr : decode .command [true, false, false] = .ok (.ldhdr, []) := rfl
theorem test_decode_dec : decode .command [true, false, true] = .ok (.dec, []) := rfl
theorem test_decode_reserved6 : decode .command [true, true, false] = .ok (.reserved67 0, []) := rfl
theorem test_decode_reserved7 : decode .command [true, true, true] = .ok (.reserved67 1, []) := rfl
/-- A mode no header can hold is refused by name. -/
theorem test_decode_bad_mode : decode (.payload { modeT1 with d := 0 }) [true] = .error .badMode := rfl

/-- The encodings of T1's first two blocks. -/
theorem test_encode_blocks :
    encode (.payload modeT1) (.lit [5]) = [true, false, false, false, false, false, false, true, false, true] ∧
      encode (.payload modeT1) (.rep 2) = [false, true, false] := by decide

/-- The table's numbering: bit 0 is the control bit, a one-byte word of a code is the command (log 7). -/
theorem test_table_words :
    decodeTableWord 8 5 = some .dec ∧ decodeTableWord 8 6 = some (.reserved67 0) ∧
      decodeTableWord 8 0x80 = some (.rep 1) ∧ decodeTableWord 24 0x800001 = some (.lit [1]) ∧
      decodeTableWord 16 0x8000 = some (.raw 1) := by decide +kernel

/-! ### One step each, on the spec's vectors -/

/-- T50 inside `DEC`: the block `REP 3` at 10 after the pixel `1005`. -/
theorem test_rep :
    let s := { running 7 8 0x15 bytesT1 16 with cur := 10, pixemit := 1, outcnt := 1, lastpix := 0x1005, lastv := true,
                                                 outbuf := [(0, 0x1005)] }
    let t := after (step s)
    t.cur = 13 ∧ t.pixemit = 4 ∧ t.outcnt = 0 ∧ t.sink = [[0x1005, 0x1005, 0x1005, 0x1005]] ∧ t.cnt = 0 := by
  decide +kernel

/-- T58: `REP` as the first block. -/
theorem test_rep_no_base :
    let t := after (step (running 4 4 0x01 [0, 0] 16))
    t.status = 0x32 ∧ t.errinfo = 0 ∧ t.cur = 0 ∧ t.dstate = .faulted := by decide +kernel

/-- T61: `LIT 1,2` at 0. -/
theorem test_lit :
    let t := after (step (running 4 4 0x13 [0xC4, 0x80] 16))
    t.cur = 10 ∧ t.pixemit = 2 ∧ t.lastpix = 0x1002 ∧ t.lastv = true ∧ t.outbuf.readList 0 2 = [0x1001, 0x1002] := by
  decide +kernel

/-- T60: the `LIT` of two codes where one pixel is wanted. -/
theorem test_lit_overrun :
    let t := after (step (running 1 4 0x13 [0xC4, 0x80] 16))
    t.status = 0x42 ∧ t.errinfo = 0 ∧ t.cur = 0 ∧ t.pixemit = 0 := by decide +kernel

/-- T65: the first raw group at depth 16. -/
theorem test_raw :
    let t := after (step (running 2 16 0 [0xF8, 0x00, 0x07, 0xE0] 0))
    t.cur = 16 ∧ t.lastpix = 0xF800 ∧ t.pixemit = 1 ∧ t.outcnt = 1 := by decide +kernel

/-- T64: the raw payload cut short at 16. -/
theorem test_raw_cut :
    let t := after (step { running 5 4 0 [0x12, 0x34] 16 with cur := 16, pixemit := 4 })
    t.status = 0x12 ∧ t.errinfo = 16 ∧ t.cur = 16 := by decide +kernel

/-- T62: no pixel wanted, nothing is read. -/
theorem test_pad :
    let t := after (step (running 0 4 0x13 [0xFF, 0xFF] 16))
    t.status = 0x01 ∧ t.cur = 0 ∧ t.pixemit = 0 ∧ t.dstate.code = 5 ∧ t.sink = [] := by decide +kernel

/-- T11: the widths 5 and 0, `COMP` kept: `FLAGS` goes from `0x01` to `0x0B`. -/
theorem test_opt :
    (after (exec .opt (image 20 1 4 0x01 (List.replicate 20 7) 0))).flags = 0x0B := by decide +kernel

/-- T16: a tie at `bo` goes to the lesser width. -/
theorem test_opt_tie :
    (after (exec .opt (image 8 2 2 0 [1, 1, 1, 1, 1, 1, 1, 1, 1, 0, 2, 0, 2, 0, 2, 3] 0))).flags = 0x06 := by
  decide +kernel

/-- T1: the worked example. -/
theorem test_enc :
    let t := after (exec .enc (image 7 1 8 0x14 [5, 5, 5, 5, 2, 2, 9] 0))
    t.payload.readList 0 6 = [0x81, 0x54, 0x04, 0x20, 0x90, 0x00] ∧ t.paylen = 6 ∧ t.wcur = 48 ∧ t.flags = 0x15 := by
  decide +kernel

/-- T30: the raw fallback. -/
theorem test_enc_fallback :
    let t := after (exec .enc (image 16 1 1 0x40 [0, 1, 0, 1, 0, 1, 0, 1, 0, 1, 0, 1, 0, 1, 0, 1] 0))
    t.payload.readList 0 2 = [0x55, 0x55] ∧ t.paylen = 2 ∧ t.flags = 0x40 := by decide +kernel

/-- T45: the file of a 4 by 2 image with three palette entries. -/
theorem test_asm :
    let s := { stream 4 2 0x01 [0x85, 0x60] 3 with height := 2, pal := [(1, 0xF800), (2, 0x07E0)] }
    let t := after (exec .asm s)
    t.file = (filed (fileT45 28 0)).file ∧ t.filelen = 28 ∧ t.paloff = 26 := by decide +kernel

/-- Section 5: five entries do not fit depth 2. -/
theorem test_asm_palette_too_long :
    let t := after (exec .asm (stream 4 2 0x01 [0x85, 0x60] 5))
    t.status = 0x52 ∧ t.errinfo = 2 ∧ t.filelen = 0 := by decide +kernel

/-- T45 loaded back. -/
theorem test_ldhdr :
    let t := after (exec .ldhdr (filed (fileT45 28 0)))
    t.status = 0x01 ∧ t.width = 4 ∧ t.height = 2 ∧ t.bitdepth = 2 ∧ t.flags = 0x01 ∧ t.paloff = 26 ∧ t.palcount = 3 ∧
      t.pal.readList 0 3 = [0x0000, 0xF800, 0x07E0] ∧ t.paylen = 2 ∧ t.payload.readList 0 2 = [0x85, 0x60] := by
  decide +kernel

/-- T48g: an odd palette length. -/
theorem test_ldhdr_odd_palette :
    let t := after (exec .ldhdr (filed (fileT45 19 0x1B)))
    t.status = 0x72 ∧ t.errinfo = 5 ∧ t.width = 0 := by decide +kernel

/-- T50: the worked example decoded; register 13 shows `LASTV` above the colour (R34, log 23). -/
theorem test_dec :
    let t := after (exec .dec (stream 7 8 0x15 bytesT1 16))
    t.sink = [[0x1005, 0x1005, 0x1005, 0x1005], [0x1002, 0x1002, 0x1009]] ∧ t.status = 0x01 ∧ t.cur = 36 ∧
      t.outcnt = 0 ∧ t.lastpix = 0x1009 ∧ t.readReg .lastpix = some 0x11009 := by decide +kernel

/-- T53: the payload cut at 28. -/
theorem test_dec_cut :
    let t := after (exec .dec (stream 7 8 0x15 [0x81, 0x54, 0x04, 0x20] 16))
    t.status = 0x12 ∧ t.errinfo = 28 ∧ t.cur = 28 ∧ t.pixemit = 6 ∧ t.outcnt = 2 ∧ t.cnt = 1 := by decide +kernel

/-- T83: the reserved codes. -/
theorem test_reserved0 : exec .reserved0 State.reset = .next { State.reset with status := 0x92, errinfo := 0 } := rfl
theorem test_reserved67 :
    exec (.reserved67 1) State.reset = .next { State.reset with status := 0x92, errinfo := 7 } := rfl

/-- T80 with R281: a reset clears the registers and leaves whatever contents it finds, here two bytes of a bounded
`PAYLOAD` and the bits of `LASTPIX`, with `LASTV = 0`. -/
theorem test_reset :
    let c : ResetContents :=
      { lastpix := 0xBEEF, pixin := [], pal := [], payload := [0x81, 0x54, 0x04], file := [], outbuf := [] }
    let cfg : Config :=
      { batch := 4, pixinCap := none, payloadCap := some 2, fileCap := none, legal := ⟨by decide, by decide⟩ }
    let t := after (step { stream 7 8 0x15 bytesT1 16 with host := [.reset c], cfg := cfg })
    t.payload = [(0, 0x81), (1, 0x54)] ∧ t.paylen = 0 ∧ t.width = 0 ∧ t.sink = [] ∧ t.lastv = false ∧
      t.readReg .lastpix = some 0xBEEF := by decide +kernel

/-- A table word placed after reset is what the next step runs: `LDHDR` (T82) and a `LIT`. -/
theorem test_fetch_word :
    (after (step (State.reset.withFetchWord 8 4))).status = 0x72 ∧
      (after (step (State.reset.withFetchWord 24 0x800001))).lastpix = 1 := by decide +kernel

/-! ### Witnesses: for each statement with hypotheses, states and operands that meet them -/

/-- An outcome that goes on is the next state it holds. -/
def goesOn (o : Host.Outcome State Fault Refusal) : Bool :=
  match o with
  | .next _ => true
  | .fault _ => false
  | .refused _ => false

theorem next_after (o : Host.Outcome State Fault Refusal) (h : goesOn o = true) : o = .next (after o) := by
  cases o with
  | next s => rfl
  | fault r => cases h
  | refused r => cases h

/-- A property of every member, tested member by member. -/
theorem all_of {α : Type} {p : α → Prop} [DecidablePred p] (l : List α) (h : l.all (fun c => decide (p c)) = true) :
    ∀ c ∈ l, p c := by
  simpa using h

/-- An idle machine with the image of T1. -/
def imageT1 : State := image 7 1 8 0x14 [5, 5, 5, 5, 2, 2, 9] 16

/-- A machine with the payload of T1, idle or inside `DEC`. -/
def streamT1 : State := stream 7 8 0x15 bytesT1 16
def runningT1 : State := running 7 8 0x15 bytesT1 16

/-- A machine with one host access to take. -/
def hosted (op : HostOp) : State := { State.reset with host := [op] }

/-- Parameters with every memory bounded. -/
def bounded (pixin payload file : Nat) (h : 20 ≤ file := by decide +kernel) : Config :=
  { batch := 4, pixinCap := some pixin, payloadCap := some payload, fileCap := some file, legal :=
  ⟨by decide +kernel, h⟩ }

/-- DecodeOfEncode: the widest and the narrowest operands of each block, and a command. -/
theorem witness_decode_of_encode :
    (Instr.rep 127).wf (.payload { modeT1 with br := 7 }) = true ∧
      (Instr.rep 0).wf (.payload { modeT1 with br := 0 }) = true ∧
      (Instr.lit [255, 255]).wf (.payload modeT1) = true ∧
      (Instr.lit [1]).wf (.payload { modeT1 with bo := 0, d := 1 }) = true ∧
      (Instr.raw 0xFFFF).wf (.payload { modeT1 with comp := false, d := 16 }) = true ∧
      Instr.pad.wf (.payload { modeT1 with done := true, pos := 33 }) = true ∧
      (Instr.reserved67 1).wf .command = true := by decide +kernel

/-- EncodeOfDecode. -/
theorem witness_encode_of_decode :
    decode (.payload { modeT1 with br := 0 }) [false, true] = .ok (.rep 0, [true]) ∧ Instr.rep 0 ≠ .pad :=
  ⟨rfl, by decide +kernel⟩

/-- StepRunsBlockAtCur, in both grammars. -/
theorem witness_step_runs_block :
    decode (.payload runningT1.mode)
        (runningT1.bitsFrom runningT1.cur (min 2056 (8 * runningT1.paylen - runningT1.cur))) =
      .ok (.lit [5], runningT1.bitsFrom 10 38) ∧
    runningT1.dstate = .readControl ∧ (running 2 16 0 [0xF8, 0] 0).dstate = .raw ∧
    decode (.payload (running 2 16 0 [0xF8, 0] 0).mode) ((running 2 16 0 [0xF8, 0] 0).bitsFrom 0 16) =
      .ok (.raw 0xF800, []) :=
  ⟨by rfl, rfl, rfl, by rfl⟩

/-- StepRunsCommandWritten, StepWaitsWhenIdle. -/
theorem witness_step_runs_command :
    (hosted (.writeReg .cmd 253)).dstate.active = false ∧
      (hosted (.writeReg .cmd 253)).host = [.writeReg .cmd 253] ∧
      State.reset.dstate.active = false ∧ State.reset.host = [] := by decide +kernel

/-- RunningDecWritesOnlyItsOwn. -/
theorem witness_running_dec :
    runningT1.dstate.active = true ∧ step runningT1 = .next (after (step runningT1)) :=
  ⟨rfl, next_after _ (by decide +kernel)⟩

/-- CommandsRefusedWhileDecRuns, BlocksRefusedOutsideDec. -/
theorem witness_refusals :
    runningT1.dstate.active = true ∧ Instr.dec.wf .command = true ∧ State.reset.dstate ≠ .readControl ∧
      State.reset.dstate ≠ .raw := by decide +kernel

/-- Unspecified contents a reset may leave (R281). -/
def contents : ResetContents :=
  { lastpix := 0xBEEF, pixin := [7, 8], pal := [9], payload := [0, 0xFF, 0x33], file := [], outbuf := [1, 2, 3, 4, 5] }

/-- ResetLeaves. -/
theorem witness_reset :
    ({ streamT1 with host := [.reset contents] } : State).dstate.active = false ∧
      ({ streamT1 with host := [.reset contents] } : State).host = [.reset contents] := by decide +kernel

/-- ResetIsLegal: the last element that exists of a bounded memory and of `OUTBUF`, and one that does not exist. -/
theorem witness_reset_contents :
    contents.payload[1]? = some 0xFF ∧ exceeds (1 + 1) (bounded 2 2 20).payloadCap = false ∧
      contents.payload[2]? = some 0x33 ∧ exceeds (2 + 1) (bounded 2 2 20).payloadCap = true ∧
      contents.outbuf[3]? = some 4 ∧ 3 < (bounded 2 2 20).batch := by decide +kernel

/-- BadDepthRaisesBadConfig, at 0 and at 17. -/
theorem witness_bad_depth :
    (image 1 1 0 0 [] 0).dstate.active = false ∧ (image 1 1 0 0 [] 0).bitdepth.toNat < 1 ∧
      (image 1 1 17 0 [] 0).dstate.active = false ∧ 16 < (image 1 1 17 0 [] 0).bitdepth.toNat := by decide +kernel

/-- ReservedCodeRaisesBadCommand, for each code and for a value above 7. -/
theorem witness_reserved_codes :
    ∀ v ∈ [0, 6, 7, 255], (hosted (.writeReg .cmd v)).dstate.active = false ∧
      (hosted (.writeReg .cmd v)).host = [.writeReg .cmd v] ∧ (v % 8 = 0 ∨ v % 8 = 6 ∨ v % 8 = 7) := by decide +kernel

/-- ReservedInstructionsRaise, CommandEndsDoneOrFaulted. -/
theorem witness_commands :
    State.reset.dstate.active = false ∧
      ∀ i ∈ [Instr.opt, .enc, .asm, .ldhdr, .dec, .reserved0, .reserved67 1], i.wf .command = true := by decide +kernel

/-- FaultedCommandWritesNothingElse. -/
theorem witness_faulted_command :
    exec .opt State.reset = .next { State.reset with status := 0x52, errinfo := 1 } ∧
      exec .enc State.reset = .next { State.reset with status := 0x52, errinfo := 1 } ∧
      exec .asm State.reset = .next { State.reset with status := 0x52, errinfo := 1 } ∧
      exec .ldhdr State.reset = .next { State.reset with status := 0x72, errinfo := 1 } ∧
      ({ State.reset with status := 0x52, errinfo := 1 } : State).statusErr = true ∧
      ({ State.reset with status := 0x72, errinfo := 1 } : State).statusErr = true :=
  ⟨rfl, rfl, rfl, rfl, rfl, rfl⟩

/-- CommandsWriteOnlyTheirResults and EncSizeBound: each command completes. -/
theorem witness_completed_commands :
    exec .opt imageT1 = .next (after (exec .opt imageT1)) ∧ exec .enc imageT1 = .next (after (exec .enc imageT1)) ∧
      (after (exec .enc imageT1)).statusDone = true ∧
      exec .asm streamT1 = .next (after (exec .asm streamT1)) ∧
      exec .ldhdr (filed (fileT45 28 0)) = .next (after (exec .ldhdr (filed (fileT45 28 0)))) ∧
      exec .dec streamT1 = .next (after (exec .dec streamT1)) :=
  ⟨next_after _ (by decide +kernel), next_after _ (by decide +kernel), by decide +kernel,
    next_after _ (by decide +kernel), next_after _ (by decide +kernel), next_after _ (by decide +kernel)⟩

/-- OptChoosesLeastBest, at the widest code and a full `PIXIN`. -/
theorem witness_opt :
    let s := { image 2 1 4 0 [15, 0] 0 with cfg := bounded 2 0 20 }
    s.dstate.active = false ∧ s.PixelsLegal :=
  ⟨by decide +kernel, by decide +kernel, by decide +kernel, all_of _ (by decide +kernel)⟩

/-- OptMinimisesStreamLength, BlocksStandForTheSequence, RepBlocksAreFullThenRemainder, LitBlocksCutTheSpan. -/
theorem witness_widths :
    (1 ≤ 16 ∧ 16 ≤ 16 ∧ 7 ≤ 7 ∧ 0 ≤ 7) ∧ (∀ c ∈ [(1 : Code), 1, 0], c.toNat < 2 ^ 1) ∧ [(1 : Code), 1, 0] ≠ [] :=
  ⟨by decide +kernel, all_of _ (by decide +kernel), by decide +kernel⟩

/-- EncodeInputFaults: one pixel too many, and two wide codes of which the first is reported. -/
theorem witness_encode_input_faults :
    let s := { image 3 1 4 0 [15, 16, 17] 0 with cfg := bounded 2 0 20 }
    let u := image 3 1 4 0 [15, 16, 17] 0
    s.dstate.active = false ∧ s.depthOk = true ∧ exceeds s.pixelCount s.cfg.pixinCap = true ∧
      u.dstate.active = false ∧ u.depthOk = true ∧ exceeds u.pixelCount u.cfg.pixinCap = false ∧
      1 < u.pixelCount ∧ 2 ^ u.depth ≤ (u.pixin.read 1).toNat ∧ ∀ k, k < 1 → (u.pixin.read k).toNat < 2 ^ u.depth := by
  decide +kernel

/-- PixelsAboveNDoNotMatter: another element at `N`. -/
theorem witness_pixels_above :
    let p : Mem 16 := [(0, 5), (1, 5), (2, 5), (3, 5), (4, 2), (5, 2), (6, 9), (7, 0xFFFF)]
    (∀ j, j < imageT1.pixelCount → p.read j = imageT1.pixin.read j) ∧
      exec .enc imageT1 = .next (after (exec .enc imageT1)) := ⟨by decide +kernel, next_after _ (by decide +kernel)⟩

/-- EncWritesTheStream, with the payload as long as `PAYLOAD` is; EncPayloadTooLong, one byte shorter. -/
theorem witness_enc :
    let s := { imageT1 with cfg := bounded 7 6 20 }
    let u := { imageT1 with cfg := bounded 7 5 20 }
    s.dstate.active = false ∧ s.PixelsLegal ∧
      exceeds ((payloadBits s.depth s.br s.bo s.pixels).length / 8) s.cfg.payloadCap = false ∧
      u.dstate.active = false ∧ u.PixelsLegal ∧
      exceeds ((payloadBits u.depth u.br u.bo u.pixels).length / 8) u.cfg.payloadCap = true :=
  ⟨rfl, ⟨by decide +kernel, by decide +kernel, all_of _ (by decide +kernel)⟩, by decide +kernel, rfl,
    ⟨by decide +kernel, by decide +kernel, all_of _ (by decide +kernel)⟩,
    by decide +kernel⟩

/-- EncOfEmptyImage: no height. -/
theorem witness_enc_empty :
    (image 5 0 16 0 [] 0).dstate.active = false ∧ (image 5 0 16 0 [] 0).depthOk = true ∧
      (image 5 0 16 0 [] 0).pixelCount = 0 := by decide +kernel

/-- AsmBuildsTheFile: the largest palette of depth 15 (R173), a full one of depth 4 in a full `FILE`, and depth 16. -/
theorem witness_asm :
    let s := { stream 4 4 0x01 [0x85, 0x60] 16 with cfg := bounded 0 2 54 }
    s.dstate.active = false ∧ s.depthOk = true ∧ s.PaletteLegal ∧ exceeds s.paylen s.cfg.payloadCap = false ∧
      exceeds (20 + 2 * 16 + s.paylen) s.cfg.fileCap = false ∧
      (stream 1 15 0 [] 32757).PaletteLegal ∧ (stream 1 16 0 [] 99).PaletteLegal :=
  ⟨by decide +kernel, by decide +kernel, .inr (by decide +kernel), by decide +kernel, by decide +kernel,
    .inr (by decide +kernel), .inl (by decide +kernel)⟩

/-- AsmFaults, clause by clause. -/
theorem witness_asm_faults :
    (let s := stream 1 2 0 [] 5;
      s.dstate.active = false ∧ s.depthOk = true ∧ s.depth ≠ 16 ∧ 2 ^ s.depth < s.palcount.toNat) ∧
    (let s := stream 1 15 0 [] 32758;
      s.dstate.active = false ∧ s.depthOk = true ∧ s.depth ≠ 16 ∧ s.palcount.toNat ≤ 2 ^ s.depth ∧
        65535 < 20 + 2 * s.palcount.toNat) ∧
    (let s := { stream 1 4 0 [1, 2] 16 with cfg := bounded 0 1 20 };
      s.dstate.active = false ∧ s.depthOk = true ∧ s.PaletteLegal ∧ exceeds s.paylen s.cfg.payloadCap = true) ∧
    (let s := { stream 1 4 0 [1, 2] 16 with cfg := bounded 0 2 53 };
      s.dstate.active = false ∧ s.depthOk = true ∧ s.PaletteLegal ∧ exceeds s.paylen s.cfg.payloadCap = false ∧
        exceeds (20 + 2 * 16 + s.paylen) s.cfg.fileCap = true) :=
  ⟨by decide +kernel, by decide +kernel, ⟨by decide +kernel, by decide +kernel, .inr (by decide +kernel),
    by decide +kernel⟩, ⟨by decide +kernel, by decide +kernel, .inr (by decide +kernel), by decide +kernel,
    by decide +kernel⟩⟩

/-- LdhdrLoadsTheFile, with an empty payload (T48i) and with a file that fills its memory. -/
theorem witness_ldhdr :
    ∀ k ∈ [0x14, 0x1A, 0x1C],
      let s := { filed (fileT45 19 k) with cfg := bounded 0 8 28 }
      s.dstate.active = false ∧ exceeds s.filelen s.cfg.fileCap = false ∧ 20 ≤ s.filelen ∧
      s.file.readList 0 10 = [0x50, 0x48, 0x43, 0x31, 0x2E, 0x30, 0, 0, 0, 0] ∧
      1 ≤ (s.file.read 14).toNat ∧ (s.file.read 14).toNat ≤ 16 ∧
      256 * (s.file.read 18).toNat + (s.file.read 19).toNat = k ∧ 20 ≤ k ∧ k ≤ s.filelen ∧ (k - 20) % 2 = 0 ∧
      exceeds (s.filelen - k) s.cfg.payloadCap = false := by decide +kernel

/-- LdhdrFaults: the vectors T48a to T48g and the two capacities reach each branch in turn. -/
theorem witness_ldhdr_faults :
    let ends := fun (s : State) => ((after (exec .ldhdr s)).status, (after (exec .ldhdr s)).errinfo)
    ends { filed (fileT45 28 0) with cfg := bounded 0 8 27 } = (0x82, 3) ∧
    ends { filed (fileT45 28 0) with filelen := 19 } = (0x72, 1) ∧ ends (filed (fileT45 5 0x31)) = (0x72, 2) ∧
    ends (filed (fileT45 14 0)) = (0x72, 3) ∧ ends (filed (fileT45 14 17)) = (0x72, 3) ∧
    ends (filed (fileT45 19 0x12)) = (0x72, 4) ∧ ends (filed (fileT45 19 0x1E)) = (0x72, 4) ∧
    ends (filed (fileT45 19 0x1B)) = (0x72, 5) ∧
    ends { filed (fileT45 28 0) with cfg := bounded 0 1 28 } = (0x82, 2) := by decide +kernel

/-- LdhdrInvertsAsm: another machine that holds the file just assembled. -/
theorem witness_ldhdr_inverts :
    let t := after (exec .asm streamT1)
    let u := { State.reset with file := t.file, filelen := t.filelen }
    exec .asm streamT1 = .next t ∧ t.statusDone = true ∧ u.dstate.active = false ∧
      exceeds t.filelen u.cfg.fileCap = false ∧ exceeds t.paylen u.cfg.payloadCap = false ∧
      u.filelen = t.filelen ∧ (∀ a, a < t.filelen → u.file.read a = t.file.read a) :=
  ⟨next_after _ (by decide +kernel), by decide +kernel, rfl, by decide +kernel, by decide +kernel, rfl, fun _ _ => rfl⟩

/-- GetBitsIsTheSumOfItsBits: the last bits there are, and one more. -/
theorem witness_get_bits :
    let s := { streamT1 with cur := 45 }
    (3 ≠ 0 ∧ s.cur + 3 ≤ 8 * s.paylen) ∧ 4 ≠ 0 ∧ 8 * s.paylen < s.cur + 4 := by decide +kernel

/-- RepRepeatsTheLastColour: as many repeats as pixels are wanted. RepFaults: no base pixel; one repeat too many. -/
theorem witness_rep :
    let s := { running 4 4 0x0F [0, 0] 16 with lastv := true }
    let u := { running 4 4 0x0F [0, 0] 16 with lastv := false }
    (s.dstate = .readControl ∧ s.outcnt < s.cfg.batch ∧ (Instr.rep 3).wf (.payload s.mode) = true ∧ s.lastv = true ∧
      (3 : BitVec 7).toNat + 1 ≤ s.pixelCount - s.pixemit) ∧
    (u.dstate = .readControl ∧ u.outcnt < u.cfg.batch ∧ (Instr.rep 3).wf (.payload u.mode) = true ∧ u.lastv = false) ∧
    (Instr.rep 4).wf (.payload s.mode) = true ∧ s.pixelCount - s.pixemit < (4 : BitVec 7).toNat + 1 := by decide +kernel

/-- LitEmitsItsColours: the last palette entry, as many codes as pixels are wanted. LitFaults: one code too many; a
code without an entry, as the first code and as the second. -/
theorem witness_lit :
    let s := running 2 4 0x71 [0x80] 15
    (s.dstate = .readControl ∧ s.outcnt < s.cfg.batch ∧ (Instr.lit [0, 14]).wf (.payload s.mode) = true ∧
      [(0 : Code), 14].length ≤ s.pixelCount - s.pixemit ∧ s.Resolves [0, 14]) ∧
    ((Instr.lit [0, 0, 0]).wf (.payload s.mode) = true ∧ s.pixelCount - s.pixemit < [(0 : Code), 0, 0].length) ∧
    ((Instr.lit [15, 0]).wf (.payload s.mode) = true ∧ s.depth ≠ 16 ∧ s.palcount.toNat ≤ (15 : Code).toNat) ∧
    ((Instr.lit [14, 15]).wf (.payload s.mode) = true ∧ ∀ x ∈ [(14 : Code)], x.toNat < s.palcount.toNat) :=
  ⟨⟨by decide +kernel, by decide +kernel, by decide +kernel, by decide +kernel, .inr (all_of _ (by decide +kernel))⟩,
    by decide +kernel, by decide +kernel, by decide +kernel,
    all_of _ (by decide +kernel)⟩

/-- RawEmitsItsColour, with and without an entry. -/
theorem witness_raw :
    let s := running 2 4 0x00 [0x80] 15
    s.dstate = .raw ∧ s.outcnt < s.cfg.batch ∧ (Instr.raw 14).wf (.payload s.mode) = true ∧ s.Resolves [14] ∧
      (Instr.raw 15).wf (.payload s.mode) = true ∧ ¬ s.Resolves [15] :=
  ⟨by decide +kernel, by decide +kernel, by decide +kernel, .inr (all_of _ (by decide +kernel)), by decide +kernel,
    fun h => by
    rcases h with h | h
    · exact absurd h (by decide +kernel)
    · exact absurd (h 15 (by decide +kernel)) (by decide +kernel)⟩

/-- PadEndsTheDecode, with a partial buffer and with an empty one, in both grammars. -/
theorem witness_pad :
    let s := { runningT1 with pixemit := 7, outcnt := 3, cur := 36 }
    let u := running 0 4 0x00 [] 0
    (s.dstate = .readControl ∧ s.outcnt < s.cfg.batch ∧ s.depthOk = true ∧ s.pixemit = s.pixelCount ∧ s.status = 0) ∧
      u.dstate = .raw ∧ u.outcnt < u.cfg.batch ∧ u.depthOk = true ∧ u.pixemit = u.pixelCount ∧ u.status = 0 := by
  decide +kernel

/-- FaultingStepIsPrecise: a step that faults of each of the four kinds. -/
theorem witness_faulting_steps :
    (let s := running 1 4 0x01 [] 16; s.dstate.active = true ∧ s.decStep.dstate = .faulted ∧ s.decStep.status = 0x12) ∧
    (let s := { running 1 4 0x01 [0xF0] 15 with dstate := .literal, cnt := 1 };
      s.dstate.active = true ∧ s.decStep.dstate = .faulted ∧ s.decStep.status = 0x22) ∧
    (let s := running 1 4 0x01 [0x00] 16; s.dstate.active = true ∧ s.decStep.dstate = .faulted ∧
      s.decStep.status = 0x32) ∧
    (let s := running 1 4 0x13 [0xC4, 0x80] 16;
      s.dstate.active = true ∧ s.decStep.dstate = .faulted ∧ s.decStep.status = 0x42) := by decide +kernel

/-- CutStreamRaisesTruncated: no bit left, a cut `LIT` field, a cut `REP` field, a cut group, a cut raw group. -/
theorem witness_cut_stream :
    (let s := { running 9 4 0x7F [0x01] 16 with cur := 8 };
      s.depthOk = true ∧ s.pixemit ≠ s.pixelCount ∧ s.dstate = .readControl ∧ 8 * s.paylen < s.cur + 1) ∧
    (let s := { running 9 4 0x7F [0x01] 16 with cur := 7 };
      s.depthOk = true ∧ s.pixemit ≠ s.pixelCount ∧ s.dstate = .readControl ∧ s.bit s.cur = true ∧
        8 * s.paylen < s.cur + (1 + s.bo)) ∧
    (let s := { running 9 4 0x7F [0x01] 16 with cur := 1 };
      s.depthOk = true ∧ s.pixemit ≠ s.pixelCount ∧ s.dstate = .readControl ∧ s.bit s.cur = false ∧
        8 * s.paylen < s.cur + (1 + s.br)) ∧
    (let s := { running 9 4 0x7F [0x01] 16 with cur := 5, dstate := .literal };
      s.depthOk = true ∧ s.pixemit ≠ s.pixelCount ∧ s.dstate = .literal ∧ 8 * s.paylen < s.cur + s.depth) ∧
    (let s := { running 9 4 0x00 [0x01] 16 with cur := 5 };
      s.depthOk = true ∧ s.pixemit ≠ s.pixelCount ∧ s.dstate = .raw ∧
      8 * s.paylen < s.cur + s.depth) := by decide +kernel

/-- BlockIsItsSteps. -/
theorem witness_block_steps :
    runningT1.dstate = .readControl ∧
      decode (.payload runningT1.mode) runningT1.window = .ok (.lit [5], runningT1.bitsFrom 10 38) ∧
      exec (.lit [5]) runningT1 = .next (after (exec (.lit [5]) runningT1)) :=
  ⟨rfl, by rfl, next_after _ (by decide +kernel)⟩

/-- DecPayloadTooLong: one byte too many. -/
theorem witness_dec_too_long :
    let s := { streamT1 with cfg := bounded 0 5 20 }
    s.dstate.active = false ∧ s.depthOk = true ∧ exceeds s.paylen s.cfg.payloadCap = true := by decide +kernel

/-- DecEndsWithNPixels: from an idle machine it ends in `Terminal` (T50) or in `Faulted` (T53). -/
theorem witness_dec_ends :
    streamT1.dstate.active = false ∧ (after (exec .dec streamT1)).dstate = .terminal ∧
      (after (exec .dec (stream 7 8 0x15 [0x81, 0x54, 0x04, 0x20] 16))).dstate = .faulted := by decide +kernel

/-- BatchesCutTheList. -/
theorem witness_batches : 1 ≤ 1 ∧ 0 < (batches 1 [(5 : Colour)]).length := by decide +kernel

/-- DecExecutesItsBlocks: the blocks of T1, its pad behind them. -/
theorem witness_dec_blocks :
    let s := streamT1
    let is := [Instr.lit [5], .rep 2, .lit [2], .rep 0, .lit [9]]
    let m := streamMode s.depth s.br s.bo
    s.dstate.active = false ∧ s.depthOk = true ∧ exceeds s.paylen s.cfg.payloadCap = false ∧ s.comp = true ∧
      (∀ i ∈ is, i.wf (.payload m) = true) ∧ (∀ i, is.head? = some i → ∃ gs, i = .lit gs) ∧
      s.bitsFrom 0 (8 * s.paylen) = blockStream m is ++ List.replicate 12 false ∧
      (expand 0 is).length = s.pixelCount ∧ s.Resolves (expand 0 is) :=
  ⟨rfl, by decide +kernel, rfl, by decide +kernel, all_of _ (by decide +kernel), fun _ h => ⟨[5],
    (Option.some.inj h).symm⟩, by decide +kernel, by decide +kernel,
    .inr (all_of _ (by decide +kernel))⟩

/-- DecExecutesRawGroups: T65. -/
theorem witness_dec_raw :
    let s := stream 2 16 0 [0xF8, 0x00, 0x07, 0xE0] 0
    let codes : List Code := [0xF800, 0x07E0]
    s.dstate.active = false ∧ s.depthOk = true ∧ exceeds s.paylen s.cfg.payloadCap = false ∧ s.comp = false ∧
      codes.length = s.pixelCount ∧ (∀ c ∈ codes, c.toNat < 2 ^ s.depth) ∧
      s.bitsFrom 0 (8 * s.paylen) = rawStream s.depth codes ++ [] ∧ s.Resolves codes :=
  ⟨rfl, by decide +kernel, rfl, by decide +kernel, by decide +kernel, all_of _ (by decide +kernel), by decide +kernel,
    .inl (by decide +kernel)⟩

/-- TrailingBitsDoNotMatter: T50 against T51, whose pad bits are set. -/
theorem witness_trailing_bits :
    let t := after (exec .dec streamT1)
    let p : Mem 8 := [(0, 0x81), (1, 0x54), (2, 0x04), (3, 0x20), (4, 0x9F), (5, 0xFF)]
    exec .dec streamT1 = .next t ∧ t.dstate = .terminal ∧ exceeds 6 streamT1.cfg.payloadCap = false ∧ t.cur ≤ 8 * 6 ∧
      ∀ k, k < t.cur → (p.read (k / 8)).getLsbD (7 - k % 8) = streamT1.bit k :=
  ⟨next_after _ (by decide +kernel), by decide +kernel, rfl, by decide +kernel, by decide +kernel⟩

/-- DecIsARunOfSteps. -/
theorem witness_dec_run :
    streamT1.depthOk = true ∧ exceeds streamT1.paylen streamT1.cfg.payloadCap = false ∧
      exec .dec streamT1 = .next (after (exec .dec streamT1)) :=
  ⟨by decide +kernel, rfl, next_after _ (by decide +kernel)⟩

/-- DecodeInvertsEncode. -/
theorem witness_decode_inverts :
    exec .enc imageT1 = .next (after (exec .enc imageT1)) ∧ (after (exec .enc imageT1)).statusDone = true ∧
      imageT1.Resolves imageT1.pixels :=
  ⟨next_after _ (by decide +kernel), by decide +kernel, .inr (all_of _ (by decide +kernel))⟩

/-- FileCarriesTheImage: T1's image, and its file on a machine after reset. -/
theorem witness_file_carries :
    let b := after (exec .enc (after (exec .opt imageT1)))
    let c := after (exec .asm b)
    let u := { State.reset with file := c.file, filelen := c.filelen }
    imageT1.dstate.active = false ∧ imageT1.cfg.Unbounded ∧ imageT1.PixelsLegal ∧ imageT1.PaletteLegal ∧
      imageT1.Resolves imageT1.pixels ∧ u.dstate.active = false ∧ u.cfg.Unbounded ∧ u.filelen = c.filelen ∧
      ∀ k, k < c.filelen → u.file.read k = c.file.read k :=
  ⟨rfl, ⟨rfl, rfl, rfl⟩, ⟨by decide +kernel, by decide +kernel, all_of _ (by decide +kernel)⟩,
    .inr (by decide +kernel), .inr (all_of _ (by decide +kernel)), rfl,
    ⟨rfl, rfl, rfl⟩, rfl, fun _ _ => rfl⟩

/-- HostWritesRegisters: the greatest value of each width, and a read-only register. -/
theorem witness_host_registers :
    (hosted (.writeReg .palcount 0xFFFF)).host = [.writeReg .palcount 0xFFFF] ∧ 0xFFFF < 2 ^ 16 ∧
      (hosted (.writeReg .bitdepth 0xFF)).host = [.writeReg .bitdepth 0xFF] ∧ 0xFF < 2 ^ 8 ∧
      (hosted (.writeReg .flags 0xFF)).host = [.writeReg .flags 0xFF] ∧
      (hosted (.writeReg .paylen (2 ^ 40))).host = [.writeReg .paylen (2 ^ 40)] ∧
      (hosted (.writeReg .cur 9)).host = [.writeReg .cur 9] ∧ (hosted (.writeReg .cur 9)).dstate.active = false := by
  decide +kernel

/-- HostWritesElements: the last element of each memory. -/
theorem witness_host_elements :
    let s := fun op => { hosted op with cfg := bounded 3 4 20 }
    (s (.writePixin 2 1)).dstate.active = false ∧ (s (.writePixin 2 1)).host = [.writePixin 2 1] ∧
      exceeds (2 + 1) (s (.writePixin 2 1)).cfg.pixinCap = false ∧
      (s (.writePal 32767 1)).host = [.writePal 32767 1] ∧ 32767 < 32768 ∧
      (s (.writePayload 3 1)).host = [.writePayload 3 1] ∧
      exceeds (3 + 1) (s (.writePayload 3 1)).cfg.payloadCap = false ∧
      (s (.writeFile 19 1)).host = [.writeFile 19 1] ∧
      exceeds (19 + 1) (s (.writeFile 19 1)).cfg.fileCap = false := by decide +kernel

/-- A machine with no `DEC` running is legal when its memories, `FLAGS` and `STATUS` are as after the host's writes. -/
theorem witness_legal_idle :
    let s := { imageT1 with host := [.writeReg .bitdepth 255] }
    s.Legal ∧ step s = .next (after (step s)) ∧ ∀ op ops, s.host = op :: ops → op.defined s.cfg = true :=
  ⟨⟨by unfold State.MemoriesCanonical; decide +kernel,
    ⟨fun _ _ => rfl, by unfold Mem.below; decide +kernel, fun _ _ => rfl, fun _ _ => rfl,
      by unfold Mem.below; decide +kernel⟩,
    by unfold State.FlagsLegal; decide +kernel, ⟨.inl rfl, fun _ => rfl⟩, fun _ h => absurd h List.not_mem_nil,
    fun h => absurd h (by decide +kernel)⟩,
    next_after _ (by decide +kernel), fun _ _ h => by rw [← (List.cons.inj h).1]; decide +kernel⟩

/-- StepKeepsLegal and ParametersNeverChange inside a `DEC`: the state of program P1 after its fifth step. -/
theorem witness_legal_running :
    let s : State := { runningT1 with
      cur := 13, pixemit := 3, outcnt := 3, cnt := 1, dstate := .repeat, lastpix := 0x1005, lastv := true,
      outbuf := [(0, 0x1005), (1, 0x1005), (2, 0x1005)] }
    s.Legal ∧ step s = .next (after (step s)) :=
  ⟨⟨by unfold State.MemoriesCanonical; decide +kernel,
    ⟨fun _ _ => rfl, by unfold Mem.below; decide +kernel, fun _ _ => rfl, fun _ _ => rfl,
      by unfold Mem.below; decide +kernel⟩,
    by unfold State.FlagsLegal; decide +kernel, ⟨.inl rfl, fun _ => rfl⟩, fun _ h => absurd h List.not_mem_nil,
    fun _ => by decide +kernel⟩, next_after _ (by decide +kernel)⟩

end Sys2Proof.Tests
end

/-!
# The build-time parameters (00_scope.md R6, R20; 70_reset_and_hazards.md R280)

What each part of a step does to `State.cfg`, in the order of the model's definitions, up to the whole step.
-/

namespace Sys2Proof.Machine

/-! ### Commands -/

/-- A command keeps the parameters when its body does: its start writes only `STATUS` and `ERRINFO` (R230). -/
theorem issue_keeps_cfg {s t : State} {body : State → State} (hbody : ∀ u, (body u).cfg = u.cfg)
    (h : s.issue body = .next t) : t.cfg = s.cfg := by
  obtain ⟨-, rfl⟩ := issue_eq_next.1 h
  rw [hbody, State.beginCommand_cfg]

/-- `OPT` raises, or writes `FLAGS` and completes (R120, R129). -/
@[simp] theorem optBody_cfg (s : State) : (optBody s).cfg = s.cfg := by
  unfold optBody
  split
  · simp
  · split
    · simp
    · split <;> simp

/-- `ENC` raises, or writes the payload and `FLAGS` and completes (R140, R141, R150). -/
@[simp] theorem encBody_cfg (s : State) : (encBody s).cfg = s.cfg := by
  unfold encBody
  split
  · simp
  · split
    · simp
    · split
      · simp
      · dsimp only
        split <;> simp

/-- `ASM` raises, or writes the file and completes (R170, R172). -/
@[simp] theorem asmBody_cfg (s : State) : (asmBody s).cfg = s.cfg := by
  unfold asmBody
  split_ifs <;> simp

/-- `LDHDR` raises, or loads the file and completes (R175, R176). -/
@[simp] theorem ldhdrBody_cfg (s : State) : (ldhdrBody s).cfg = s.cfg := by
  unfold ldhdrBody
  dsimp only
  split_ifs <;> simp

/-! ### The decoder -/

@[simp] theorem finish_cfg (s : State) : s.finish.cfg = s.cfg := by rw [finish_eq]

@[simp] theorem repeatPixel_cfg (s : State) : (repeatPixel s).cfg = s.cfg := by simp [repeatPixel]

@[simp] theorem emitGroup_advance_cfg (s : State) (g : Code) :
    (State.emitGroup s (s.advance s.depth) g).cfg = s.cfg := by
  rcases emitGroup_cases s g with ⟨-, he⟩ | ⟨v, -, he⟩ <;> simp [he]

theorem literalGroup_advance_cfg {s : State} (hd : s.dstate ≠ .faulted) (g : Code) :
    (literalGroup s (s.advance s.depth) g).cfg = s.cfg := by
  rcases literalGroup_cases hd g with ⟨-, he⟩ | ⟨v, -, he⟩ <;> simp [he]

@[simp] theorem litHeader_advance_cfg (s : State) (n f : Nat) : (litHeader s (s.advance n) f).cfg = s.cfg := by
  unfold litHeader
  split <;> simp

@[simp] theorem repHeader_advance_cfg (s : State) (n f : Nat) : (repHeader s (s.advance n) f).cfg = s.cfg := by
  unfold repHeader
  split_ifs <;> simp

/-- Each thing a step of a running decoder can do keeps the parameters (R197). -/
theorem State.Steps.cfg_eq {s t : State} (h : s.Steps t) : t.cfg = s.cfg := by
  cases h <;> simp

@[simp] theorem decStep_cfg (s : State) : s.decStep.cfg = s.cfg := by
  cases h : s.dstate.active with
  | true => exact (decStep_cases h).cfg_eq
  | false => rw [decStep_inactive h]

@[simp] theorem runSteps_cfg (fuel : Nat) (s : State) : (runSteps fuel s).cfg = s.cfg := by
  induction fuel generalizing s with
  | zero => rfl
  | succ fuel ih =>
    unfold runSteps
    split
    · rw [ih, decStep_cfg]
    · rfl

@[simp] theorem runGroups_cfg (gs : List Code) (s : State) : (runGroups gs s).cfg = s.cfg := by
  induction gs generalizing s with
  | nil => rfl
  | cons g gs ih =>
    unfold runGroups
    split
    · rfl
    · rename_i hd
      rw [ih, literalGroup_advance_cfg hd]

@[simp] theorem runRepeats_cfg (k : Nat) (s : State) : (runRepeats k s).cfg = s.cfg := by
  induction k generalizing s with
  | zero => rfl
  | succ k ih =>
    unfold runRepeats
    split
    · rfl
    · rw [ih, repeatPixel_cfg]

/-- `DEC` raises, or runs the state machine from its start state (R196). -/
@[simp] theorem decBody_cfg (s : State) : (decBody s).cfg = s.cfg := by
  unfold decBody
  split_ifs <;> simp

/-! ### Instructions -/

/-- A guarded part of a `DEC` keeps the parameters when the state it leads to has them. -/
theorem guarded_keeps_cfg {s u t : State} {ok : Bool} (hu : u.cfg = s.cfg) (h : s.guarded ok u = .next t) :
    t.cfg = s.cfg := by
  obtain ⟨-, -, rfl⟩ := guarded_eq_next.1 h
  exact hu

theorem exec_keeps_cfg {i : Instr} {s t : State} (h : exec i s = .next t) : t.cfg = s.cfg := by
  cases i with
  | rep r => exact guarded_keeps_cfg (by simp) h
  | lit codes => exact guarded_keeps_cfg (by simp) h
  | raw g => exact guarded_keeps_cfg (by simp) h
  | pad => exact guarded_keeps_cfg (by simp) h
  | opt => exact issue_keeps_cfg optBody_cfg h
  | enc => exact issue_keeps_cfg encBody_cfg h
  | asm => exact issue_keeps_cfg asmBody_cfg h
  | ldhdr => exact issue_keeps_cfg ldhdrBody_cfg h
  | dec => exact issue_keeps_cfg decBody_cfg h
  | reserved0 => exact issue_keeps_cfg (fun u => State.raise_cfg u .badCommand 0) h
  | reserved67 lo => exact issue_keeps_cfg (fun u => State.raise_cfg u .badCommand (6 + lo.toNat)) h

theorem decoderStep_keeps_cfg {s t : State} (h : s.decoderStep = .next t) : t.cfg = s.cfg :=
  guarded_keeps_cfg (decStep_cfg s) h

/-! ### Host accesses -/

/-- A register write of a bounded width answers a next state exactly when the value fits (V6; log 12). -/
theorem fits_eq_next {w v : Nat} {u t : State} : fits w v u = .next t ↔ v < 2 ^ w ∧ t = u := by
  unfold fits
  split <;> simp [*, eq_comm]

/-- An element write answers a next state exactly when the element exists (log 11). -/
theorem inMemory_eq_next {i : Nat} {cap : Option Nat} {u t : State} :
    inMemory i cap u = .next t ↔ exceeds (i + 1) cap = false ∧ t = u := by
  unfold inMemory
  split <;> simp [*, eq_comm]

theorem fits_keeps_cfg {w v : Nat} {s u t : State} (hu : u.cfg = s.cfg) (h : fits w v u = .next t) :
    t.cfg = s.cfg := by
  obtain ⟨-, rfl⟩ := fits_eq_next.1 h
  exact hu

theorem inMemory_keeps_cfg {i : Nat} {cap : Option Nat} {s u t : State} (hu : u.cfg = s.cfg)
    (h : inMemory i cap u = .next t) : t.cfg = s.cfg := by
  obtain ⟨-, rfl⟩ := inMemory_eq_next.1 h
  exact hu

/-- The parameters are no register: a write sets one RW register, or is ignored (R20, R22). -/
theorem hostWriteReg_keeps_cfg {r : Reg} {v : Nat} {s t : State} (h : hostWriteReg r v s = .next t) :
    t.cfg = s.cfg := by
  cases r with
  | width | height | bitdepth | flags | palcount => exact fits_keeps_cfg (by rfl) h
  | paylen | filelen => obtain rfl := Host.Outcome.next.inj h; rfl
  | cmd | status | errinfo | paloff | cur | pixemit | lastpix | outcnt | dstate | cnt | wcur =>
    rw [← Host.Outcome.next.inj h]

/-- Neither a write of an element nor the reset event changes the parameters (R40 to R43, R280). -/
theorem hostAccess_keeps_cfg {op : HostOp} {s t : State} (h : hostAccess op s = .next t) : t.cfg = s.cfg := by
  cases op with
  | writeReg r v => exact hostWriteReg_keeps_cfg h
  | writePixin i v => exact inMemory_keeps_cfg (by rfl) h
  | writePal i v => exact inMemory_keeps_cfg (by rfl) h
  | writePayload i v => exact inMemory_keeps_cfg (by rfl) h
  | writeFile i v => exact inMemory_keeps_cfg (by rfl) h
  | reset c => rw [← Host.Outcome.next.inj h, resetEvent_cfg]

/-! ### The step -/

/-- Everything the machine can find to do next: a block or the decoder's own step while a `DEC` runs (R197), else the
host's next access, where a write of `CMD` is a command (R21, R230), else nothing (R282). -/
inductive State.Fetches (s : State) : Fetched → Prop
  | block (i : Instr) (hd : s.dstate = .readControl ∨ s.dstate = .raw) (rest : List Bool)
      (hi : decode (.payload s.mode) s.window = .ok (i, rest)) : Fetches s (.instr i s)
  | decoder (hd : s.dstate.active = true) : Fetches s .decoder
  | command (hd : s.dstate.active = false) (v : Nat) (ops : List HostOp) (hq : s.host = .writeReg .cmd v :: ops) :
      Fetches s (.instr (decodeCommand (BitVec.ofNat 3 v)) { s with host := ops })
  | access (hd : s.dstate.active = false) (op : HostOp) (ops : List HostOp) (hq : s.host = op :: ops)
      (hop : ∀ v, op ≠ .writeReg .cmd v) : Fetches s (.access op { s with host := ops })
  | wait (hd : s.dstate.active = false) (hq : s.host = []) : Fetches s .wait

theorem fetchBlock_cases {s : State} (hd : s.dstate = .readControl ∨ s.dstate = .raw) : s.Fetches (fetchBlock s) := by
  unfold fetchBlock
  split
  · exact .block _ hd _ ‹_›
  · exact .decoder (by rcases hd with hd | hd <;> rw [hd] <;> rfl)

theorem fetchHost_cases {s : State} (hd : s.dstate.active = false) : s.Fetches (fetchHost s) := by
  unfold fetchHost
  split
  · exact .wait hd ‹_›
  · exact .command hd _ _ ‹_›
  · rename_i hop hq
    exact .access hd _ _ hq hop

/-- The inversion of `fetch`. -/
theorem fetch_cases (s : State) : s.Fetches (fetch s) := by
  unfold fetch
  split <;> rename_i hd
  case h_1 => exact fetchBlock_cases (.inl hd)
  case h_2 => exact fetchBlock_cases (.inr hd)
  case h_3 | h_4 => exact .decoder (by rw [hd]; rfl)
  case h_5 | h_6 | h_7 => exact fetchHost_cases (by rw [hd]; rfl)

theorem step_keeps_cfg {s t : State} (h : step s = .next t) : t.cfg = s.cfg := by
  have hf := fetch_cases s
  unfold step at h
  generalize fetch s = f at h hf
  cases hf with
  | block => exact exec_keeps_cfg h
  | decoder => exact decoderStep_keeps_cfg h
  | command _ _ ops => exact exec_keeps_cfg (s := { s with host := ops }) h
  | access _ _ ops => exact hostAccess_keeps_cfg (s := { s with host := ops }) h
  | wait => rw [← Host.Outcome.next.inj h]

/-- Settles O60: every branch of the step keeps the parameters, the reset event included. -/
theorem parametersNeverChange : Obligations.ParametersNeverChange :=
  fun _ _ => step_keeps_cfg

end Sys2Proof.Machine

/-!
# A running decoder as a chain of its steps (43_decoder.md R197 to R204)

A block, a decoder step and a whole `DEC` are all chains of `State.Steps`; what every one of these steps keeps, each of
them keeps.
-/

namespace Sys2Proof.Machine

open Sys2Proof.Laws (EncodedLength.bits)

/-! ### Commands as their bodies -/

/-- What a command does once its start has cleared `STATUS` and `ERRINFO` (R230); a block instruction has no body. -/
def commandBody : Instr → State → State
  | .opt => optBody
  | .enc => encBody
  | .asm => asmBody
  | .ldhdr => ldhdrBody
  | .dec => decBody
  | .reserved0 => fun s => s.raise .badCommand 0
  | .reserved67 lo => fun s => s.raise .badCommand (6 + lo.toNat)
  | .rep _ | .lit _ | .raw _ | .pad => id

theorem exec_eq_issue {i : Instr} (h : i.wf .command = true) (s : State) : exec i s = s.issue (commandBody i) := by
  cases i with
  | opt | enc | asm | ldhdr | dec | reserved0 | reserved67 => rfl
  | rep | lit | raw | pad => cases h

/-! ### The bits of a block that was read -/

theorem takeField_length {n v : Nat} {bs rest : List Bool} (h : takeField n bs = some (v, rest)) :
    bs.length = n + rest.length := by
  rw [(takeField_eq_some h).1, List.length_append, fieldBits_length]

theorem takeGroups_length {d : Nat} : ∀ {k : Nat} {bs rest : List Bool} {gs : List Code},
    takeGroups d k bs = some (gs, rest) → bs.length = gs.length * d + rest.length
  | 0, bs, rest, gs, h => by
    obtain ⟨rfl, rfl⟩ := Prod.mk.inj (Option.some.inj h)
    simp
  | k + 1, bs, rest, gs, h => by
    unfold takeGroups at h
    split at h
    · cases h
    · rename_i g bs' h1
      split at h
      · cases h
      · rename_i gs' rest' h2
        obtain ⟨rfl, rfl⟩ := Prod.mk.inj (Option.some.inj h)
        rw [takeField_length h1, takeGroups_length h2, List.length_cons]
        ring

theorem decodeBlock_length {m : Mode} {bs rest : List Bool} {i : Instr} (h : decodeBlock m bs = .ok (i, rest)) :
    bs.length = EncodedLength.bits (.payload m) i + rest.length := by
  unfold decodeBlock at h
  split at h
  · cases h
  · rename_i ctrl bs₁ h1
    split at h
    · split at h
      · cases h
      · rename_i r bs₂ h2
        obtain ⟨rfl, rfl⟩ := Prod.mk.inj (Except.ok.inj h)
        rw [takeField_length h1, takeField_length h2, EncodedLength.bits]
        ring
    · split at h
      · cases h
      · rename_i c bs₂ h2
        split at h
        · cases h
        · rename_i gs bs₃ h3
          obtain ⟨rfl, rfl⟩ := Prod.mk.inj (Except.ok.inj h)
          rw [takeField_length h1, takeField_length h2, takeGroups_length h3, EncodedLength.bits]
          ring

theorem decodeRaw_length {m : Mode} {bs rest : List Bool} {i : Instr} (h : decodeRaw m bs = .ok (i, rest)) :
    bs.length = EncodedLength.bits (.payload m) i + rest.length := by
  unfold decodeRaw at h
  split at h
  · cases h
  · rename_i g bs' h1
    obtain ⟨rfl, rfl⟩ := Prod.mk.inj (Except.ok.inj h)
    rw [takeField_length h1, EncodedLength.bits]

/-- Reading an instruction of a payload, but for the unread pad, consumes its encoded length (R95 to R97, R101). -/
theorem decode_payload_length {m : Mode} {bs rest : List Bool} {i : Instr}
    (h : decode (.payload m) bs = .ok (i, rest)) (hi : i ≠ .pad) :
    bs.length = EncodedLength.bits (.payload m) i + rest.length := by
  unfold decode at h
  dsimp only at h
  split_ifs at h
  · exact absurd (Prod.mk.inj (Except.ok.inj h)).1.symm hi
  · exact decodeBlock_length h
  · exact decodeRaw_length h

/-- A block read at `CUR` stands whole in the payload (R190, R197). -/
theorem fetched_fits {s : State} {i : Instr} {rest : List Bool} (h : decode (.payload s.mode) s.window = .ok (i, rest))
    (hi : i ≠ .pad) :
    EncodedLength.bits (.payload s.mode) i = 0 ∨
      s.cur + EncodedLength.bits (.payload s.mode) i ≤ 8 * s.paylen := by
  have hl := decode_payload_length h hi
  have hw : s.window.length ≤ 8 * s.paylen - s.cur := by simp [State.window]
  omega

/-! ### Where a block instruction may run -/

theorem atBlock_iff {s : State} {i : Instr} : s.atBlock i = true ↔
    (s.dstate = .readControl ∨ s.dstate = .raw) ∧ i.wf (.payload s.mode) = true := by
  simp [State.atBlock]

theorem atBlock_rep {s : State} {r : BitVec 7} (h : s.atBlock (.rep r) = true) :
    s.dstate = .readControl ∧ s.pixemit ≠ s.pixelCount ∧ r.toNat < 2 ^ s.br := by
  obtain ⟨hd, hw⟩ := atBlock_iff.1 h
  simp only [Instr.wf, State.mode, Bool.and_eq_true, Bool.not_eq_true', decide_eq_false_iff_not,
    decide_eq_true_eq] at hw
  obtain ⟨-, ⟨hn, hc⟩, hr⟩ := hw
  exact ⟨hd.resolve_right hc, hn, of_decide_eq_true hr⟩

theorem atBlock_lit {s : State} {gs : List Code} (h : s.atBlock (.lit gs) = true) :
    s.dstate = .readControl ∧ s.pixemit ≠ s.pixelCount ∧ 1 ≤ gs.length ∧ gs.length ≤ 2 ^ s.bo := by
  obtain ⟨hd, hw⟩ := atBlock_iff.1 h
  simp only [Instr.wf, State.mode, Bool.and_eq_true, Bool.not_eq_true', decide_eq_false_iff_not,
    decide_eq_true_eq] at hw
  obtain ⟨-, ⟨⟨⟨hn, hc⟩, h1⟩, h2⟩, -⟩ := hw
  exact ⟨hd.resolve_right hc, hn, h1, of_decide_eq_true h2⟩

theorem atBlock_raw {s : State} {g : Code} (h : s.atBlock (.raw g) = true) :
    s.dstate = .raw ∧ s.pixemit ≠ s.pixelCount := by
  obtain ⟨-, hw⟩ := atBlock_iff.1 h
  simp only [Instr.wf, State.mode, Bool.and_eq_true, Bool.not_eq_true', decide_eq_false_iff_not, not_not] at hw
  obtain ⟨-, ⟨hn, hc⟩, -⟩ := hw
  exact ⟨hc, hn⟩

theorem atBlock_pad {s : State} (h : s.atBlock .pad = true) :
    (s.dstate = .readControl ∨ s.dstate = .raw) ∧ s.pixemit = s.pixelCount := by
  obtain ⟨hd, hw⟩ := atBlock_iff.1 h
  simp only [Instr.wf, State.mode, Bool.and_eq_true, decide_eq_true_eq] at hw
  exact ⟨hd, hw.2⟩

/-! ### Chains of steps -/

/-- `t` is reached from `s` by steps of the running decoder, none or more (R197). -/
def State.Reaches (s t : State) : Prop :=
  Relation.ReflTransGen (fun a b : State => a.dstate.active = true ∧ a.Steps b) s t

theorem State.Reaches.refl (s : State) : s.Reaches s := Relation.ReflTransGen.refl

theorem State.Steps.reaches {s u t : State} (hd : s.dstate.active = true) (h : s.Steps u) (ht : u.Reaches t) :
    s.Reaches t := Relation.ReflTransGen.head ⟨hd, h⟩ ht

/-- What every step of a running decoder keeps, a chain of them keeps. -/
theorem State.Reaches.keeps {P : State → Prop}
    (hP : ∀ {a b : State}, a.dstate.active = true → a.Steps b → P a → P b) {s t : State} (h : s.Reaches t)
    (hs : P s) : P t := by
  induction h with
  | refl => exact hs
  | tail _ hab ih => exact hP hab.1 hab.2 ih

theorem runSteps_reaches (fuel : Nat) (s : State) : s.Reaches (runSteps fuel s) := by
  induction fuel generalizing s with
  | zero => exact .refl s
  | succ fuel ih =>
    unfold runSteps
    split
    · exact (decStep_cases ‹_›).reaches ‹_› (ih _)
    · exact .refl s

theorem runRepeats_faulted {s : State} (h : s.dstate = .faulted) (k : Nat) : runRepeats k s = s := by
  cases k <;> simp [runRepeats, h]

theorem runGroups_faulted {s : State} (h : s.dstate = .faulted) (gs : List Code) : runGroups gs s = s := by
  cases gs <;> simp [runGroups, h]

/-- The `Repeat` steps of a block whose header has set `CNT` (R200). -/
theorem runRepeats_reaches (k : Nat) {s : State} (h : k ≠ 0 → s.dstate = .repeat ∧ s.cnt = k) :
    s.Reaches (runRepeats k s) := by
  induction k generalizing s with
  | zero => exact .refl s
  | succ k ih =>
    obtain ⟨hd, hc⟩ := h (Nat.succ_ne_zero k)
    have hr : runRepeats (k + 1) s = runRepeats k (repeatPixel s) := by simp [runRepeats, hd]
    rw [hr]
    refine (State.Steps.repetition hd).reaches (by rw [hd]; rfl) (ih fun hk => ?_)
    simp [repeatPixel, hd, hc, hk]

/-- The `Literal` steps of a block whose header has set `CNT` and whose groups are all there (R199). -/
theorem runGroups_reaches (gs : List Code) {s : State} (h : gs ≠ [] → s.dstate = .literal ∧ s.cnt = gs.length)
    (hb : s.cur + gs.length * s.depth ≤ 8 * s.paylen) : s.Reaches (runGroups gs s) := by
  induction gs generalizing s with
  | nil => exact .refl s
  | cons g gs ih =>
    obtain ⟨hd, hc⟩ := h (List.cons_ne_nil g gs)
    have ha : s.dstate.active = true := by rw [hd]; rfl
    have hr : runGroups (g :: gs) s = runGroups gs (literalGroup s (s.advance s.depth) g) := by simp [runGroups, hd]
    rw [List.length_cons, Nat.succ_mul] at hb
    rw [hr]
    rcases literalGroup_cases (s := s) (by simp [hd]) g with ⟨hg, he⟩ | ⟨v, hv, he⟩
    · rw [he, runGroups_faulted (by rfl)]
      exact (State.Steps.badIndex (.inl hd) (by simp [hd]) g hg).reaches ha (.refl _)
    · rw [he]
      refine (State.Steps.group hd g v hv (.inr (by omega))).reaches ha (ih (fun hgs => ?_) ?_)
      · simp [hd, hc, hgs]
      · simp only [State.countDown_cur, State.countDown_depth, State.countDown_paylen, afterGroup_cur, afterGroup_depth,
          afterGroup_paylen]
        omega

theorem execRep_reaches {s t : State} {r : BitVec 7} (h : execRep r s = .next t)
    (hb : s.cur + (1 + s.br) ≤ 8 * s.paylen) : s.Reaches t := by
  obtain ⟨hok, -, rfl⟩ := guarded_eq_next.1 h
  obtain ⟨hd, hn, hr⟩ := atBlock_rep hok
  have ha : s.dstate.active = true := by rw [hd]; rfl
  unfold repHeader
  split
  · rw [runRepeats_faulted (by rfl)]
    exact (State.Steps.noBase hd hn ‹_›).reaches ha (.refl _)
  · rename_i hl
    split
    · rw [runRepeats_faulted (by rfl)]
      exact (State.Steps.overrun hd hn _ ‹_›).reaches ha (.refl _)
    · exact (State.Steps.repHead hd hn _ hr (by simpa using hl) (by omega) hb).reaches ha
        (runRepeats_reaches _ fun _ => ⟨rfl, rfl⟩)

theorem execLit_reaches {s t : State} {gs : List Code} (h : execLit gs s = .next t)
    (hb : s.cur + (1 + s.bo + gs.length * s.depth) ≤ 8 * s.paylen) : s.Reaches t := by
  obtain ⟨hok, -, rfl⟩ := guarded_eq_next.1 h
  obtain ⟨hd, hn, h1, h2⟩ := atBlock_lit hok
  have ha : s.dstate.active = true := by rw [hd]; rfl
  unfold litHeader
  split
  · rw [runGroups_faulted (by rfl)]
    exact (State.Steps.overrun hd hn _ ‹_›).reaches ha (.refl _)
  · refine (State.Steps.litHead hd hn (gs.length - 1) (by omega) (by omega) (by omega)).reaches ha
      (runGroups_reaches gs (fun _ => ⟨rfl, ?_⟩) ?_)
    · show gs.length - 1 + 1 = gs.length
      omega
    · show s.cur + (1 + s.bo) + gs.length * s.depth ≤ 8 * s.paylen
      omega

theorem execRaw_reaches {s t : State} {g : Code} (h : execRaw g s = .next t)
    (hb : s.depth = 0 ∨ s.cur + s.depth ≤ 8 * s.paylen) : s.Reaches t := by
  obtain ⟨hok, -, rfl⟩ := guarded_eq_next.1 h
  obtain ⟨hd, hn⟩ := atBlock_raw hok
  have ha : s.dstate.active = true := by rw [hd]; rfl
  rcases emitGroup_cases s g with ⟨hg, he⟩ | ⟨v, hv, he⟩
  · rw [he]
    exact (State.Steps.badIndex (.inr hd) (fun _ => hn) g hg).reaches ha (.refl _)
  · rw [he]
    exact (State.Steps.rawGroup hd hn g v hv hb).reaches ha (.refl _)

theorem execPad_reaches {s t : State} (h : execPad s = .next t) : s.Reaches t := by
  obtain ⟨hok, -, rfl⟩ := guarded_eq_next.1 h
  obtain ⟨hd, hn⟩ := atBlock_pad hok
  exact (State.Steps.finish hd hn).reaches (by rcases hd with hd | hd <;> rw [hd] <;> rfl) (.refl _)

/-- The block at `CUR` is a chain of decoder steps, the first with an element of `OUTBUF` left to write (R197, R204). -/
theorem exec_block_reaches {s t : State} {i : Instr} {rest : List Bool} (hd : s.dstate.active = true)
    (hi : decode (.payload s.mode) s.window = .ok (i, rest)) (h : exec i s = .next t) :
    s.outcnt < s.cfg.batch ∧ s.Reaches t := by
  have hfit := fetched_fits hi
  cases i with
  | rep r =>
    refine ⟨(guarded_eq_next.1 h).2.1, execRep_reaches h ?_⟩
    exact (hfit (by simp)).resolve_left (by simp [EncodedLength.bits])
  | lit gs =>
    refine ⟨(guarded_eq_next.1 h).2.1, execLit_reaches h ?_⟩
    exact (hfit (by simp)).resolve_left (by simp [EncodedLength.bits])
  | raw g => exact ⟨(guarded_eq_next.1 h).2.1, execRaw_reaches h (hfit (by simp))⟩
  | pad => exact ⟨(guarded_eq_next.1 h).2.1, execPad_reaches h⟩
  | opt | enc | asm | ldhdr | dec | reserved0 | reserved67 =>
    rw [exec_eq_issue (by rfl), issue_of_active hd] at h
    cases h

/-- A step of the machine while a `DEC` runs is a chain of decoder steps (R197, R204). -/
theorem step_reaches {s t : State} (hd : s.dstate.active = true) (h : step s = .next t) :
    s.outcnt < s.cfg.batch ∧ s.Reaches t := by
  have hf := fetch_cases s
  unfold step at h
  generalize fetch s = f at h hf
  cases hf with
  | block i _ rest hi => exact exec_block_reaches hd hi h
  | decoder =>
    obtain ⟨-, ho, rfl⟩ := guarded_eq_next.1 h
    exact ⟨ho, (decStep_cases hd).reaches hd (.refl _)⟩
  | command hd' | access hd' | wait hd' =>
    rw [hd'] at hd
    cases hd

/-! ### What a step of a running decoder writes -/

/-- Since `s` nothing has been written but what a running `DEC` owns: its working registers, `STATUS`, `ERRINFO`,
`OUTBUF` below `BATCH` and the end of `SINK` (R74, R197, R208). -/
structure State.DecWrites (s t : State) : Prop where
  frame : t = { s with
    status := t.status, errinfo := t.errinfo, cur := t.cur, pixemit := t.pixemit, lastpix := t.lastpix,
    lastv := t.lastv, outcnt := t.outcnt, dstate := t.dstate, cnt := t.cnt, outbuf := t.outbuf, sink := t.sink }
  outbuf : ∀ a, s.cfg.batch ≤ a → t.outbuf.read a = s.outbuf.read a
  sink : s.sink <+: t.sink
  cur : s.cur ≤ t.cur

theorem State.DecWrites.refl (s : State) : s.DecWrites s :=
  ⟨rfl, fun _ _ => rfl, List.prefix_rfl, le_rfl⟩

theorem State.DecWrites.cfg_eq {s t : State} (h : s.DecWrites t) : t.cfg = s.cfg := by rw [h.frame]

theorem State.DecWrites.trans {s t u : State} (h1 : s.DecWrites t) (h2 : t.DecWrites u) : s.DecWrites u where
  frame := h2.frame.trans (by rw [h1.frame])
  outbuf a ha := (h2.outbuf a (h1.cfg_eq ▸ ha)).trans (h1.outbuf a ha)
  sink := h1.sink.trans h2.sink
  cur := h1.cur.trans h2.cur

/-- A step goes on with `STATUS` and `ERRINFO` untouched, or ends the `DEC`: in `Terminal`, or by raising (R197, R202,
R203). -/
theorem State.Steps.goes_on_or_ends {s t : State} (h : s.Steps t) :
    (t.dstate.active = true ∧ t.status = s.status ∧ t.errinfo = s.errinfo) ∨ t = s.finish ∨
      ∃ k info, t = s.raiseDec k info := by
  cases h with
  | finish => exact .inr (.inl rfl)
  | truncated | noBase | overrun | badIndex => exact .inr (.inr ⟨_, _, rfl⟩)
  | litHead | repHead => exact .inl ⟨rfl, rfl, rfl⟩
  | group hd =>
    refine .inl ⟨?_, by simp, by simp⟩
    simp only [State.countDown_dstate]
    split <;> simp [hd, DState.active]
  | repetition hd =>
    refine .inl ⟨?_, by simp [repeatPixel], by simp [repeatPixel]⟩
    simp only [repeatPixel, State.countDown_dstate]
    split <;> simp [hd, DState.active]
  | rawGroup hd => exact .inl ⟨by simp [hd, DState.active], by simp, by simp⟩

@[simp] theorem finish_dstate (s : State) : s.finish.dstate = .terminal := by rw [finish_eq]

/-- A step writes at most the element of `OUTBUF` at `OUTCNT` (R194). -/
theorem State.Steps.outbuf_cases {s t : State} (h : s.Steps t) :
    t.outbuf = s.outbuf ∨ ∃ v, t.outbuf = s.outbuf.write s.outcnt v := by
  cases h with
  | finish => exact .inl (by rw [finish_eq])
  | truncated | noBase | overrun | badIndex | litHead | repHead => exact .inl rfl
  | group _ _ v => exact .inr ⟨v, by simp [State.afterGroup]⟩
  | repetition => exact .inr ⟨s.lastpix, by simp [repeatPixel]⟩
  | rawGroup _ _ _ v => exact .inr ⟨v, by simp [State.afterGroup]⟩

/-- An `Emit` hands at most one batch to the sink, and that one full (R194, R195). -/
theorem emit_sink_cases (s : State) (v : Colour) :
    (s.emit v).sink = s.sink ∨
      ∃ b, (s.emit v).sink = s.sink ++ [b] ∧ 1 ≤ b.length ∧ b.length ≤ s.cfg.batch := by
  rw [State.emit_sink]
  split
  · rename_i hb
    exact .inr ⟨_, rfl, by simp, by simp [hb]⟩
  · exact .inl rfl

theorem afterGroup_sink (s : State) (v : Colour) : (s.afterGroup v).sink = ((s.advance s.depth).emit v).sink := rfl

/-- A step hands at most one batch to the sink, of 1 to `BATCH` colours (R45, R195). -/
theorem State.Steps.sink_cases {s t : State} (h : s.Steps t) (ho : s.outcnt < s.cfg.batch) :
    t.sink = s.sink ∨ ∃ b, t.sink = s.sink ++ [b] ∧ 1 ≤ b.length ∧ b.length ≤ s.cfg.batch := by
  cases h with
  | finish =>
    rw [finish_eq]
    dsimp only
    split
    · exact .inr ⟨_, rfl, by simpa, by simp; omega⟩
    · exact .inl rfl
  | truncated | noBase | overrun | badIndex | litHead | repHead => exact .inl rfl
  | group _ _ v =>
    rw [State.countDown_sink, afterGroup_sink]
    exact emit_sink_cases _ v
  | repetition =>
    rw [repeatPixel, State.countDown_sink]
    exact emit_sink_cases s s.lastpix
  | rawGroup _ _ _ v =>
    rw [afterGroup_sink]
    exact emit_sink_cases _ v

/-- A step of a running decoder writes only what is the decoder's (R197, R208). -/
theorem State.Steps.decWrites {s t : State} (h : s.Steps t) (ho : s.outcnt < s.cfg.batch) : s.DecWrites t where
  frame := by
    cases h with
    | finish => rw [finish_eq]
    | truncated | noBase | overrun | badIndex | litHead | repHead => rfl
    | group => rw [State.afterGroup, State.emit_eq]; rfl
    | repetition => rw [repeatPixel, State.emit_eq]; rfl
    | rawGroup => rw [State.afterGroup, State.emit_eq]; rfl
  outbuf a ha := by
    rcases h.outbuf_cases with he | ⟨v, he⟩
    · rw [he]
    · rw [he, Mem.read_write_ne (by omega)]
  sink := by
    rcases h.sink_cases ho with he | ⟨b, he, -⟩
    · rw [he]
    · exact ⟨[b], he.symm⟩
  cur := by
    cases h with
    | finish => rw [finish_eq]
    | truncated | noBase | overrun | badIndex => rfl
    | litHead | repHead => exact Nat.le_add_right _ _
    | group => simp
    | repetition => simp [repeatPixel]
    | rawGroup => simp

/-- `OUTCNT` stays below `BATCH` (R204, D31). -/
theorem State.Steps.outcnt_lt {s t : State} (h : s.Steps t) (ho : s.outcnt < s.cfg.batch) :
    t.outcnt < t.cfg.batch := by
  rw [h.cfg_eq]
  cases h with
  | finish => rw [finish_eq]; exact s.cfg.legal.1
  | truncated | noBase | overrun | badIndex | litHead | repHead => exact ho
  | group _ _ v => exact outcnt_emit_lt (s := s.advance s.depth) ho v
  | repetition => exact outcnt_emit_lt ho s.lastpix
  | rawGroup _ _ _ v => exact outcnt_emit_lt (s := s.advance s.depth) ho v

/-- A chain of steps writes only what is the decoder's. -/
theorem State.Reaches.decWrites {s t : State} (h : s.Reaches t) (ho : s.outcnt < s.cfg.batch) : s.DecWrites t :=
  (h.keeps (P := fun u => s.DecWrites u ∧ u.outcnt < u.cfg.batch)
    (fun _ hab ⟨hw, hu⟩ => ⟨hw.trans (hab.decWrites hu), hab.outcnt_lt hu⟩) ⟨.refl s, ho⟩).1

/-- Settles O7: a step of a running decoder is a chain of `State.Steps`, each of which writes only the decoder's own. -/
theorem runningDecWritesOnlyItsOwn : Obligations.RunningDecWritesOnlyItsOwn := by
  intro s t hd h
  obtain ⟨ho, hr⟩ := step_reaches hd h
  obtain ⟨hframe, houtbuf, hsink, hcur⟩ := hr.decWrites ho
  exact ⟨hframe, houtbuf, hsink, hcur⟩

/-! ### The relations between the steps of a `DEC` (R204) -/

theorem decoderLegal_of_inactive {s : State} (h : s.dstate.active = false) : s.DecoderLegal :=
  fun ha => absurd ha (by simp [h])

/-- When `DEC` has made its checks the relations of R204 hold (R196). -/
theorem decoderLegal_decStart {s : State} (hok : s.depthOk = true) (hs : s.status = 0) (he : s.errinfo = 0) :
    s.decStart.DecoderLegal := fun _ => by
  have hd : s.decStart.dstate = .readControl ∨ s.decStart.dstate = .raw := by
    rw [State.decStart_dstate]; split <;> simp
  have hl : s.decStart.dstate ≠ .literal := by rcases hd with hd | hd <;> rw [hd] <;> decide
  have hr : s.decStart.dstate ≠ .repeat := by rcases hd with hd | hd <;> rw [hd] <;> decide
  exact ⟨hok, Nat.zero_le _, (Nat.zero_mod _).symm, Nat.zero_le _, hs, he, fun h => absurd h (not_or.2 ⟨hl, hr⟩),
    fun h => absurd h hr, fun _ => rfl⟩

theorem State.DecoderLegal.outcnt_lt {s : State} (h : s.DecoderLegal) (ha : s.dstate.active = true) :
    s.outcnt < s.cfg.batch := by
  obtain ⟨-, -, ho, -⟩ := h ha
  exact ho ▸ Nat.mod_lt _ s.cfg.legal.1

theorem two_pow_le_of_lt_eight {b : Nat} (h : b < 8) : 2 ^ b ≤ 128 :=
  Nat.pow_le_pow_right (n := 2) (by decide) (Nat.le_of_lt_succ h)

theorem afterGroup_outcnt_mod {s : State} (h : s.outcnt = s.pixemit % s.cfg.batch) (v : Colour) :
    (s.afterGroup v).outcnt = (s.pixemit + 1) % s.cfg.batch := by
  have he := outcnt_emit_mod (s := s.advance s.depth) h v
  rwa [State.emit_pixemit, State.emit_cfg] at he

/-- `CNT` once a pixel of a block is emitted: within the pixels wanted inside the block, 0 after it (R199, R200). -/
theorem countDown_counts {s : State} (hd : s.dstate = .literal ∨ s.dstate = .repeat) (h1 : 1 ≤ s.cnt)
    (h2 : s.cnt ≤ 128) (h3 : s.cnt - 1 ≤ s.pixelCount - s.pixemit) :
    (s.countDown.dstate = .literal ∨ s.countDown.dstate = .repeat →
      1 ≤ s.countDown.cnt ∧ s.countDown.cnt ≤ 128 ∧ s.countDown.cnt ≤ s.countDown.pixelCount - s.countDown.pixemit) ∧
    (s.countDown.dstate = .readControl ∨ s.countDown.dstate = .raw → s.countDown.cnt = 0) := by
  simp only [State.countDown_dstate, State.countDown_cnt, State.countDown_pixelCount, State.countDown_pixemit]
  split
  · exact ⟨by simp, fun _ => ‹_›⟩
  · exact ⟨fun _ => by omega, by rcases hd with hd | hd <;> simp [hd]⟩

theorem State.Steps.decoderLegal {s t : State} (ha : s.dstate.active = true) (h : s.Steps t) (hs : s.DecoderLegal) :
    t.DecoderLegal := by
  obtain ⟨hok, hpix, hout, hcur, hst, herr, hcnt, hlast, hzero⟩ := hs ha
  cases h with
  | finish => exact decoderLegal_of_inactive (by rw [finish_dstate]; rfl)
  | truncated | noBase | overrun | badIndex => exact decoderLegal_of_inactive rfl
  | litHead hd hn f hf hr hb =>
    have h128 := two_pow_le_of_lt_eight (bo_lt s)
    exact fun _ => ⟨hok, hpix, hout, hb, hst, herr, fun _ => ⟨Nat.le_add_left 1 f, by dsimp only; omega, hr⟩, by simp,
      by simp⟩
  | repHead hd hn f hf hl hr hb =>
    have h128 := two_pow_le_of_lt_eight (br_lt s)
    exact fun _ => ⟨hok, hpix, hout, hb, hst, herr, fun _ => ⟨Nat.le_add_left 1 f, by dsimp only; omega, hr⟩,
      fun _ => hl, by simp⟩
  | group hd g v hv hb =>
    obtain ⟨h1, h2, h3⟩ := hcnt (.inl hd)
    obtain ⟨hin, hout'⟩ := countDown_counts (s := s.afterGroup v) (by simp [hd]) (by simpa) (by simpa) (by simp; omega)
    refine fun _ => ⟨by simpa, by simp; omega, by simpa using afterGroup_outcnt_mod hout v, ?_, by simpa, by simpa,
      hin, by simp, hout'⟩
    simp only [State.countDown_cur, State.countDown_paylen, afterGroup_cur, afterGroup_paylen]; omega
  | repetition hd =>
    obtain ⟨h1, h2, h3⟩ := hcnt (.inr hd)
    obtain ⟨hin, hout'⟩ := countDown_counts (s := s.emit s.lastpix) (by simp [hd]) (by simpa) (by simpa)
      (by simp; omega)
    have hmod := outcnt_emit_mod hout s.lastpix
    exact fun _ => ⟨by simpa [repeatPixel], by simp [repeatPixel]; omega, hmod, by simpa [repeatPixel],
      by simpa [repeatPixel], by simpa [repeatPixel], hin, fun _ => by simpa [repeatPixel] using hlast hd, hout'⟩
  | rawGroup hd hn g v hv hb =>
    refine fun _ => ⟨by simpa, by simp; omega, by simpa using afterGroup_outcnt_mod hout v, ?_, by simpa, by simpa,
      by simp [hd], by simp, by simpa [hd] using hzero⟩
    simp only [afterGroup_cur, afterGroup_paylen]; omega

/-!
# Commands, host accesses and the invariant of the machine (10_state.md R20 to R50; 44_host_commands.md R230)
-/

/-! ### How a command ends (R230, R205) -/

/-- `STATUS` and `ERRINFO` as the end of a command leaves them: `DONE` alone with no `ERRINFO`, or `ERR` with one of the
nine codes (R32, R33, R250). -/
def State.Ended (s : State) : Prop :=
  (s.status = 1 ∧ s.errinfo = 0) ∨ ∃ k : ErrKind, s.status = faultStatus k

theorem ended_raise (s : State) (k : ErrKind) (info : Nat) : (s.raise k info).Ended := .inr ⟨k, rfl⟩

theorem ended_raiseDec (s : State) (k : ErrKind) (info : Nat) : (s.raiseDec k info).Ended := .inr ⟨k, rfl⟩

theorem ended_complete {s : State} (hs : s.status = 0) (he : s.errinfo = 0) : s.complete.Ended := by
  rw [complete_of_status hs]
  exact .inl ⟨rfl, he⟩

theorem ended_finish {s : State} (hs : s.status = 0) (he : s.errinfo = 0) : s.finish.Ended := by
  rw [finish_eq]
  exact .inl ⟨by rw [hs]; rfl, he⟩

/-- A step that takes a `DEC` out of its running states ends the command (R197, R202, R203). -/
theorem State.Steps.ended {s t : State} (h : s.Steps t) (hs : s.status = 0) (he : s.errinfo = 0)
    (ht : t.dstate.active = false) : t.Ended := by
  rcases h.goes_on_or_ends with ⟨ha, -⟩ | rfl | ⟨k, info, rfl⟩
  · rw [ht] at ha
    cases ha
  · exact ended_finish hs he
  · exact ended_raiseDec s k info

/-- A chain of steps from where R204 holds, once it no longer runs, has ended the command. -/
theorem State.Reaches.ended {s t : State} (h : s.Reaches t) (hs : s.DecoderLegal) (ha : s.dstate.active = true)
    (ht : t.dstate.active = false) : t.Ended := by
  refine (h.keeps (P := fun u => u.DecoderLegal ∧ (u.dstate.active = false → u.Ended)) (fun ha hab ⟨hu, _⟩ => ?_)
    ⟨hs, fun h => by rw [ha] at h; cases h⟩).2 ht
  obtain ⟨-, -, -, -, hst, herr, -⟩ := hu ha
  exact ⟨hab.decoderLegal ha hu, hab.ended hst herr⟩

/-- How many steps a `DEC` can still take: a header and a group for each pixel still wanted, and the last step
(R205). -/
def State.stepsLeft (s : State) : Nat :=
  match s.dstate with
  | .readControl | .raw => 2 * (s.pixelCount - s.pixemit) + 1
  | .literal | .repeat => 2 * (s.pixelCount - s.pixemit)
  | .idle | .terminal | .faulted => 0

theorem stepsLeft_between {s : State} (hd : s.dstate = .readControl ∨ s.dstate = .raw) :
    s.stepsLeft = 2 * (s.pixelCount - s.pixemit) + 1 := by
  rcases hd with hd | hd <;> simp [State.stepsLeft, hd]

theorem stepsLeft_inside {s : State} (hd : s.dstate = .literal ∨ s.dstate = .repeat) :
    s.stepsLeft = 2 * (s.pixelCount - s.pixemit) := by
  rcases hd with hd | hd <;> simp [State.stepsLeft, hd]

theorem stepsLeft_of_inactive {s : State} (h : s.dstate.active = false) : s.stepsLeft = 0 := by
  unfold State.stepsLeft
  cases hd : s.dstate <;> simp_all [DState.active]

theorem stepsLeft_le (s : State) : s.stepsLeft ≤ 2 * (s.pixelCount - s.pixemit) + 1 := by
  unfold State.stepsLeft
  split <;> omega

/-- A running decoder has a step left: inside a block a pixel is wanted (R204). -/
theorem stepsLeft_pos {s : State} (hs : s.DecoderLegal) (ha : s.dstate.active = true) : 0 < s.stepsLeft := by
  obtain ⟨-, -, -, -, -, -, hcnt, -⟩ := hs ha
  unfold State.stepsLeft
  split
  · omega
  · omega
  · have := hcnt (.inl ‹_›); omega
  · have := hcnt (.inr ‹_›); omega
  all_goals rename_i hd; rw [hd] at ha; cases ha

/-- Every step of a `DEC` leaves fewer (R205). -/
theorem State.Steps.stepsLeft_lt {s t : State} (h : s.Steps t) (hs : s.DecoderLegal) (ha : s.dstate.active = true) :
    t.stepsLeft < s.stepsLeft := by
  have hpos := stepsLeft_pos hs ha
  obtain ⟨-, hpix, -, -, -, -, hcnt, -⟩ := hs ha
  cases h with
  | finish => rwa [stepsLeft_of_inactive (by rw [finish_dstate]; rfl)]
  | truncated | noBase | overrun | badIndex => rwa [stepsLeft_of_inactive rfl]
  | litHead hd =>
    rw [stepsLeft_between (.inl hd), stepsLeft_inside (.inl rfl)]
    exact Nat.lt_succ_self _
  | repHead hd =>
    rw [stepsLeft_between (.inl hd), stepsLeft_inside (.inr rfl)]
    exact Nat.lt_succ_self _
  | group hd g v =>
    obtain ⟨h1, -, h3⟩ := hcnt (.inl hd)
    have hle := stepsLeft_le (s.afterGroup v).countDown
    simp only [State.countDown_pixelCount, State.countDown_pixemit, afterGroup_pixelCount, afterGroup_pixemit] at hle
    rw [stepsLeft_inside (.inl hd)]
    omega
  | repetition hd =>
    obtain ⟨h1, -, h3⟩ := hcnt (.inr hd)
    have hle := stepsLeft_le (repeatPixel s)
    simp only [repeatPixel, State.countDown_pixelCount, State.countDown_pixemit, State.emit_pixelCount,
      State.emit_pixemit] at hle
    rw [stepsLeft_inside (.inr hd), repeatPixel]
    omega
  | rawGroup hd hn g v =>
    have hle := stepsLeft_le (s.afterGroup v)
    simp only [afterGroup_pixelCount, afterGroup_pixemit] at hle
    rw [stepsLeft_between (.inr hd)]
    omega

/-- With as many steps as are left the state machine comes to its end (R196, R205). -/
theorem runSteps_inactive {fuel : Nat} {s : State} (hs : s.DecoderLegal) (hf : s.stepsLeft ≤ fuel) :
    (runSteps fuel s).dstate.active = false := by
  induction fuel generalizing s with
  | zero =>
    rcases ha : s.dstate.active with _ | _
    · exact ha
    · have := stepsLeft_pos hs ha; omega
  | succ fuel ih =>
    unfold runSteps
    split
    · rename_i ha
      have hstep := decStep_cases ha
      have := hstep.stepsLeft_lt hs ha
      exact ih (hstep.decoderLegal ha hs) (by omega)
    · simpa using ‹¬ s.dstate.active = true›

/-- A `DEC` raises before its first step, or is a chain of steps that has come to its end (R196, R205). -/
theorem decBody_cases {s : State} (hs : s.status = 0) (he : s.errinfo = 0) :
    (∃ k info, decBody s = s.raiseDec k info) ∨
      s.depthOk = true ∧ s.decStart.Reaches (decBody s) ∧ (decBody s).dstate.active = false := by
  unfold decBody
  split
  · exact .inl ⟨_, _, rfl⟩
  · rename_i hok
    have hok : s.depthOk = true := by simpa using hok
    split
    · exact .inl ⟨_, _, rfl⟩
    · refine .inr ⟨hok, runSteps_reaches _ _, runSteps_inactive (decoderLegal_decStart hok hs he) ?_⟩
      simpa using stepsLeft_le s.decStart

theorem decStart_active (s : State) : s.decStart.dstate.active = true := by
  rw [State.decStart_dstate]
  split <;> rfl

theorem decBody_ends {s : State} (hs : s.status = 0) (he : s.errinfo = 0) :
    (decBody s).dstate.active = false ∧ (decBody s).Ended := by
  rcases decBody_cases hs he with ⟨k, info, h⟩ | ⟨hok, hr, hd⟩
  · rw [h]
    exact ⟨rfl, ended_raiseDec s k info⟩
  · exact ⟨hd, hr.ended (decoderLegal_decStart hok hs he) (decStart_active s) hd⟩

/-! ### What the body of a command does: it raises, or writes its results and completes -/

theorem optBody_cases (s : State) :
    (∃ k info, optBody s = s.raise k info) ∨ ∃ v, optBody s = (s.writeFlags v).complete := by
  unfold optBody
  split
  · exact .inl ⟨_, _, rfl⟩
  · split
    · exact .inl ⟨_, _, rfl⟩
    · split
      · exact .inl ⟨_, _, rfl⟩
      · exact .inr ⟨_, rfl⟩

/-- The state `ENC` completes in, but for `FLAGS` and `STATUS` (R150). -/
def State.withPayload (s : State) (p : BitWriter) : State :=
  { s with payload := s.payload.writeList 0 p.bytes, paylen := p.wcur / 8, wcur := p.wcur }

theorem encBody_cases (s : State) :
    (∃ k info, encBody s = s.raise k info) ∨
      exceeds ((encoded s.depth s.br s.bo s.pixels).wcur / 8) s.cfg.payloadCap = false ∧
      ∃ v, encBody s = ((s.withPayload (encoded s.depth s.br s.bo s.pixels)).writeFlags v).complete := by
  unfold encBody
  split
  · exact .inl ⟨_, _, rfl⟩
  · split
    · exact .inl ⟨_, _, rfl⟩
    · split
      · exact .inl ⟨_, _, rfl⟩
      · dsimp only
        split
        · exact .inl ⟨_, _, rfl⟩
        · exact .inr ⟨by simpa using ‹¬ exceeds _ _ = true›, _, rfl⟩

/-- The state `ASM` completes in when it writes `bytes`, but for `STATUS` (R170). -/
def State.withFile (s : State) (bytes : List Byte) : State :=
  { s with
    file := s.file.writeList 0 bytes, paloff := BitVec.ofNat 16 s.asmOffset, filelen := s.asmOffset + s.paylen }

theorem asmBody_cases (s : State) :
    (∃ k info, asmBody s = s.raise k info) ∨
      exceeds (s.asmOffset + s.paylen) s.cfg.fileCap = false ∧ asmBody s = (s.withFile s.fileBytes).complete := by
  generalize ht : asmBody s = t
  unfold asmBody at ht
  split_ifs at ht with h1 h2 h3 h4 h5
  case neg => exact .inr ⟨by simpa using h5, ht.symm⟩
  all_goals exact .inl ⟨_, _, ht.symm⟩

/-- The state `LDHDR` completes in, but for `STATUS` (R175, R176). -/
def State.withHeader (s : State) : State :=
  { s.writeFlags (s.file.read 17) with
    width := ube16 (s.file.read 10) (s.file.read 11)
    height := ube16 (s.file.read 12) (s.file.read 13)
    bitdepth := s.file.read 14
    paloff := BitVec.ofNat 16 s.fileOffset
    palcount := BitVec.ofNat 16 ((s.fileOffset - 20) / 2)
    pal := s.pal.writeList 0 s.filePalette
    paylen := s.filelen - s.fileOffset
    payload := s.payload.writeList 0 (s.file.readList s.fileOffset (s.filelen - s.fileOffset)) }

theorem ldhdrBody_cases (s : State) :
    (∃ k info, ldhdrBody s = s.raise k info) ∨
      exceeds (s.filelen - s.fileOffset) s.cfg.payloadCap = false ∧ ldhdrBody s = s.withHeader.complete := by
  generalize ht : ldhdrBody s = t
  unfold ldhdrBody at ht
  dsimp only at ht
  split_ifs at ht with h1 h2 h3 h4 h5 h6 h7
  case neg => exact .inr ⟨by simpa using h7, ht.symm⟩
  all_goals exact .inl ⟨_, _, ht.symm⟩

/-! ### The lengths of what the commands write -/

theorem putGroups_holds (d : Nat) (codes : List Code) {w : BitWriter} (h : ∃ bs, w.Holds bs) :
    ∃ bs, (putGroups d w codes).Holds bs := by
  unfold putGroups
  induction codes generalizing w with
  | nil => exact h
  | cons g codes ih =>
    obtain ⟨bs, h⟩ := h
    exact ih ⟨_, BitWriter.holds_putBits h d g.toNat⟩

theorem putBlock_holds (d br bo : Nat) (i : Instr) {w : BitWriter} (h : ∃ bs, w.Holds bs) :
    ∃ bs, (putBlock d br bo w i).Holds bs := by
  obtain ⟨bs, hw⟩ := h
  cases i with
  | rep r => exact ⟨_, BitWriter.holds_putBits (BitWriter.holds_putBits hw 1 0) br r.toNat⟩
  | lit gs =>
    exact putGroups_holds d gs ⟨_, BitWriter.holds_putBits (BitWriter.holds_putBits hw 1 1) bo (gs.length - 1)⟩
  | raw g => exact ⟨_, BitWriter.holds_putBits hw d g.toNat⟩
  | pad => exact ⟨_, BitWriter.holds_padTo16 hw⟩
  | opt | enc | asm | ldhdr | dec | reserved0 | reserved67 => exact ⟨bs, hw⟩

theorem putBlocks_holds (d br bo : Nat) (is : List Instr) {w : BitWriter} (h : ∃ bs, w.Holds bs) :
    ∃ bs, (is.foldl (putBlock d br bo) w).Holds bs := by
  induction is generalizing w with
  | nil => exact h
  | cons i is ih => exact ih (putBlock_holds d br bo i h)

/-- A padded writer has written as many bytes as its cursor counts (R161, R162). -/
theorem padTo16_bytes_length {w : BitWriter} (h : ∃ bs, w.Holds bs) : w.padTo16.bytes.length = w.padTo16.wcur / 8 := by
  obtain ⟨bs, h⟩ := h
  have hp := BitWriter.holds_padTo16 h
  rw [hp.bytes_length, hp.1, List.length_append, List.length_replicate, padBits]
  omega

/-- `ENC` writes `PAYLEN` bytes (R150). -/
theorem encoded_bytes_length (d br bo : Nat) (codes : List Code) :
    (encoded d br bo codes).bytes.length = (encoded d br bo codes).wcur / 8 := by
  unfold encoded
  split
  · exact padTo16_bytes_length (putBlocks_holds d br bo _ ⟨[], BitWriter.holds_empty⟩)
  · exact padTo16_bytes_length (putGroups_holds d codes ⟨[], BitWriter.holds_empty⟩)

theorem flatMap_be16_length (vs : List (BitVec 16)) : (vs.flatMap be16).length = 2 * vs.length := by
  induction vs with
  | nil => rfl
  | cons v vs ih => rw [List.flatMap_cons, List.length_append, ih, List.length_cons, be16]; simp; ring

/-- `ASM` writes `FILELEN` bytes (R170, R171). -/
theorem fileBytes_length (s : State) : s.fileBytes.length = s.asmOffset + s.paylen := by
  rw [State.fileBytes, List.length_append, List.length_append, flatMap_be16_length, Mem.readList_length,
    Mem.readList_length]
  rfl

/-- The palette `LDHDR` loads is within `PAL_CAP`, since its header field has 16 bits (R175). -/
theorem filePalette_fits (s : State) : exceeds (0 + s.filePalette.length) (some palCap) = false := by
  have : s.fileOffset < 2 ^ 16 := (ube16 (s.file.read 18) (s.file.read 19)).isLt
  simp [exceeds, State.filePalette, palCap]
  omega

/-! ### The invariant where no `DEC` runs -/

theorem State.Ended.statusLegal {s : State} (h : s.Ended) : s.StatusLegal := by
  rcases h with ⟨hs, he⟩ | ⟨k, hs⟩
  · exact ⟨.inr (.inl hs), fun _ => he⟩
  · refine ⟨.inr (.inr ⟨k, hs⟩), fun h => ?_⟩
    rw [State.statusErr, hs, (faultStatus_bits k).1] at h
    cases h

theorem statusLegal_of_zero {s : State} (hs : s.status = 0) (he : s.errinfo = 0) : s.StatusLegal :=
  ⟨.inl hs, fun _ => he⟩

theorem State.Legal.beginCommand {s : State} (h : s.Legal) (hd : s.dstate.active = false) : s.beginCommand.Legal :=
  ⟨h.canonical, h.inBounds, h.flags, statusLegal_of_zero rfl rfl, h.batches, decoderLegal_of_inactive hd⟩

theorem State.Legal.raise {s : State} (h : s.Legal) (hd : s.dstate.active = false) (k : ErrKind) (info : Nat) :
    (s.raise k info).Legal :=
  ⟨h.canonical, h.inBounds, h.flags, (ended_raise s k info).statusLegal, h.batches, decoderLegal_of_inactive hd⟩

theorem State.Legal.raiseDec {s : State} (h : s.Legal) (k : ErrKind) (info : Nat) : (s.raiseDec k info).Legal :=
  ⟨h.canonical, h.inBounds, h.flags, (ended_raiseDec s k info).statusLegal, h.batches, decoderLegal_of_inactive rfl⟩

theorem State.Legal.complete {s : State} (h : s.Legal) (hd : s.dstate.active = false) (hs : s.status = 0)
    (he : s.errinfo = 0) : s.complete.Legal :=
  ⟨h.canonical, h.inBounds, h.flags, (ended_complete hs he).statusLegal, h.batches, decoderLegal_of_inactive hd⟩

theorem State.Legal.writeFlags {s : State} (h : s.Legal) (hd : s.dstate.active = false) (v : BitVec 8) :
    (s.writeFlags v).Legal :=
  ⟨h.canonical, h.inBounds, and_7F_getLsbD_7 v, h.status, h.batches, decoderLegal_of_inactive hd⟩

/-- Where no `DEC` runs and only registers, `FLAGS` and memories have been written, the invariant is about those. -/
theorem State.Legal.written {s u : State} (h : s.Legal) (hd : u.dstate.active = false) (hcfg : u.cfg = s.cfg)
    (hstatus : u.status = s.status) (herr : u.errinfo = s.errinfo) (hsink : u.sink = s.sink) (hflags : u.FlagsLegal)
    (hwf : u.MemoriesCanonical) (hbelow : u.MemoriesInBounds) : u.Legal where
  canonical := hwf
  inBounds := hbelow
  flags := hflags
  status := by
    rw [State.StatusLegal, State.statusErr, hstatus, herr]
    exact h.status
  batches := by
    rw [State.BatchesLegal, hsink, hcfg]
    exact h.batches
  decoder := decoderLegal_of_inactive hd

theorem State.Legal.withPayload {s : State} (h : s.Legal) (hd : s.dstate.active = false) {p : BitWriter}
    (hp : p.bytes.length = p.wcur / 8) (hcap : exceeds (p.wcur / 8) s.cfg.payloadCap = false) :
    (s.withPayload p).Legal := by
  obtain ⟨wpixin, wpal, wpayload, wfile, woutbuf⟩ := h.canonical
  obtain ⟨bpixin, bpal, bpayload, bfile, boutbuf⟩ := h.inBounds
  exact h.written hd rfl rfl rfl rfl h.flags ⟨wpixin, wpal, Mem.wf_writeList _ wpayload 0, wfile, woutbuf⟩
    ⟨bpixin, bpal, Mem.below_writeList _ bpayload (by rwa [hp, Nat.zero_add]), bfile, boutbuf⟩

theorem State.Legal.withFile {s : State} (h : s.Legal) (hd : s.dstate.active = false) {bytes : List Byte}
    (hcap : exceeds bytes.length s.cfg.fileCap = false) : (s.withFile bytes).Legal := by
  obtain ⟨wpixin, wpal, wpayload, wfile, woutbuf⟩ := h.canonical
  obtain ⟨bpixin, bpal, bpayload, bfile, boutbuf⟩ := h.inBounds
  exact h.written hd rfl rfl rfl rfl h.flags ⟨wpixin, wpal, wpayload, Mem.wf_writeList _ wfile 0, woutbuf⟩
    ⟨bpixin, bpal, bpayload, Mem.below_writeList _ bfile (by rwa [Nat.zero_add]), boutbuf⟩

theorem State.Legal.withHeader {s : State} (h : s.Legal) (hd : s.dstate.active = false)
    (hcap : exceeds (s.filelen - s.fileOffset) s.cfg.payloadCap = false) : s.withHeader.Legal := by
  obtain ⟨wpixin, wpal, wpayload, wfile, woutbuf⟩ := h.canonical
  obtain ⟨bpixin, bpal, bpayload, bfile, boutbuf⟩ := h.inBounds
  exact h.written hd rfl rfl rfl rfl (and_7F_getLsbD_7 _)
    ⟨wpixin, Mem.wf_writeList _ wpal 0, Mem.wf_writeList _ wpayload 0, wfile, woutbuf⟩
    ⟨bpixin, Mem.below_writeList _ bpal (filePalette_fits s),
      Mem.below_writeList _ bpayload (by rwa [Mem.readList_length, Nat.zero_add]), bfile, boutbuf⟩

/-! ### Every command ends, and keeps the invariant -/

/-- `u` is `s` with the results of a command written and `STATUS` not yet set (R230, R233). -/
structure State.Results (s u : State) : Prop where
  dstate : u.dstate = s.dstate
  status : u.status = s.status
  errinfo : u.errinfo = s.errinfo
  legal : s.dstate.active = false → s.Legal → u.Legal

/-- Every command but `DEC` raises, or writes its results and completes (R230, R233, R256). -/
theorem commandBody_cases {i : Instr} (hi : i.wf .command = true) (hdec : i ≠ .dec) (s : State) :
    (∃ k info, commandBody i s = s.raise k info) ∨ ∃ u, commandBody i s = u.complete ∧ s.Results u := by
  cases i with
  | opt => exact (optBody_cases s).imp_right fun ⟨v, h⟩ => ⟨_, h, ⟨rfl, rfl, rfl, fun hd hl => hl.writeFlags hd v⟩⟩
  | enc =>
    exact (encBody_cases s).imp_right fun ⟨hcap, v, h⟩ =>
      ⟨_, h, ⟨rfl, rfl, rfl, fun hd hl => (hl.withPayload hd (encoded_bytes_length ..) hcap).writeFlags hd v⟩⟩
  | asm =>
    exact (asmBody_cases s).imp_right fun ⟨hcap, h⟩ =>
      ⟨_, h, ⟨rfl, rfl, rfl, fun hd hl => hl.withFile hd (by rwa [fileBytes_length])⟩⟩
  | ldhdr =>
    exact (ldhdrBody_cases s).imp_right fun ⟨hcap, h⟩ => ⟨_, h, ⟨rfl, rfl, rfl, fun hd hl => hl.withHeader hd hcap⟩⟩
  | dec => exact absurd rfl hdec
  | reserved0 | reserved67 => exact .inl ⟨_, _, rfl⟩
  | rep | lit | raw | pad => cases hi

/-- From a cleared `STATUS` every command comes to its end, with no `DEC` left running (R230 (3)). -/
theorem commandBody_ends {i : Instr} (hi : i.wf .command = true) {s : State} (hd : s.dstate.active = false)
    (hs : s.status = 0) (he : s.errinfo = 0) : (commandBody i s).dstate.active = false ∧ (commandBody i s).Ended := by
  by_cases hdec : i = .dec
  · subst hdec
    exact decBody_ends hs he
  · rcases commandBody_cases hi hdec s with ⟨k, info, h⟩ | ⟨u, h, hu⟩ <;> rw [h]
    · exact ⟨hd, ended_raise s k info⟩
    · exact ⟨hu.dstate ▸ hd, ended_complete (hu.status.trans hs) (hu.errinfo.trans he)⟩

/-- Settles O14: a command is issued from a cleared `STATUS`, and from there its body ends. -/
theorem commandEndsDoneOrFaulted : Obligations.CommandEndsDoneOrFaulted := by
  intro s i hd hi
  obtain ⟨hend, hstatus⟩ := commandBody_ends hi (s := s.beginCommand) hd rfl rfl
  exact ⟨_, by rw [exec_eq_issue hi, issue_of_idle hd], hend, hstatus⟩

/-- Each step of a running decoder keeps the invariant (R197, R204). -/
theorem State.Steps.legal {s t : State} (ha : s.dstate.active = true) (h : s.Steps t) (hl : s.Legal) : t.Legal := by
  have ho := hl.decoder.outcnt_lt ha
  obtain ⟨-, -, -, -, hst, herr, -⟩ := hl.decoder ha
  obtain ⟨wpixin, wpal, wpayload, wfile, woutbuf⟩ := hl.canonical
  obtain ⟨bpixin, bpal, bpayload, bfile, boutbuf⟩ := hl.inBounds
  have hw := (h.decWrites ho).frame
  refine ⟨?_, ?_, ?_, ?_, ?_, h.decoderLegal ha hl.decoder⟩
  · have hwf : t.outbuf.wf := by
      rcases h.outbuf_cases with he | ⟨v, he⟩ <;> rw [he]
      · exact woutbuf
      · exact Mem.wf_write woutbuf _ v
    rw [hw]
    exact ⟨wpixin, wpal, wpayload, wfile, hwf⟩
  · have hbelow : t.outbuf.below (some s.cfg.batch) := by
      rcases h.outbuf_cases with he | ⟨v, he⟩ <;> rw [he]
      · exact boutbuf
      · exact Mem.below_write boutbuf (by simp [exceeds]; omega) v
    rw [hw]
    exact ⟨bpixin, bpal, bpayload, bfile, hbelow⟩
  · rw [hw]
    exact hl.flags
  · rcases hact : t.dstate.active with _ | _
    · exact (h.ended hst herr hact).statusLegal
    · rcases h.goes_on_or_ends with ⟨-, hs', he'⟩ | rfl | ⟨k, info, rfl⟩
      · exact statusLegal_of_zero (hs'.trans hst) (he'.trans herr)
      · exact (ended_finish hst herr).statusLegal
      · exact (ended_raiseDec s k info).statusLegal
  · intro b hb
    rw [h.cfg_eq]
    rcases h.sink_cases ho with he | ⟨c, he, hc⟩ <;> rw [he] at hb
    · exact hl.batches b hb
    · rcases List.mem_append.1 hb with hb | hb
      · exact hl.batches b hb
      · rwa [List.mem_singleton.1 hb]

theorem State.Reaches.legal {s t : State} (h : s.Reaches t) (hl : s.Legal) : t.Legal :=
  h.keeps (P := State.Legal) (fun ha hab => hab.legal ha) hl

theorem State.Legal.decStart {s : State} (h : s.Legal) (hok : s.depthOk = true) (hs : s.status = 0)
    (he : s.errinfo = 0) : s.decStart.Legal :=
  ⟨h.canonical, h.inBounds, h.flags, h.status, h.batches, decoderLegal_decStart hok hs he⟩

theorem commandBody_legal {i : Instr} (hi : i.wf .command = true) {s : State} (hl : s.Legal)
    (hd : s.dstate.active = false) (hs : s.status = 0) (he : s.errinfo = 0) : (commandBody i s).Legal := by
  by_cases hdec : i = .dec
  · subst hdec
    rcases decBody_cases hs he with ⟨k, info, h⟩ | ⟨hok, hr, -⟩
    · rw [commandBody, h]
      exact hl.raiseDec k info
    · exact hr.legal (hl.decStart hok hs he)
  · rcases commandBody_cases hi hdec s with ⟨k, info, h⟩ | ⟨u, h, hu⟩ <;> rw [h]
    · exact hl.raise hd k info
    · exact (hu.legal hd hl).complete (hu.dstate ▸ hd) (hu.status.trans hs) (hu.errinfo.trans he)

/-- A command issued in a legal state leaves a legal state (R230). -/
theorem exec_command_legal {i : Instr} {s t : State} (hi : i.wf .command = true) (hl : s.Legal)
    (h : exec i s = .next t) : t.Legal := by
  rw [exec_eq_issue hi] at h
  obtain ⟨hd, rfl⟩ := issue_eq_next.1 h
  exact commandBody_legal hi (hl.beginCommand hd) hd rfl rfl

theorem decodeCommand_wf (c : BitVec 3) : (decodeCommand c).wf .command = true := by
  unfold decodeCommand
  split_ifs <;> rfl

/-! ### The host's accesses keep the invariant -/

/-- The invariant after reset, for every parameters and contents (R280, R281). -/
theorem resetWith_legal (cfg : Config) (c : ResetContents) : (State.resetWith cfg c).Legal where
  canonical := ⟨Mem.wf_ofContents cfg.pixinCap c.pixin, Mem.wf_ofContents (some palCap) c.pal,
    Mem.wf_ofContents cfg.payloadCap c.payload, Mem.wf_ofContents cfg.fileCap c.file,
    Mem.wf_ofContents (some cfg.batch) c.outbuf⟩
  inBounds := ⟨Mem.below_ofContents cfg.pixinCap c.pixin, Mem.below_ofContents (some palCap) c.pal,
    Mem.below_ofContents cfg.payloadCap c.payload, Mem.below_ofContents cfg.fileCap c.file,
    Mem.below_ofContents (some cfg.batch) c.outbuf⟩
  flags := show (0 : BitVec 8).getLsbD 7 = false by decide
  status := statusLegal_of_zero rfl rfl
  batches _ hb := absurd hb List.not_mem_nil
  decoder := decoderLegal_of_inactive rfl

theorem hostWriteReg_legal {r : Reg} {v : Nat} {s t : State} (hl : s.Legal) (hd : s.dstate.active = false)
    (h : hostWriteReg r v s = .next t) : t.Legal := by
  have hdec : ∀ {u : State}, u.dstate = s.dstate → u.DecoderLegal := fun hu => decoderLegal_of_inactive (hu ▸ hd)
  cases r with
  | width | height | bitdepth | palcount =>
    obtain ⟨-, rfl⟩ := fits_eq_next.1 h
    exact ⟨hl.canonical, hl.inBounds, hl.flags, hl.status, hl.batches, hdec rfl⟩
  | flags =>
    obtain ⟨-, rfl⟩ := fits_eq_next.1 h
    exact hl.writeFlags hd _
  | paylen | filelen =>
    obtain rfl := Host.Outcome.next.inj h
    exact ⟨hl.canonical, hl.inBounds, hl.flags, hl.status, hl.batches, hdec rfl⟩
  | cmd | status | errinfo | paloff | cur | pixemit | lastpix | outcnt | dstate | cnt | wcur =>
    rwa [← Host.Outcome.next.inj h]

theorem hostAccess_legal {op : HostOp} {s t : State} (hl : s.Legal) (hd : s.dstate.active = false)
    (h : hostAccess op s = .next t) : t.Legal := by
  obtain ⟨wpixin, wpal, wpayload, wfile, woutbuf⟩ := hl.canonical
  obtain ⟨bpixin, bpal, bpayload, bfile, boutbuf⟩ := hl.inBounds
  have hdec : ∀ {u : State}, u.dstate = s.dstate → u.DecoderLegal := fun hu => decoderLegal_of_inactive (hu ▸ hd)
  cases op with
  | writeReg r v => exact hostWriteReg_legal hl hd h
  | writePixin i v =>
    obtain ⟨hi, rfl⟩ := inMemory_eq_next.1 h
    exact ⟨⟨Mem.wf_write wpixin i v, wpal, wpayload, wfile, woutbuf⟩,
      ⟨Mem.below_write bpixin hi v, bpal, bpayload, bfile, boutbuf⟩, hl.flags, hl.status, hl.batches, hdec rfl⟩
  | writePal i v =>
    obtain ⟨hi, rfl⟩ := inMemory_eq_next.1 h
    exact ⟨⟨wpixin, Mem.wf_write wpal i v, wpayload, wfile, woutbuf⟩,
      ⟨bpixin, Mem.below_write bpal hi v, bpayload, bfile, boutbuf⟩, hl.flags, hl.status, hl.batches, hdec rfl⟩
  | writePayload i v =>
    obtain ⟨hi, rfl⟩ := inMemory_eq_next.1 h
    exact ⟨⟨wpixin, wpal, Mem.wf_write wpayload i v, wfile, woutbuf⟩,
      ⟨bpixin, bpal, Mem.below_write bpayload hi v, bfile, boutbuf⟩, hl.flags, hl.status, hl.batches, hdec rfl⟩
  | writeFile i v =>
    obtain ⟨hi, rfl⟩ := inMemory_eq_next.1 h
    exact ⟨⟨wpixin, wpal, wpayload, Mem.wf_write wfile i v, woutbuf⟩,
      ⟨bpixin, bpal, bpayload, Mem.below_write bfile hi v, boutbuf⟩, hl.flags, hl.status, hl.batches, hdec rfl⟩
  | reset c =>
    obtain rfl := Host.Outcome.next.inj h
    have hr := resetWith_legal s.cfg c
    exact ⟨hr.canonical, hr.inBounds, hr.flags, hr.status, hr.batches, decoderLegal_of_inactive rfl⟩

theorem State.Legal.takeHost {s : State} (h : s.Legal) (ops : List HostOp) : ({ s with host := ops } : State).Legal :=
  ⟨h.canonical, h.inBounds, h.flags, h.status, h.batches, h.decoder⟩

/-- Settles O58: a step of a running `DEC` is a chain of decoder steps; any other takes a host access or waits. -/
theorem stepKeepsLegal : Obligations.StepKeepsLegal := by
  intro s t hl h
  rcases hd : s.dstate.active with _ | _
  · have hf := fetch_cases s
    unfold step at h
    generalize fetch s = f at h hf
    cases hf with
    | block _ hd' => rcases hd' with hd' | hd' <;> rw [hd'] at hd <;> cases hd
    | decoder hd' =>
      rw [hd] at hd'
      cases hd'
    | command _ v ops => exact exec_command_legal (decodeCommand_wf _) (hl.takeHost ops) h
    | access _ op ops => exact hostAccess_legal (hl.takeHost ops) hd h
    | wait => rwa [← Host.Outcome.next.inj h]
  · exact (step_reaches hd h).2.legal hl

/-! ### `PIXIN` at `N` and above (R40) -/

/-- `s` with other contents of `PIXIN`. -/
def State.withPixin (s : State) (p : Mem 16) : State := { s with pixin := p }

@[simp] theorem State.withPixin_cfg (s : State) (p : Mem 16) : (s.withPixin p).cfg = s.cfg := rfl
@[simp] theorem State.withPixin_depth (s : State) (p : Mem 16) : (s.withPixin p).depth = s.depth := rfl
@[simp] theorem State.withPixin_depthOk (s : State) (p : Mem 16) : (s.withPixin p).depthOk = s.depthOk := rfl
@[simp] theorem State.withPixin_pixelCount (s : State) (p : Mem 16) : (s.withPixin p).pixelCount = s.pixelCount := rfl
@[simp] theorem State.withPixin_br (s : State) (p : Mem 16) : (s.withPixin p).br = s.br := rfl
@[simp] theorem State.withPixin_bo (s : State) (p : Mem 16) : (s.withPixin p).bo = s.bo := rfl

theorem State.withPixin_pixels {s : State} {p : Mem 16} (hp : ∀ j, j < s.pixelCount → p.read j = s.pixin.read j) :
    (s.withPixin p).pixels = s.pixels :=
  Mem.readList_congr fun i hi => by simpa [State.withPixin] using hp i hi

/-- `OPT` reads `PIXIN` only as the pixel sequence, and does not write it (R40, R120). -/
theorem optBody_withPixin {s : State} {p : Mem 16} (hp : ∀ j, j < s.pixelCount → p.read j = s.pixin.read j) :
    optBody (s.withPixin p) = (optBody s).withPixin p := by
  unfold optBody
  simp only [State.withPixin_cfg, State.withPixin_depth, State.withPixin_depthOk, State.withPixin_pixelCount,
    State.withPixin_pixels hp]
  split
  · rfl
  · split
    · rfl
    · split <;> rfl

/-- `ENC` reads `PIXIN` only as the pixel sequence, and does not write it (R40, R140). -/
theorem encBody_withPixin {s : State} {p : Mem 16} (hp : ∀ j, j < s.pixelCount → p.read j = s.pixin.read j) :
    encBody (s.withPixin p) = (encBody s).withPixin p := by
  unfold encBody
  simp only [State.withPixin_cfg, State.withPixin_depth, State.withPixin_depthOk, State.withPixin_pixelCount,
    State.withPixin_br, State.withPixin_bo, State.withPixin_pixels hp]
  split
  · rfl
  · split
    · rfl
    · split
      · rfl
      · split <;> rfl

/-- Settles O22: each body sees the same pixel sequence, and leaves `PIXIN` as it finds it. -/
theorem pixelsAboveNDoNotMatter : Obligations.PixelsAboveNDoNotMatter := by
  rintro s t p i (rfl | rfl) hp h
  · obtain ⟨hd, rfl⟩ := issue_eq_next.1 h
    exact issue_eq_next.2 ⟨hd, (optBody_withPixin (s := s.beginCommand) hp).symm⟩
  · obtain ⟨hd, rfl⟩ := issue_eq_next.1 h
    exact issue_eq_next.2 ⟨hd, (encBody_withPixin (s := s.beginCommand) hp).symm⟩

/-! ### `BITDEPTH` outside 1 to 16 (R262) -/

theorem optBody_badDepth {s : State} (h : s.depthOk = false) : optBody s = s.raise .badConfig 1 := by
  simp [optBody, h]

theorem encBody_badDepth {s : State} (h : s.depthOk = false) : encBody s = s.raise .badConfig 1 := by
  simp [encBody, h]

theorem asmBody_badDepth {s : State} (h : s.depthOk = false) : asmBody s = s.raise .badConfig 1 := by
  simp [asmBody, h]

theorem decBody_badDepth {s : State} (h : s.depthOk = false) : decBody s = s.raiseDec .badConfig 1 := by
  simp [decBody, h]

/-- Settles O11: the first check of each of the four bodies fails. -/
theorem badDepthRaisesBadConfig : Obligations.BadDepthRaisesBadConfig := by
  intro s hd hdepth
  have hok : s.beginCommand.depthOk = false := depthOk_eq_false hdepth
  refine ⟨?_, ?_, ?_, ?_⟩ <;> rw [exec_eq_issue (by rfl), issue_of_idle hd, commandBody]
  · rw [optBody_badDepth hok]; rfl
  · rw [encBody_badDepth hok]; rfl
  · rw [asmBody_badDepth hok]; rfl
  · rw [decBody_badDepth hok]; rfl

/-! ### The host's accesses (R21, R22, R40 to R43) -/

/-- With no `DEC` running the next access of the host is taken, but for a write of `CMD` (R21). -/
theorem step_of_access {s : State} {op : HostOp} {ops : List HostOp} (hd : s.dstate.active = false)
    (hq : s.host = op :: ops) (hop : ∀ v, op ≠ .writeReg .cmd v) : step s = hostAccess op { s with host := ops } := by
  have hf := fetch_cases s
  unfold step
  generalize fetch s = f at hf
  cases hf with
  | block _ hd' => rcases hd' with hd' | hd' <;> rw [hd'] at hd <;> cases hd
  | decoder hd' =>
    rw [hd] at hd'
    cases hd'
  | command _ v _ hq' => exact absurd (List.cons.inj (hq.symm.trans hq')).1 (hop v)
  | access _ _ _ hq' =>
    obtain ⟨rfl, rfl⟩ := List.cons.inj (hq.symm.trans hq')
    rfl
  | wait _ hq' =>
    rw [hq] at hq'
    cases hq'

theorem fits_of_lt {w v : Nat} (h : v < 2 ^ w) (u : State) : fits w v u = .next u := fits_eq_next.2 ⟨h, rfl⟩

theorem inMemory_of_exists {i : Nat} {cap : Option Nat} (h : exceeds (i + 1) cap = false) (u : State) :
    inMemory i cap u = .next u := inMemory_eq_next.2 ⟨h, rfl⟩

/-- The host's write of a register changes what it reads of that one only (R22). -/
theorem readReg_hostWriteReg_ne {r q : Reg} {v : Nat} {s t : State} (h : hostWriteReg r v s = .next t) (hq : q ≠ r) :
    t.readReg q = s.readReg q := by
  cases r with
  | width | height | bitdepth | flags | palcount =>
    obtain ⟨-, rfl⟩ := fits_eq_next.1 h
    cases q <;> trivial
  | paylen | filelen =>
    obtain rfl := Host.Outcome.next.inj h
    cases q <;> trivial
  | cmd | status | errinfo | paloff | cur | pixemit | lastpix | outcnt | dstate | cnt | wcur =>
    rw [← Host.Outcome.next.inj h]

/-- A value that fits a register of `w` bits is read back whole. -/
theorem toNat_ofNat_of_lt {w v : Nat} (h : v < 2 ^ w) : some (BitVec.ofNat w v).toNat = some v := by
  rw [BitVec.toNat_ofNat, Nat.mod_eq_of_lt h]

/-- `FLAGS` reads back with bit 7 zero (R27). -/
theorem flags_read_back (v : Nat) : (BitVec.ofNat 8 v &&& 0x7F).toNat = v % 128 := by
  have h127 : (0x7F : BitVec 8).toNat = 2 ^ 7 - 1 := rfl
  rw [BitVec.toNat_and, BitVec.toNat_ofNat, h127, Nat.and_two_pow_sub_one_eq_mod]
  omega

/-- A host write of a register that is taken reads back as `n` and leaves every other register. -/
theorem step_writeReg {s t : State} {r : Reg} {v n : Nat} {ops : List HostOp} (hd : s.dstate.active = false)
    (hq : s.host = .writeReg r v :: ops) (hr : r ≠ .cmd) (h : hostWriteReg r v { s with host := ops } = .next t)
    (hn : t.readReg r = some n) :
    ∃ t, step s = .next t ∧ t.readReg r = some n ∧ ∀ q, q ≠ r → t.readReg q = s.readReg q := by
  refine ⟨t, ?_, hn, fun q hqr => readReg_hostWriteReg_ne (s := { s with host := ops }) h hqr⟩
  rw [step_of_access hd hq (by simp [hr])]
  exact h

/-- Settles O55: the access is taken; each read-write register reads back its value, and no other register moves. -/
theorem hostWritesRegisters : Obligations.HostWritesRegisters := by
  intro s r v ops hd hq
  refine ⟨?_, ?_, ?_, ?_, ?_⟩
  · rintro (rfl | rfl | rfl) hv
    all_goals exact step_writeReg hd hq (by decide) (fits_of_lt hv _) (toNat_ofNat_of_lt hv)
  · rintro rfl hv
    exact step_writeReg hd hq (by decide) (fits_of_lt hv _) (toNat_ofNat_of_lt hv)
  · rintro rfl hv
    refine step_writeReg hd hq (by decide) (fits_of_lt hv _) ?_
    rw [State.readReg, readFlags_writeFlags, flags_read_back]
  · rintro (rfl | rfl)
    all_goals exact step_writeReg hd hq (by decide) rfl rfl
  · rintro (rfl | rfl | rfl | rfl | rfl | rfl | rfl | rfl | rfl | rfl)
    all_goals exact step_of_access hd hq (by simp)

/-- Settles O56: the access is taken, and a read after the element write is `Mem.read_write`. -/
theorem hostWritesElements : Obligations.HostWritesElements := by
  intro s i c b ops hd
  refine ⟨fun hq hi => ?_, fun hq hi => ?_, fun hq hi => ?_, fun hq hi => ?_⟩ <;>
    rw [step_of_access hd hq (by simp)]
  · exact ⟨s.pixin.write i c, inMemory_of_exists hi _, fun j => Mem.read_write i j c _⟩
  · exact ⟨s.pal.write i c, inMemory_of_exists (by simpa [exceeds, palCap] using hi) _, fun j => Mem.read_write i j c _⟩
  · exact ⟨s.payload.write i b, inMemory_of_exists hi _, fun j => Mem.read_write i j b _⟩
  · exact ⟨s.file.write i b, inMemory_of_exists hi _, fun j => Mem.read_write i j b _⟩

end Sys2Proof.Machine

/-!
# Bits, bytes and the file image (20_memory.md R60 to R63; 42_assembler.md R161 to R176; 43_decoder.md R191)

What the bit writer holds and the bit reader gives, as lists and sums of bits; then where each part of the file stands
after `ASM`, and where `LDHDR` takes each field from.
-/

namespace Sys2Proof.Machine

/-! ### The bit writer (R161, R163) -/

/-- A list of fields put one after another appends their bits in order. -/
theorem BitWriter.holds_putFields (fs : List (Nat × Nat)) : ∀ {w : BitWriter} {bs : List Bool}, w.Holds bs →
    (fs.foldl (fun w f => w.putBits f.1 f.2) w).Holds (bs ++ fs.flatMap fun f => fieldBits f.1 f.2) := by
  induction fs with
  | nil => intro w bs h; simpa using h
  | cons f fs ih => intro w bs h; simpa using ih (BitWriter.holds_putBits h f.1 f.2)

/-- Settles O30: the empty writer holds no bits, and each field appends its own. -/
theorem writerConcatenatesFields : Obligations.WriterConcatenatesFields :=
  fun fs => BitWriter.holds_putFields fs BitWriter.holds_empty

/-! ### The bit reader (R191) -/

theorem bitsFrom_succ (s : State) (p n : Nat) : s.bitsFrom p (n + 1) = s.bit p :: s.bitsFrom (p + 1) n := by
  rw [Nat.add_comm, bitsFrom_add]; rfl

/-- The first of `n` payload bits weighs `2^(n-1)`, the last 1 (R62, R191). -/
theorem bitsVal_bitsFrom (s : State) (n : Nat) : ∀ p, bitsVal (s.bitsFrom p n) =
    ∑ i ∈ Finset.range n, (s.bit (p + i)).toNat * 2 ^ (n - 1 - i) := by
  induction n with
  | zero => intro p; rfl
  | succ n ih =>
    intro p
    rw [bitsFrom_succ, bitsVal_cons, bitsFrom_length, ih, Finset.sum_range_succ', Nat.add_comm]
    refine congrArg (· + _) (Finset.sum_congr rfl fun i _ => ?_)
    have hpos : p + 1 + i = p + (i + 1) := by omega
    have hexp : n - 1 - i = n + 1 - 1 - (i + 1) := by omega
    rw [hpos, hexp]

/-- Settles O36: the two outcomes of `GetBits`, and the value it shifts in as a sum. -/
theorem getBitsIsTheSumOfItsBits : Obligations.GetBitsIsTheSumOfItsBits := by
  intro s n
  refine ⟨fun _ hle => ?_, fun hn hlt => getBits_eq_none.2 ⟨hn, hlt⟩, rfl⟩
  rw [getBits_of_le (.inr hle), bitsVal_bitsFrom]
  rfl

/-! ### Parts of what was written (R63) -/

/-- A part of a written list reads back from its own place. -/
theorem Mem.readList_writeList_part {w : Nat} (m : Mem w) (pre mid post : List (BitVec w)) :
    (m.writeList 0 (pre ++ mid ++ post)).readList pre.length mid.length = mid := by
  apply List.ext_getElem
  · simp
  · intro i h1 h2
    have h := Mem.read_writeList_mem (vs := pre ++ mid ++ post) m 0 (i := pre.length + i) (by simp; omega)
    rw [Nat.zero_add] at h
    rw [Mem.readList_getElem, h, List.getElem_append_left (by simp; omega), List.getElem_append_right (by omega)]
    simp only [Nat.add_sub_cancel_left]

/-- A range of a memory around its element `i`. -/
theorem Mem.readList_split {w : Nat} (m : Mem w) {i n : Nat} (h : i < n) :
    m.readList 0 n = m.readList 0 i ++ [m.read i] ++ m.readList (i + 1) (n - (i + 1)) := by
  have hn : n = i + 1 + (n - (i + 1)) := by omega
  conv_lhs => rw [hn, Mem.readList_add, Mem.readList_succ]
  simp only [Nat.zero_add]

/-! ### The file `ASM` writes (R90 to R93, R170) -/

theorem be16_length (v : BitVec 16) : (be16 v).length = 2 := rfl

theorem headerBytes_length (s : State) : s.headerBytes.length = 20 := rfl

theorem withFile_file (s : State) (bytes : List Byte) : (s.withFile bytes).file = s.file.writeList 0 bytes := rfl

theorem withFile_header (s : State) : (s.withFile s.fileBytes).file.readList 0 20 = s.headerBytes := by
  have hpart := Mem.readList_writeList_part s.file [] s.headerBytes
    ((s.pal.readList 0 s.asmEntries).flatMap be16 ++ s.payload.readList 0 s.paylen)
  rwa [headerBytes_length, List.nil_append, ← List.append_assoc, ← State.fileBytes, ← withFile_file] at hpart

theorem withFile_palette (s : State) {i : Nat} (h : i < s.asmEntries) :
    (s.withFile s.fileBytes).file.readList (20 + 2 * i) 2 = be16 (s.pal.read i) := by
  have hbytes : s.fileBytes = (s.headerBytes ++ (s.pal.readList 0 i).flatMap be16) ++ be16 (s.pal.read i) ++
      ((s.pal.readList (i + 1) (s.asmEntries - (i + 1))).flatMap be16 ++ s.payload.readList 0 s.paylen) := by
    simp [State.fileBytes, Mem.readList_split s.pal h]
  have hpart := Mem.readList_writeList_part s.file (s.headerBytes ++ (s.pal.readList 0 i).flatMap be16)
    (be16 (s.pal.read i))
    ((s.pal.readList (i + 1) (s.asmEntries - (i + 1))).flatMap be16 ++ s.payload.readList 0 s.paylen)
  rwa [List.length_append, headerBytes_length, flatMap_be16_length, Mem.readList_length, be16_length, ← hbytes,
    ← withFile_file] at hpart

theorem withFile_payload (s : State) {i : Nat} (h : i < s.paylen) :
    (s.withFile s.fileBytes).file.read (s.asmOffset + i) = s.payload.read i := by
  have hpart := Mem.readList_writeList_part s.file (s.headerBytes ++ (s.pal.readList 0 s.asmEntries).flatMap be16)
    (s.payload.readList 0 s.paylen) []
  rw [List.length_append, headerBytes_length, flatMap_be16_length, Mem.readList_length, Mem.readList_length,
    List.append_nil, ← State.fileBytes, ← State.asmOffset, ← withFile_file] at hpart
  have hi := List.getElem_of_eq hpart (i := i) (by simpa using h)
  rwa [Mem.readList_getElem, Mem.readList_getElem, Nat.zero_add] at hi

theorem withFile_above (s : State) {a : Nat} (h : s.asmOffset + s.paylen ≤ a) :
    (s.withFile s.fileBytes).file.read a = s.file.read a := by
  rw [withFile_file, Mem.read_writeList_out s.file (.inr _)]
  rwa [Nat.zero_add, fileBytes_length]

/-- A legal palette leaves `paletteOffset` within its 16 bits (R171, R172). -/
theorem asmOffset_lt {s : State} (h : s.PaletteLegal) : s.asmOffset < 2 ^ 16 := by
  unfold State.asmOffset State.asmEntries
  split
  · decide
  · rcases h with h | ⟨-, h⟩ <;> omega

/-- Where every check of `ASM` passes, it writes the file and completes (R170, R172). -/
theorem asmBody_of_legal {s : State} (hok : s.depthOk = true) (hpal : s.PaletteLegal)
    (hpay : exceeds s.paylen s.cfg.payloadCap = false)
    (hfile : exceeds (s.asmOffset + s.paylen) s.cfg.fileCap = false) :
    asmBody s = (s.withFile s.fileBytes).complete := by
  have hsize : ¬ (s.depth ≠ 16 ∧ 2 ^ s.depth < s.palcount.toNat) := fun ⟨h16, hlt⟩ =>
    hpal.elim h16 fun h => absurd hlt (Nat.not_lt.2 h.1)
  have hoff : ¬ (s.depth ≠ 16 ∧ 65535 < 20 + 2 * s.palcount.toNat) := fun ⟨h16, hlt⟩ =>
    hpal.elim h16 fun h => absurd hlt (Nat.not_lt.2 h.2)
  rw [asmBody, if_neg (by simp [hok]), if_neg hsize, if_neg hoff, if_neg (by simp [hpay]), if_neg (by simp [hfile])]
  rfl

theorem beginCommand_fileBytes (s : State) : s.beginCommand.fileBytes = s.fileBytes := rfl

/-- Settles O31: the checks pass from the cleared `STATUS`, and each part of the file stands at its place. -/
theorem asmBuildsTheFile : Obligations.AsmBuildsTheFile := by
  intro s hd hok hpal np hpay hfile
  have hexec : exec .asm s = .next (s.beginCommand.withFile s.fileBytes).complete := by
    rw [exec_eq_issue rfl, issue_of_idle hd, commandBody, asmBody_of_legal (s := s.beginCommand) hok hpal hpay hfile,
      beginCommand_fileBytes]
  rw [complete_of_status rfl] at hexec
  have hoff : (BitVec.ofNat 16 s.asmOffset).toNat = s.asmOffset := Nat.mod_eq_of_lt (asmOffset_lt hpal)
  have hheader := withFile_header s
  have hpalette := fun i => withFile_palette s (i := i)
  have hpayload := fun i => withFile_payload s (i := i)
  have habove := fun a => withFile_above s (a := a)
  -- from here on only what the bytes read back as matters
  generalize s.fileBytes = bytes at hexec hheader hpalette hpayload habove
  exact ⟨_, hexec, rfl, hoff, hheader, hpalette, hpayload, habove⟩

/-! ### The file `LDHDR` loads (R175, R176) -/

/-- `UBE16` is in range for every two bytes (R60). -/
theorem ube16_toNat (b0 b1 : Byte) : (ube16 b0 b1).toNat = 256 * b0.toNat + b1.toNat := by
  rw [ube16, BitVec.toNat_ofNat]
  omega

theorem fileOffset_eq (s : State) : s.fileOffset = 256 * (s.file.read 18).toNat + (s.file.read 19).toNat :=
  ube16_toNat ..

/-- The file passes every check of `LDHDR` (R175, R261, R264). -/
structure State.FileLegal (s : State) : Prop where
  filelen_fits : exceeds s.filelen s.cfg.fileCap = false
  header : 20 ≤ s.filelen
  magic_bytes : s.file.readList 0 10 = magic
  depth : 1 ≤ (s.file.read 14).toNat ∧ (s.file.read 14).toNat ≤ 16
  offset : 20 ≤ s.fileOffset ∧ s.fileOffset ≤ s.filelen
  even : (s.fileOffset - 20) % 2 = 0
  payload_fits : exceeds (s.filelen - s.fileOffset) s.cfg.payloadCap = false

/-- Where every check of `LDHDR` passes, it loads the header and completes (R175, R176). -/
theorem ldhdrBody_of_legal {s : State} (h : s.FileLegal) : ldhdrBody s = s.withHeader.complete := by
  obtain ⟨hlen, hhdr, hmagic, hdepth, hoff, heven, hpay⟩ := h
  rw [ldhdrBody, if_neg (by simp [hlen]), if_neg (by omega), if_neg (not_not.2 hmagic), if_neg (by omega),
    if_neg (by omega), if_neg (by omega), if_neg (by simp [hpay])]
  rfl

theorem fileOffset_lt (s : State) : s.fileOffset < 2 ^ 16 := (ube16 (s.file.read 18) (s.file.read 19)).isLt

theorem filePalette_length (s : State) : s.filePalette.length = (s.fileOffset - 20) / 2 := by simp [State.filePalette]

theorem withHeader_palette (s : State) {i : Nat} (h : i < (s.fileOffset - 20) / 2) :
    s.withHeader.pal.read i = ube16 (s.file.read (20 + 2 * i)) (s.file.read (21 + 2 * i)) := by
  have hread := Mem.read_writeList_mem s.pal 0 ((filePalette_length s).symm ▸ h)
  rw [Nat.zero_add] at hread
  exact hread.trans (by simp [State.filePalette])

theorem withHeader_palette_above (s : State) {i : Nat} (h : (s.fileOffset - 20) / 2 ≤ i) :
    s.withHeader.pal.read i = s.pal.read i :=
  Mem.read_writeList_out s.pal (.inr (by rwa [Nat.zero_add, filePalette_length]))

theorem withHeader_payload (s : State) {i : Nat} (h : i < s.filelen - s.fileOffset) :
    s.withHeader.payload.read i = s.file.read (s.fileOffset + i) := by
  have hread := Mem.read_writeList_mem (vs := s.file.readList s.fileOffset (s.filelen - s.fileOffset)) s.payload 0
    (i := i) (by simpa using h)
  rwa [Nat.zero_add, Mem.readList_getElem] at hread

theorem withHeader_payload_above (s : State) {i : Nat} (h : s.filelen - s.fileOffset ≤ i) :
    s.withHeader.payload.read i = s.payload.read i :=
  Mem.read_writeList_out s.payload (.inr (by rwa [Nat.zero_add, Mem.readList_length]))

/-- Settles O33: the checks pass from the cleared `STATUS`, and each field is what `withHeader` reads from its place. -/
theorem ldhdrLoadsTheFile : Obligations.LdhdrLoadsTheFile := by
  intro s hd hlen hhdr hmagic hdepth1 hdepth16
  rw [← fileOffset_eq]
  intro po hpo1 hpo2 heven hpay
  have hlegal : s.beginCommand.FileLegal := ⟨hlen, hhdr, hmagic, ⟨hdepth1, hdepth16⟩, ⟨hpo1, hpo2⟩, heven, hpay⟩
  have hexec : exec .ldhdr s = .next s.beginCommand.withHeader.complete := by
    rw [exec_eq_issue rfl, issue_of_idle hd, commandBody, ldhdrBody_of_legal hlegal]
  rw [complete_of_status rfl] at hexec
  have hoff := fileOffset_lt s
  refine ⟨_, hexec, rfl, ube16_toNat .., ube16_toNat .., Nat.mod_eq_of_lt hoff, Nat.mod_eq_of_lt ?_, fun i hi => ?_,
    fun i hi => withHeader_palette_above s hi, fun i hi => withHeader_payload s hi,
    fun i hi => withHeader_payload_above s hi⟩
  · show (s.fileOffset - 20) / 2 < 2 ^ 16
    omega
  · exact (congrArg _ (withHeader_palette s hi)).trans (ube16_toNat ..)

end Sys2Proof.Machine

/-!
# Instructions as bits (30_encoding.md R95 to R108)

Every reader of the decoder as an equivalence: what it reads is what stands at the front of the bit string and is in
range. The round trip of `encode` and `decode` is then one equivalence read in its two directions.
-/

namespace Sys2Proof

/-! ### Fields and groups of fields (R62, R100, R191) -/

/-- The control bit of a block (R102). -/
theorem takeField_one_cons (b : Bool) (bs : List Bool) : takeField 1 (b :: bs) = some (b.toNat, bs) := by
  cases b <;> rfl

@[simp] theorem rawStream_nil (d : Nat) : Machine.rawStream d [] = [] := rfl

@[simp] theorem rawStream_cons (d : Nat) (g : Code) (gs : List Code) :
    Machine.rawStream d (g :: gs) = fieldBits d g.toNat ++ Machine.rawStream d gs := rfl

/-- A value of at most `w` bits survives its way through a word of `w` bits. -/
theorem toNat_ofNat_of_lt_two_pow {w n v : Nat} (hn : n ≤ w) (hv : v < 2 ^ n) : (BitVec.ofNat w v).toNat = v := by
  rw [BitVec.toNat_ofNat, Nat.mod_eq_of_lt (hv.trans_le (Nat.pow_le_pow_right (by decide) hn))]

/-- The groups that were read are the codes whose raw packing stands at the front, each in range (R96, R100). -/
theorem takeGroups_eq_some_iff {d : Nat} (hd : d ≤ 16) {k : Nat} {bs rest : List Bool} {gs : List Code} :
    takeGroups d k bs = some (gs, rest) ↔
      gs.length = k ∧ (∀ g ∈ gs, g.toNat < 2 ^ d) ∧ bs = Machine.rawStream d gs ++ rest := by
  induction k generalizing bs gs with
  | zero =>
    rw [List.length_eq_zero_iff]
    constructor
    · intro h
      obtain ⟨rfl, rfl⟩ := Prod.mk.inj (Option.some.inj h)
      simp
    · rintro ⟨rfl, -, rfl⟩
      rfl
  | succ k ih =>
    constructor
    · intro h
      unfold takeGroups at h
      split at h
      · cases h
      · rename_i g bs' hfield
        obtain ⟨rfl, hg⟩ := takeField_eq_some hfield
        split at h
        · cases h
        · rename_i gs' rest' hgroups
          obtain ⟨rfl, rfl⟩ := Prod.mk.inj (Option.some.inj h)
          obtain ⟨hlen, hgs, rfl⟩ := ih.1 hgroups
          have hv := toNat_ofNat_of_lt_two_pow hd hg
          exact ⟨by rw [List.length_cons, hlen], List.forall_mem_cons.2 ⟨by rwa [hv], hgs⟩, by
            rw [rawStream_cons, hv, List.append_assoc]⟩
    · rintro ⟨hlen, hgs, rfl⟩
      cases gs with
      | nil => cases hlen
      | cons g gs =>
        obtain ⟨hg, hgs⟩ := List.forall_mem_cons.1 hgs
        have hgroups := ih.2 ⟨Nat.succ.inj hlen, hgs, rfl⟩
        simp [takeGroups, List.append_assoc, takeField_field hg, hgroups]

/-! ### Which instructions have an encoding in a payload (R95 to R98, R101) -/

theorem Mode.wf_iff {m : Mode} : m.wf = true ↔ m.br ≤ 7 ∧ m.bo ≤ 7 ∧ 1 ≤ m.d ∧ m.d ≤ 16 := by
  simp [Mode.wf, and_assoc]

theorem wf_rep_iff {m : Mode} {r : BitVec 7} : (Instr.rep r).wf (.payload m) = true ↔
    m.wf = true ∧ m.done = false ∧ m.comp = true ∧ r.toNat < 2 ^ m.br := by
  simp [Instr.wf, and_assoc]

theorem wf_lit_iff {m : Mode} {gs : List Code} : (Instr.lit gs).wf (.payload m) = true ↔
    m.wf = true ∧ m.done = false ∧ m.comp = true ∧ 1 ≤ gs.length ∧ gs.length ≤ 2 ^ m.bo ∧
      ∀ g ∈ gs, g.toNat < 2 ^ m.d := by
  simp [Instr.wf, and_assoc]

theorem wf_raw_iff {m : Mode} {g : Code} : (Instr.raw g).wf (.payload m) = true ↔
    m.wf = true ∧ m.done = false ∧ m.comp = false ∧ g.toNat < 2 ^ m.d := by
  simp [Instr.wf, and_assoc]

theorem wf_pad_iff {m : Mode} : Instr.pad.wf (.payload m) = true ↔ m.wf = true ∧ m.done = true := by
  simp [Instr.wf]

/-! ### Blocks (R95, R96, R97) -/

theorem encodeBlock_lit (m : Mode) (gs : List Code) : encodeBlock m (.lit gs) =
    true :: (fieldBits m.bo (gs.length - 1) ++ Machine.rawStream m.d gs) := rfl

/-- The `REP`/`LIT` grammar reads exactly its well-formed blocks, each off its own encoding (R95, R96, R102). -/
theorem decodeBlock_eq_ok_iff {m : Mode} (hm : m.wf = true) (hdone : m.done = false) (hcomp : m.comp = true)
    {bs rest : List Bool} {i : Instr} :
    decodeBlock m bs = .ok (i, rest) ↔ i.wf (.payload m) = true ∧ bs = encodeBlock m i ++ rest := by
  obtain ⟨hbr, -, -, hd⟩ := Mode.wf_iff.1 hm
  constructor
  · intro h
    cases bs with
    | nil => cases h
    | cons ctrl bs =>
      unfold decodeBlock at h
      rw [takeField_one_cons] at h
      cases ctrl with
      | false =>
        dsimp only [Bool.toNat_false] at h
        rw [if_pos rfl] at h
        split at h
        · cases h
        · rename_i r bs' hfield
          obtain ⟨rfl, rfl⟩ := Prod.mk.inj (Except.ok.inj h)
          obtain ⟨rfl, hr⟩ := takeField_eq_some hfield
          have hv := toNat_ofNat_of_lt_two_pow hbr hr
          exact ⟨wf_rep_iff.2 ⟨hm, hdone, hcomp, by rwa [hv]⟩, by rw [encodeBlock, hv, List.cons_append]⟩
      | true =>
        dsimp only [Bool.toNat_true] at h
        rw [if_neg one_ne_zero] at h
        split at h
        · cases h
        · rename_i c bs' hfield
          obtain ⟨rfl, hc⟩ := takeField_eq_some hfield
          split at h
          · cases h
          · rename_i gs bs'' hgroups
            obtain ⟨rfl, rfl⟩ := Prod.mk.inj (Except.ok.inj h)
            obtain ⟨hlen, hgs, rfl⟩ := (takeGroups_eq_some_iff hd).1 hgroups
            refine ⟨wf_lit_iff.2 ⟨hm, hdone, hcomp, by omega, by omega, hgs⟩, ?_⟩
            rw [encodeBlock_lit, hlen, Nat.add_sub_cancel, List.cons_append, List.append_assoc]
  · rintro ⟨hw, rfl⟩
    cases i with
    | rep r =>
      obtain ⟨-, -, -, hr⟩ := wf_rep_iff.1 hw
      simp [decodeBlock, encodeBlock, takeField_one_cons, takeField_field hr]
    | lit gs =>
      obtain ⟨-, -, -, h1, h2, hgs⟩ := wf_lit_iff.1 hw
      have hc : gs.length - 1 < 2 ^ m.bo := by omega
      have hgroups := (takeGroups_eq_some_iff hd (rest := rest)).2 ⟨(Nat.sub_add_cancel h1).symm, hgs, rfl⟩
      simp [decodeBlock, encodeBlock_lit, takeField_one_cons, List.append_assoc, takeField_field hc, hgroups]
    | raw g => obtain ⟨-, -, hraw, -⟩ := wf_raw_iff.1 hw; rw [hcomp] at hraw; cases hraw
    | pad => obtain ⟨-, hpad⟩ := wf_pad_iff.1 hw; rw [hdone] at hpad; cases hpad
    | opt | enc | asm | ldhdr | dec | reserved0 | reserved67 => simp [Instr.wf] at hw

/-- The `RAW` grammar reads exactly the well-formed groups (R97). -/
theorem decodeRaw_eq_ok_iff {m : Mode} (hm : m.wf = true) (hdone : m.done = false) (hcomp : m.comp = false)
    {bs rest : List Bool} {i : Instr} :
    decodeRaw m bs = .ok (i, rest) ↔ i.wf (.payload m) = true ∧ bs = encodeBlock m i ++ rest := by
  obtain ⟨-, -, -, hd⟩ := Mode.wf_iff.1 hm
  constructor
  · intro h
    unfold decodeRaw at h
    split at h
    · cases h
    · rename_i g bs' hfield
      obtain ⟨rfl, rfl⟩ := Prod.mk.inj (Except.ok.inj h)
      obtain ⟨rfl, hg⟩ := takeField_eq_some hfield
      have hv := toNat_ofNat_of_lt_two_pow hd hg
      exact ⟨wf_raw_iff.2 ⟨hm, hdone, hcomp, by rwa [hv]⟩, by rw [encodeBlock, hv]⟩
  · rintro ⟨hw, rfl⟩
    cases i with
    | raw g =>
      obtain ⟨-, -, -, hg⟩ := wf_raw_iff.1 hw
      simp [decodeRaw, encodeBlock, takeField_field hg]
    | rep r => obtain ⟨-, -, hblk, -⟩ := wf_rep_iff.1 hw; rw [hcomp] at hblk; cases hblk
    | lit gs => obtain ⟨-, -, hblk, -⟩ := wf_lit_iff.1 hw; rw [hcomp] at hblk; cases hblk
    | pad => obtain ⟨-, hpad⟩ := wf_pad_iff.1 hw; rw [hdone] at hpad; cases hpad
    | opt | enc | asm | ldhdr | dec | reserved0 | reserved67 => simp [Instr.wf] at hw

/-! ### A payload: its grammar, or the unread pad (R98, R101, R103) -/

theorem eq_pad_of_wf_of_done {i : Instr} {m : Mode} (hdone : m.done = true) (h : i.wf (.payload m) = true) :
    i = .pad := by
  cases i with
  | pad => rfl
  | rep | lit | raw | opt | enc | asm | ldhdr | dec | reserved0 | reserved67 => simp [Instr.wf, hdone] at h

theorem ne_pad_of_wf_of_not_done {i : Instr} {m : Mode} (hdone : m.done = false) (h : i.wf (.payload m) = true) :
    i ≠ .pad := by
  rintro rfl
  obtain ⟨-, hpad⟩ := wf_pad_iff.1 h
  rw [hdone] at hpad
  cases hpad

/-- The decoder reads exactly the well-formed instructions: `PAD` off whatever bits stand there, any other off its own
encoding. -/
theorem decode_payload_eq_ok_iff {m : Mode} {bs rest : List Bool} {i : Instr} :
    decode (.payload m) bs = .ok (i, rest) ↔ i.wf (.payload m) = true ∧
      if i = .pad then rest = bs.drop (padBits m.pos) else bs = encode (.payload m) i ++ rest := by
  rcases hm : m.wf with _ | _
  · simp [decode, hm, Instr.wf]
  rcases hdone : m.done with _ | _
  · have hgrammar : decode (.payload m) bs = .ok (i, rest) ↔
        i.wf (.payload m) = true ∧ bs = encode (.payload m) i ++ rest := by
      rcases hcomp : m.comp with _ | _
      · simpa [decode, hm, hdone, hcomp, encode] using decodeRaw_eq_ok_iff hm hdone hcomp
      · simpa [decode, hm, hdone, hcomp, encode] using decodeBlock_eq_ok_iff hm hdone hcomp
    rw [hgrammar]
    exact and_congr_right fun hw => by rw [if_neg (ne_pad_of_wf_of_not_done hdone hw)]
  · constructor
    · intro h
      obtain ⟨rfl, rfl⟩ : Instr.pad = i ∧ bs.drop (padBits m.pos) = rest := by simpa [decode, hm, hdone] using h
      exact ⟨wf_pad_iff.2 ⟨hm, hdone⟩, by rw [if_pos rfl]⟩
    · rintro ⟨hw, hrest⟩
      obtain rfl := eq_pad_of_wf_of_done hdone hw
      rw [if_pos rfl] at hrest
      simp [decode, hm, hdone, hrest]

/-! ### The command register (R107, R108) -/

theorem commandCode_decodeCommand : ∀ c : BitVec 3, commandCode (decodeCommand c) = some c := by decide

theorem decodeCommand_of_commandCode {i : Instr} {c : BitVec 3} (h : commandCode i = some c) :
    decodeCommand c = i := by
  cases i with
  | rep | lit | raw | pad => cases h
  | opt | enc | asm | ldhdr | dec | reserved0 => cases h; rfl
  | reserved67 lo =>
    cases h
    revert lo
    decide

theorem exists_commandCode {i : Instr} (h : i.wf .command = true) : ∃ c, commandCode i = some c := by
  cases i with
  | rep | lit | raw | pad => cases h
  | opt | enc | asm | ldhdr | dec | reserved0 | reserved67 => exact ⟨_, rfl⟩

/-- A command is the field of its code, and every code is one (R107, R108). -/
theorem decode_command_eq_ok_iff {bs rest : List Bool} {i : Instr} :
    decode .command bs = .ok (i, rest) ↔ i.wf .command = true ∧ bs = encode .command i ++ rest := by
  constructor
  · intro h
    unfold decode at h
    dsimp only at h
    split at h
    · cases h
    · rename_i c bs' hfield
      obtain ⟨rfl, rfl⟩ := Prod.mk.inj (Except.ok.inj h)
      obtain ⟨rfl, hc⟩ := takeField_eq_some hfield
      refine ⟨Machine.decodeCommand_wf _, ?_⟩
      simp only [encode, commandCode_decodeCommand, toNat_ofNat_of_lt_two_pow le_rfl hc]
  · rintro ⟨hw, rfl⟩
    obtain ⟨c, hc⟩ := exists_commandCode hw
    simp [decode, encode, hc, takeField_field c.isLt, decodeCommand_of_commandCode hc]

/-- Settles O1: a well-formed instruction is read off its own encoding, and `PAD` leaves what follows its length. -/
theorem decodeOfEncode : Obligations.DecodeOfEncode := by
  intro i sp rest hw
  cases sp with
  | command => exact decode_command_eq_ok_iff.2 ⟨hw, rfl⟩
  | payload m =>
    refine decode_payload_eq_ok_iff.2 ⟨hw, ?_⟩
    split
    · subst i
      simp [encode, encodeBlock]
    · rfl

/-- Settles O2: the same equivalences, read from the decoder's side. -/
theorem encodeOfDecode : Obligations.EncodeOfDecode := by
  intro sp bs rest i h
  cases sp with
  | command =>
    obtain ⟨hw, hbits⟩ := decode_command_eq_ok_iff.1 h
    exact ⟨hw, fun _ => hbits⟩
  | payload m =>
    obtain ⟨hw, hbits⟩ := decode_payload_eq_ok_iff.1 h
    exact ⟨hw, fun hi => by rwa [if_neg hi] at hbits⟩

/-- Settles O3: the decoder run on each of the words. -/
theorem specBitsDecode : Obligations.SpecBitsDecode :=
  ⟨rfl, rfl, rfl, rfl, rfl, rfl, rfl, rfl, rfl, rfl, rfl, rfl⟩

end Sys2Proof

/-!
# The block at `CUR`, and the reserved codes (43_decoder.md R197; 44_host_commands.md R232)
-/

namespace Sys2Proof.Machine

/-- Between blocks the block at `CUR` is fetched (R197). -/
theorem fetch_between {s : State} (hd : s.dstate = .readControl ∨ s.dstate = .raw) : fetch s = fetchBlock s := by
  unfold fetch
  rcases hd with hd | hd <;> rw [hd]

theorem fetchBlock_of_decode {s : State} {i : Instr} {rest : List Bool}
    (h : decode (.payload s.mode) s.window = .ok (i, rest)) : fetchBlock s = .instr i s := by
  unfold fetchBlock
  rw [h]

/-- Settles O4: the window the machine reads is the bits the statement names. -/
theorem stepRunsBlockAtCur : Obligations.StepRunsBlockAtCur := by
  intro s i rest hd h
  unfold step
  rw [fetch_between hd, fetchBlock_of_decode h]

/-- Settles O13: the body of a reserved code is the fault itself. -/
theorem reservedInstructionsRaise : Obligations.ReservedInstructionsRaise := by
  intro s lo hd
  constructor
  · rw [exec_eq_issue rfl, issue_of_idle hd]; rfl
  · rw [exec_eq_issue rfl, issue_of_idle hd]; rfl

end Sys2Proof.Machine

/-!
# `DEC` of a raw payload (43_decoder.md R196, R201, R202, R205)

The colours emitted since the start of a `DEC`, cut into batches by its last step; then the raw groups one after
another.
-/

namespace Sys2Proof.Machine

/-! ### Batches (R195, R202, R205) -/

@[simp] theorem batchesOf_nil (b fuel : Nat) : batchesOf b fuel [] = [] := by cases fuel <;> rfl

theorem batchesOf_succ {b fuel : Nat} {l : List Colour} (h : l ≠ []) :
    batchesOf b (fuel + 1) l = l.take b :: batchesOf b fuel (l.drop b) := by
  rw [batchesOf, if_neg (by simpa using h)]

/-- Full batches and a shorter rest are what cutting their concatenation gives. -/
theorem batchesOf_flatten_append {b fuel : Nat} {full : List (List Colour)} {l : List Colour} (hb : 1 ≤ b)
    (hfull : ∀ x ∈ full, x.length = b) (hl : l.length < b) (hfuel : (full.flatten ++ l).length ≤ fuel) :
    batchesOf b fuel (full.flatten ++ l) = full ++ if 1 ≤ l.length then [l] else [] := by
  induction full generalizing fuel with
  | nil =>
    cases l with
    | nil => simp
    | cons v l =>
      obtain ⟨fuel, rfl⟩ := Nat.exists_eq_succ_of_ne_zero (n := fuel) (by simp at hfuel; omega)
      rw [List.flatten_nil, List.nil_append, batchesOf_succ (List.cons_ne_nil v l), List.take_of_length_le hl.le,
        List.drop_of_length_le hl.le]
      simp
  | cons x full ih =>
    obtain ⟨hx, hfull⟩ := List.forall_mem_cons.1 hfull
    rw [List.flatten_cons, List.append_assoc, List.length_append] at hfuel
    obtain ⟨fuel, rfl⟩ := Nat.exists_eq_succ_of_ne_zero (n := fuel) (by omega)
    have hne : x ++ (full.flatten ++ l) ≠ [] :=
      List.append_ne_nil_of_left_ne_nil (List.ne_nil_of_length_pos (by omega)) _
    rw [List.flatten_cons, List.append_assoc, batchesOf_succ hne, List.take_left' hx, List.drop_left' hx,
      ih hfull (by omega), List.cons_append]

/-- The last step of a `DEC` that started with an empty buffer: its colours have gone to the sink in batches (R202,
R205). -/
theorem State.Emitted.finish_sink {s t : State} {vs : List Colour} (h : s.Emitted t vs) (h0 : s.outcnt = 0) :
    t.finish.sink = s.sink ++ batches s.cfg.batch vs := by
  have hb := s.cfg.legal.1
  obtain ⟨full, hsink, hfull⟩ := h.full
  have hvs : full.flatten ++ t.outbuf.readList 0 t.outcnt = vs := by
    simpa [State.delivered, hsink, h0] using h.delivered
  have hrest : (t.outbuf.readList 0 t.outcnt).length < s.cfg.batch := by
    rw [Mem.readList_length, h.outcnt]
    exact Nat.mod_lt _ hb
  rw [batches, ← hvs, batchesOf_flatten_append hb hfull hrest le_rfl, finish_eq, Mem.readList_length]
  dsimp only
  rw [hsink]
  split <;> simp

/-! ### The bits that stand at `CUR` -/

/-- The payload holds the bits `bs` from `CUR` up (R190). -/
def State.Ahead (s : State) (bs : List Bool) : Prop :=
  s.cur + bs.length ≤ 8 * s.paylen ∧ s.bitsFrom s.cur bs.length = bs

theorem State.Ahead.congr {s t : State} {bs : List Bool} (h : s.Ahead bs) (hcur : t.cur = s.cur)
    (hlen : t.paylen = s.paylen) (hpay : t.payload = s.payload) : t.Ahead bs := by
  obtain ⟨hfit, hbits⟩ := h
  refine ⟨by rwa [hcur, hlen], ?_⟩
  rw [← hbits]
  simp [State.bitsFrom, State.bit, hcur, hpay]

/-- A field that stands at `CUR` is read, and what stands behind it is next (R191). -/
theorem State.Ahead.getBits {s : State} {n v : Nat} {bs : List Bool} (h : s.Ahead (fieldBits n v ++ bs))
    (hv : v < 2 ^ n) : s.getBits n = some (v, s.advance n) ∧ (s.advance n).Ahead bs := by
  obtain ⟨hfit, hbits⟩ := h
  rw [List.length_append, fieldBits_length] at hfit hbits
  rw [bitsFrom_add] at hbits
  obtain ⟨hfield, hrest⟩ := List.append_inj hbits (by simp)
  refine ⟨?_, ?_, hrest⟩
  · rw [getBits_of_le (.inr (by omega)), hfield, bitsVal_fieldBits_of_lt hv]
  · rw [State.advance_cur, State.advance_paylen]
    omega

/-- A payload that begins with `bs` has it ahead when `CUR` is at its start. -/
theorem ahead_of_bitsFrom_zero {s : State} {bs rest : List Bool} (hcur : s.cur = 0)
    (h : s.bitsFrom 0 (8 * s.paylen) = bs ++ rest) : s.Ahead bs := by
  have hlen : 8 * s.paylen = bs.length + rest.length := by simpa using congrArg List.length h
  rw [hlen, bitsFrom_add] at h
  refine ⟨by omega, ?_⟩
  rw [hcur]
  exact (List.append_inj h (by simp)).1

/-! ### The runs of the state machine (R196) -/

/-- A `DEC` that comes to its last step ends with `DONE` alone (R202, log 19). -/
theorem finish_status {s : State} (h : s.status = 0) : s.finish.status = 0x01 := by
  rw [finish_eq, h]; rfl

theorem runSteps_of_inactive {s : State} (h : s.dstate.active = false) (fuel : Nat) :
    runSteps fuel s = s := by
  cases fuel with
  | zero => rfl
  | succ fuel => rw [runSteps, if_neg (by simp [h])]

theorem runSteps_succ {s : State} (h : s.dstate.active = true) (fuel : Nat) :
    runSteps (fuel + 1) s = runSteps fuel s.decStep := by
  rw [runSteps, if_pos h]

/-! ### Raw groups (R201) -/

@[simp] theorem afterGroup_pal (s : State) (v : Colour) : (s.afterGroup v).pal = s.pal := by
  simp [State.afterGroup]

@[simp] theorem afterGroup_palcount (s : State) (v : Colour) : (s.afterGroup v).palcount = s.palcount := by
  simp [State.afterGroup]

/-- Emitting a group leaves the palette that the next one is resolved by (R193). -/
theorem afterGroup_colourOf (s : State) (v : Colour) : (s.afterGroup v).colourOf = s.colourOf := by
  funext g
  simp [State.colourOf]

theorem State.Resolves.of_cons {s : State} {g : Code} {gs : List Code} (h : s.Resolves (g :: gs)) :
    s.resolve g = some (s.colourOf g) ∧ s.Resolves gs := by
  rcases h with h | h
  · exact ⟨resolve_eq_some.2 ⟨.inl h, rfl⟩, .inl h⟩
  · obtain ⟨hg, hgs⟩ := List.forall_mem_cons.1 h
    exact ⟨resolve_eq_some.2 ⟨.inr hg, rfl⟩, .inr hgs⟩

theorem State.Resolves.afterGroup {s : State} {gs : List Code} (h : s.Resolves gs) (v : Colour) :
    (s.afterGroup v).Resolves gs := by
  simpa [State.Resolves] using h

/-- The raw grammar runs, the groups of `gs` stand at `CUR`, every one resolves, and they are the pixels still
wanted. -/
structure State.RawAhead (s : State) (gs : List Code) : Prop where
  dstate : s.dstate = .raw
  depthOk : s.depthOk = true
  wanted : s.pixemit + gs.length = s.pixelCount
  codes : ∀ g ∈ gs, g.toNat < 2 ^ s.depth
  bits : s.Ahead (rawStream s.depth gs)
  resolves : s.Resolves gs

theorem State.RawAhead.active {s : State} {gs : List Code} (h : s.RawAhead gs) : s.dstate.active = true := by
  rw [h.dstate]; rfl

/-- With no group wanted the next step is the last (R201, R202). -/
theorem State.RawAhead.decStep_nil {s : State} (h : s.RawAhead []) : s.decStep = s.finish := by
  have hn : s.pixemit = s.pixelCount := h.wanted
  simp [State.decStep, h.dstate, hn]

/-- The next step emits the colour of the first group, and the others are ahead (R201). -/
theorem State.RawAhead.decStep_cons {s : State} {g : Code} {gs : List Code} (h : s.RawAhead (g :: gs)) :
    s.decStep = s.afterGroup (s.colourOf g) ∧ (s.afterGroup (s.colourOf g)).RawAhead gs := by
  obtain ⟨hd, hok, hwanted, hcodes, hbits, hresolves⟩ := h
  obtain ⟨hg, hgs⟩ := List.forall_mem_cons.1 hcodes
  obtain ⟨hread, hahead⟩ := hbits.getBits hg
  obtain ⟨hcolour, hrest⟩ := hresolves.of_cons
  rw [List.length_cons] at hwanted
  have hn : s.pixemit ≠ s.pixelCount := by omega
  constructor
  · simp only [State.decStep, hd, if_neg hn, hread, BitVec.ofNat_toNat, BitVec.setWidth_eq, State.emitGroup, hcolour]
    rfl
  · refine ⟨by rw [afterGroup_dstate, hd], by rw [afterGroup_depthOk, hok], ?_, by rwa [afterGroup_depth], ?_,
      hrest.afterGroup _⟩
    · rw [afterGroup_pixemit, afterGroup_pixelCount]
      omega
    · rw [afterGroup_depth]
      exact hahead.congr (by simp) (by simp) (by simp)

/-- The state machine on the groups of all the pixels wanted: it emits their colours and takes its last step. -/
theorem State.RawAhead.runSteps_eq_finish {gs : List Code} : ∀ {s : State} {fuel : Nat}, s.RawAhead gs →
    s.outcnt < s.cfg.batch → gs.length < fuel →
    ∃ t, runSteps fuel s = t.finish ∧ s.Emitted t (gs.map s.colourOf) ∧
      t.cur = s.cur + gs.length * s.depth ∧ t.status = s.status ∧ t.errinfo = s.errinfo := by
  induction gs with
  | nil =>
    intro s fuel h ho hfuel
    obtain ⟨fuel, rfl⟩ := Nat.exists_eq_succ_of_ne_zero hfuel.ne'
    refine ⟨s, ?_, .refl ho, by simp, rfl, rfl⟩
    rw [runSteps_succ h.active, h.decStep_nil, runSteps_of_inactive (by rw [finish_dstate]; rfl)]
  | cons g gs ih =>
    intro s fuel h ho hfuel
    obtain ⟨fuel, rfl⟩ := Nat.exists_eq_succ_of_ne_zero (Nat.ne_of_gt (Nat.zero_lt_of_lt hfuel))
    obtain ⟨hstep, hrest⟩ := h.decStep_cons
    have hemit := emitted_afterGroup ho (s.colourOf g)
    have ho' : (s.afterGroup (s.colourOf g)).outcnt < (s.afterGroup (s.colourOf g)).cfg.batch := by
      rw [afterGroup_cfg, hemit.outcnt]
      exact Nat.mod_lt _ s.cfg.legal.1
    obtain ⟨t, hrun, hmore, hcur, hstatus, herrinfo⟩ := ih hrest ho' (Nat.lt_of_succ_lt_succ hfuel)
    rw [afterGroup_colourOf] at hmore
    refine ⟨t, ?_, hemit.trans hmore (afterGroup_cfg s _), ?_, by rw [hstatus, afterGroup_status],
      by rw [herrinfo, afterGroup_errinfo]⟩
    · rw [runSteps_succ h.active, hstep, hrun]
    · rw [hcur, afterGroup_cur, afterGroup_depth, List.length_cons]
      ring

/-- Settles O50: from the start of the `DEC` the groups of `N` codes are ahead, and its bound of `2 × N + 1` steps
covers them. -/
theorem decExecutesRawGroups : Obligations.DecExecutesRawGroups := by
  intro s codes rest hd hok hcap hcomp hlen hcodes hbits hresolves
  have hahead : s.beginCommand.decStart.RawAhead codes :=
    ⟨by rw [State.decStart_dstate, if_neg (by simp [hcomp])], hok, (Nat.zero_add _).trans hlen, hcodes,
      ahead_of_bitsFrom_zero rfl hbits, hresolves⟩
  obtain ⟨t, hrun, hemit, hcur, hstatus, herrinfo⟩ :=
    hahead.runSteps_eq_finish (fuel := 2 * s.pixelCount + 1) s.cfg.legal.1 (by omega)
  have hbody : decBody s.beginCommand = t.finish := by
    rw [decBody, if_neg (by simp [hok]), if_neg (by simp [hcap])]
    exact hrun
  have hpix : t.pixemit = s.pixelCount := by
    rw [hemit.pixemit, List.length_map, hlen]
    exact Nat.zero_add _
  refine ⟨t.finish, ?_, ?_, ?_, finish_dstate t, ?_, ?_, ?_, hemit.finish_sink rfl⟩
  · rw [exec_eq_issue rfl, issue_of_idle hd, commandBody, hbody]
  · exact finish_status hstatus
  · rw [finish_eq, herrinfo]; rfl
  · rw [finish_eq, hcur, hlen]; exact Nat.zero_add _
  · rw [finish_eq, hpix]
  · rw [finish_eq]

end Sys2Proof.Machine

/-!
# The optimizer (40_optimizer.md R120 to R131)

The runs of a sequence and what a width costs them; the search for the least best width; the length of the stream that
the encoder forms from the runs; the checks that `OPT` and `ENC` make of their input; what every command may write.
-/

namespace Sys2Proof.Machine

/-! ### Runs (R121) -/

/-- One more code in front of a list of runs: it lengthens the first run or starts one of its own. -/
def addCode (c : Code) : List (Code × Nat) → List (Code × Nat)
  | [] => [(c, 1)]
  | (v, l) :: rest => if c = v then (v, l + 1) :: rest else (c, 1) :: (v, l) :: rest

theorem runs_cons (c : Code) (codes : List Code) : runs (c :: codes) = addCode c (runs codes) := by
  rw [runs]
  rcases runs codes with _ | ⟨⟨v, l⟩, rest⟩ <;> rfl

/-- What R121 asks of the runs of a sequence. -/
structure IsRuns (codes : List Code) (rs : List (Code × Nat)) : Prop where
  expands : (rs.flatMap fun x => List.replicate x.2 x.1) = codes
  positive : ∀ x ∈ rs, 1 ≤ x.2
  differ : rs.IsChain fun x y => x.1 ≠ y.1

theorem IsRuns.cons {codes : List Code} {rs : List (Code × Nat)} (h : IsRuns codes rs) (c : Code) :
    IsRuns (c :: codes) (addCode c rs) := by
  obtain ⟨rfl, hpos, hne⟩ := h
  rcases rs with _ | ⟨⟨v, l⟩, rest⟩
  · exact ⟨rfl, by simp [addCode], List.isChain_singleton _⟩
  · obtain ⟨hl, hrest⟩ := List.forall_mem_cons.1 hpos
    by_cases hc : c = v
    · subst hc
      rw [addCode, if_pos rfl]
      exact ⟨rfl, List.forall_mem_cons.2 ⟨Nat.le_add_left 1 l, hrest⟩,
        List.isChain_cons.2 (List.isChain_cons.1 hne)⟩
    · rw [addCode, if_neg hc]
      exact ⟨rfl, List.forall_mem_cons.2 ⟨le_rfl, hpos⟩, List.isChain_cons_cons.2 ⟨hc, hne⟩⟩

theorem isRuns_runs (codes : List Code) : IsRuns codes (runs codes) := by
  induction codes with
  | nil => exact ⟨rfl, by simp [runs], List.isChain_nil⟩
  | cons c codes ih =>
    rw [runs_cons]
    exact ih.cons c

/-- A whole run in front of a sequence that does not start with its value is the first of the runs. -/
theorem runs_replicate_append {v : Code} {codes : List Code} (hv : ∀ y ∈ (runs codes).head?, v ≠ y.1) {l : Nat}
    (hl : 1 ≤ l) : runs (List.replicate l v ++ codes) = (v, l) :: runs codes := by
  induction l, hl using Nat.le_induction with
  | base =>
    rw [List.replicate_one, List.singleton_append, runs_cons]
    rcases hr : runs codes with _ | ⟨⟨u, k⟩, rest⟩
    · rfl
    · rw [hr] at hv
      rw [addCode, if_neg (hv (u, k) rfl)]
  | succ l _ ih =>
    rw [List.replicate_succ, List.cons_append, runs_cons, ih, addCode, if_pos rfl]

/-- The list of pairs that R121 describes is unique. -/
theorem IsRuns.eq_runs {codes : List Code} {rs : List (Code × Nat)} (h : IsRuns codes rs) : rs = runs codes := by
  obtain ⟨rfl, hpos, hne⟩ := h
  induction rs with
  | nil => rfl
  | cons x rest ih =>
    obtain ⟨hl, hrest⟩ := List.forall_mem_cons.1 hpos
    obtain ⟨hhead, htail⟩ := List.isChain_cons.1 hne
    have hruns := ih hrest htail
    rw [List.flatMap_cons, runs_replicate_append (by rwa [← hruns]) hl, ← hruns]

/-- Settles O17: `runs` meets the description, and what meets it is rebuilt by `runs` run by run. -/
theorem runsAreTheMaximalRuns : Obligations.RunsAreTheMaximalRuns := by
  intro codes rs
  constructor
  · rintro rfl
    obtain ⟨hexpands, hpositive, hdiffer⟩ := isRuns_runs codes
    exact ⟨hexpands, hpositive, hdiffer⟩
  · rintro ⟨hexpands, hpositive, hdiffer⟩
    exact IsRuns.eq_runs ⟨hexpands, hpositive, hdiffer⟩

/-! ### What a width costs and saves (R122 to R124, R127) -/

/-- Full blocks count one each. -/
theorem ceilPow_mul_add (q r b : Nat) : ceilPow (2 ^ b * q + r) b = q + ceilPow r b := by
  have hpos : 0 < 2 ^ b := Nat.two_pow_pos b
  rw [ceilPow, ceilPow, show 2 ^ b * q + r + 2 ^ b - 1 = 2 ^ b * q + (r + 2 ^ b - 1) by omega, Nat.mul_add_div hpos]

/-- A full block taken off leaves one block fewer. -/
theorem ceilPow_sub {a b : Nat} (h : 2 ^ b ≤ a) : ceilPow a b = ceilPow (a - 2 ^ b) b + 1 := by
  rw [Nat.add_comm, ← ceilPow_mul_add, Nat.mul_one, Nat.add_sub_cancel' h]

@[simp] theorem ceilPow_zero (b : Nat) : ceilPow 0 b = 0 :=
  Nat.div_eq_of_lt (by have := Nat.two_pow_pos b; omega)

/-- What is left over takes one block more. -/
theorem ceilPow_eq_one {r b : Nat} (h1 : 1 ≤ r) (h2 : r ≤ 2 ^ b) : ceilPow r b = 1 := by
  rw [ceilPow, show r + 2 ^ b - 1 = 2 ^ b + (r - 1) by omega, Nat.add_div_left _ (by omega),
    Nat.div_eq_of_lt (by omega)]

/-- Settles O18: `rep` is its full blocks and a remainder, and the remainder is 0 or takes one block in either branch. -/
theorem contribHasClosedForm : Obligations.ContribHasClosedForm := by
  intro d rep b
  have hrem : rep % 2 ^ b < 2 ^ b := Nat.mod_lt _ (Nat.two_pow_pos b)
  have hceil : ceilPow rep b = rep / 2 ^ b + ceilPow (rep % 2 ^ b) b := by
    rw [← ceilPow_mul_add, Nat.div_add_mod]
  have hsplit : rep / 2 ^ b * 2 ^ b + rep % 2 ^ b = rep := Nat.div_add_mod' rep (2 ^ b)
  unfold contrib
  dsimp only
  split_ifs with h1 h2
  · obtain ⟨h1, -⟩ := h1
    rw [hceil, ceilPow_eq_one h1.ge hrem.le, ← h1, hsplit]
  · rw [hceil, ceilPow_eq_one h2 hrem.le, hsplit]
  · have h0 : rep % 2 ^ b = 0 := by omega
    rw [h0, Nat.add_zero] at hsplit
    rw [hceil, h0, ceilPow_zero, hsplit, Nat.add_zero]

/-- The bits of the `REP` blocks of all runs at width `b`. -/
def repBits (b : Nat) (rs : List (Code × Nat)) : Nat := (rs.map fun x => ceilPow (x.2 - 1) b).sum * (b + 1)

@[simp] theorem repBits_nil (b : Nat) : repBits b [] = 0 := by simp [repBits]

theorem repBits_cons (b : Nat) (x : Code × Nat) (rs : List (Code × Nat)) :
    repBits b (x :: rs) = ceilPow (x.2 - 1) b * (b + 1) + repBits b rs := by
  simp [repBits, Nat.add_mul]

/-- The number of repeats in all runs. -/
def repeats (rs : List (Code × Nat)) : Nat := (rs.map fun x => x.2 - 1).sum

theorem savedBits_eq (d b : Nat) (rs : List (Code × Nat)) :
    savedBits d b rs = (repeats rs * d : Nat) - (repBits b rs : Nat) := rfl

/-- The model's two branches save what the closed form does (R122, R124). -/
theorem bitsSaved_eq_savedBits (d b : Nat) (rs : List (Code × Nat)) : bitsSaved d b rs = savedBits d b rs := by
  simp only [bitsSaved, pixelsRemoved, blocksAdded, contribHasClosedForm d _ b, savedBits]

/-- At width 0 each repeat takes one block of one bit. -/
theorem repBits_zero (rs : List (Code × Nat)) : repBits 0 rs = repeats rs := by
  simp [repBits, repeats, ceilPow]

/-- A depth of at least 1 bit makes the savings at width 0 no loss (R125). -/
theorem savedBits_zero_nonneg {d : Nat} (hd : 1 ≤ d) (rs : List (Code × Nat)) : 0 ≤ savedBits d 0 rs := by
  rw [savedBits_eq, repBits_zero, Int.sub_nonneg, Int.ofNat_le]
  exact Nat.le_mul_of_pos_right _ hd

/-! ### The search for the least best width (R125, R128) -/

/-- Ascending search over `0 .. n` with strict replacement, seeded by 0: the width found and its value. -/
def searchBest (f : Nat → Int) (n : Nat) : Nat × Int :=
  (List.range' 1 n).foldl (fun best b => if best.2 < f b then (b, f b) else best) (0, f 0)

theorem searchBest_succ (f : Nat → Int) (n : Nat) :
    searchBest f (n + 1) =
      if (searchBest f n).2 < f (n + 1) then (n + 1, f (n + 1)) else searchBest f n := by
  rw [searchBest, List.range'_1_concat, List.foldl_append, Nat.add_comm 1 n]
  rfl

/-- The search finds the least width of greatest value. -/
theorem searchBest_spec (f : Nat → Int) (n : Nat) :
    (searchBest f n).2 = f (searchBest f n).1 ∧ (searchBest f n).1 ≤ n ∧
      (∀ c, c ≤ n → f c ≤ f (searchBest f n).1) ∧ ∀ c, c < (searchBest f n).1 → f c < f (searchBest f n).1 := by
  induction n with
  | zero => exact ⟨rfl, le_rfl, fun c hc => by rw [Nat.le_zero.1 hc]; rfl, fun c hc => absurd hc (Nat.not_lt_zero c)⟩
  | succ n ih =>
    obtain ⟨hval, hle, hmax, hleast⟩ := ih
    rw [searchBest_succ]
    split
    · rename_i hlt
      rw [hval] at hlt
      have hbefore : ∀ c, c < n + 1 → f c < f (n + 1) := fun c hc =>
        (hmax c (Nat.le_of_lt_succ hc)).trans_lt hlt
      exact ⟨rfl, le_rfl, fun c hc => (Nat.lt_or_eq_of_le hc).elim (fun h => (hbefore c h).le) fun h => h ▸ le_rfl,
        hbefore⟩
    · rename_i hge
      rw [hval, not_lt] at hge
      exact ⟨hval, hle.trans n.le_succ,
        fun c hc => (Nat.le_or_eq_of_le_succ hc).elim (hmax c) fun h => h ▸ hge, hleast⟩

theorem leastMax_searchBest (f : Nat → Int) : LeastMax f (searchBest f 7).1 := by
  obtain ⟨-, hle, hmax, hleast⟩ := searchBest_spec f 7
  exact ⟨hle, hmax, hleast⟩

/-- The search of `bestRep` starts from no savings, which width 0 takes up or equals (R125, D34). -/
theorem bestRep_eq_searchBest {d : Nat} (hd : 1 ≤ d) (rs : List (Code × Nat)) :
    bestRep d rs = (searchBest (fun b => savedBits d b rs) 7).1 := by
  have h0 := savedBits_zero_nonneg hd rs
  have hseed : (if (0 : Int) < savedBits d 0 rs then (0, savedBits d 0 rs) else ((0 : Nat), (0 : Int))) =
      (0, savedBits d 0 rs) := by
    split
    · rfl
    · rw [show savedBits d 0 rs = 0 by omega]
  simp only [bestRep, bitsSaved_eq_savedBits]
  rw [show List.range 8 = 0 :: List.range' 1 7 from rfl, List.foldl_cons, hseed]
  rfl

/-- Searching for the smallest value of `g` is searching for the greatest value of its negation. -/
theorem foldl_least_eq_foldl_greatest (g : Nat → Nat) (bs : List Nat) (seed : Nat × Nat) :
    (bs.foldl (fun best b => if g b < best.2 then (b, g b) else best) seed).1 =
      (bs.foldl (fun best b => if best.2 < -(g b : Int) then (b, -(g b : Int)) else best)
        (seed.1, -(seed.2 : Int))).1 := by
  induction bs generalizing seed with
  | nil => rfl
  | cons b bs ih =>
    rw [List.foldl_cons, List.foldl_cons, ih]
    simp only [neg_lt_neg_iff, Nat.cast_lt]
    split <;> rfl

/-- The search of `bestOff` is the common one on the negated cost (R128, D16). -/
theorem bestOff_eq_searchBest (rs : List (Code × Nat)) :
    bestOff rs = (searchBest (fun b => -(cost b rs : Nat)) 7).1 :=
  foldl_least_eq_foldl_greatest (fun b => cost b rs) (List.range' 1 7) (0, cost 0 rs)

theorem leastMax_bestRep {d : Nat} (hd : 1 ≤ d) (rs : List (Code × Nat)) :
    LeastMax (fun b => savedBits d b rs) (bestRep d rs) := by
  rw [bestRep_eq_searchBest hd]
  exact leastMax_searchBest _

/-- No width needs fewer `REP` bits than `bestRep`, and none below it as few (R125, R131). -/
theorem bestRep_least {d b : Nat} (hd : 1 ≤ d) (hb : b ≤ 7) (rs : List (Code × Nat)) :
    repBits (bestRep d rs) rs ≤ repBits b rs ∧ (b < bestRep d rs → repBits (bestRep d rs) rs < repBits b rs) := by
  obtain ⟨-, hmax, hleast⟩ := leastMax_bestRep hd rs
  have hle := hmax b hb
  have hlt := hleast b
  simp only [savedBits_eq] at hle hlt
  exact ⟨by omega, fun h => by have := hlt h; omega⟩

theorem leastMax_bestOff (rs : List (Code × Nat)) : LeastMax (fun b => -(cost b rs : Nat)) (bestOff rs) := by
  rw [bestOff_eq_searchBest]
  exact leastMax_searchBest _

/-- No width has a smaller literal cost than `bestOff`, and none below it one as small (R128, R131). -/
theorem bestOff_least {b : Nat} (hb : b ≤ 7) (rs : List (Code × Nat)) :
    cost (bestOff rs) rs ≤ cost b rs ∧ (b < bestOff rs → cost (bestOff rs) rs < cost b rs) := by
  obtain ⟨-, hmax, hleast⟩ := leastMax_bestOff rs
  exact ⟨Nat.cast_le.1 (neg_le_neg_iff.1 (hmax b hb)), fun h => Nat.cast_lt.1 (neg_lt_neg_iff.1 (hleast b h))⟩

/-! ### The length of the compressed stream (R131) -/

@[simp] theorem blockStream_nil (m : Mode) : blockStream m [] = [] := rfl

@[simp] theorem blockStream_cons (m : Mode) (i : Instr) (is : List Instr) :
    blockStream m (i :: is) = encodeBlock m i ++ blockStream m is := rfl

@[simp] theorem blockStream_append (m : Mode) (is js : List Instr) :
    blockStream m (is ++ js) = blockStream m is ++ blockStream m js := List.flatMap_append

theorem encodeBlock_rep_length (m : Mode) (r : BitVec 7) : (encodeBlock m (.rep r)).length = m.br + 1 := by
  simp [encodeBlock]

theorem encodeBlock_lit_length (m : Mode) (gs : List Code) :
    (encodeBlock m (.lit gs)).length = m.bo + 1 + gs.length * m.d := by
  rw [encodeBlock, List.length_cons, List.length_append, fieldBits_length, Laws.EncodedLength.groups_length]
  omega

/-- `ceil(rep / 2^br)` blocks of `br + 1` bits carry the repeats (R145). -/
theorem repLoop_stream_length (m : Mode) {fuel rep : Nat} (h : rep ≤ fuel) :
    (blockStream m (repLoop m.br fuel rep)).length = ceilPow rep m.br * (m.br + 1) := by
  induction fuel generalizing rep with
  | zero =>
    obtain rfl := Nat.le_zero.1 h
    simp [repLoop]
  | succ fuel ih =>
    have hpos := Nat.two_pow_pos m.br
    unfold repLoop
    split_ifs with hfull hrest
    · rw [blockStream_cons, List.length_append, repBlock, encodeBlock_rep_length, ih (by omega), ceilPow_sub hfull]
      ring
    · rw [blockStream_cons, List.length_append, repBlock, encodeBlock_rep_length, ceilPow_eq_one hrest (by omega)]
      simp
    · simp [show rep = 0 by omega]

theorem repBlocks_stream_length (m : Mode) (rep : Nat) :
    (blockStream m (repBlocks m.br rep)).length = ceilPow rep m.br * (m.br + 1) :=
  repLoop_stream_length m le_rfl

/-- `ceil(n / 2^bo)` blocks with a header of `bo + 1` bits carry the `n` codes of a span (R146). -/
theorem litLoop_stream_length (m : Mode) {fuel : Nat} {span : List Code} (hne : 1 ≤ span.length)
    (h : span.length ≤ fuel) :
    (blockStream m (litLoop m.bo fuel span)).length =
      ceilPow span.length m.bo * (m.bo + 1) + span.length * m.d := by
  induction fuel generalizing span with
  | zero => omega
  | succ fuel ih =>
    have hpos := Nat.two_pow_pos m.bo
    unfold litLoop
    split_ifs with hfull
    · have hdrop : (span.drop (2 ^ m.bo)).length = span.length - 2 ^ m.bo := List.length_drop
      have htake : (span.take (2 ^ m.bo)).length = 2 ^ m.bo := List.length_take_of_le hfull.le
      have hcodes : span.length * m.d = 2 ^ m.bo * m.d + (span.length - 2 ^ m.bo) * m.d := by
        rw [← Nat.add_mul, Nat.add_sub_cancel' hfull.le]
      rw [blockStream_cons, List.length_append, encodeBlock_lit_length, ih (by omega) (by omega), hdrop, htake,
        ceilPow_sub hfull.le, hcodes]
      ring
    · rw [blockStream_cons, List.length_append, encodeBlock_lit_length, ceilPow_eq_one hne (by omega)]
      simp

theorem litBlockList_stream_length (m : Mode) {span : List Code} (hne : 1 ≤ span.length) :
    (blockStream m (litBlockList m.bo span)).length = ceilPow span.length m.bo * (m.bo + 1) + span.length * m.d :=
  litLoop_stream_length m hne le_rfl

/-- The literal blocks' headers, with `cur` base pixels collected (R126, R127). -/
def litBits (b cur : Nat) (rs : List (Code × Nat)) : Nat :=
  ((spanLengths cur rs).map fun l => ceilPow l b).sum * (b + 1)

theorem litBits_zero (b : Nat) (rs : List (Code × Nat)) : litBits b 0 rs = cost b rs := rfl

/-- With `span` collected, every run adds its base pixel and its `REP` blocks, and the spans their headers (R143). -/
theorem blocksFrom_stream_length (m : Mode) (span : List Code) (rs : List (Code × Nat)) :
    (blockStream m (blocksFrom m.br m.bo span rs)).length =
      (span.length + rs.length) * m.d + repBits m.br rs + litBits m.bo span.length rs := by
  induction rs generalizing span with
  | nil =>
    unfold blocksFrom
    split_ifs with h
    · rw [litBlockList_stream_length m h]
      simp [litBits, spanLengths, h, Nat.add_comm]
    · simp [litBits, spanLengths, show span.length = 0 by omega]
  | cons x rest ih =>
    obtain ⟨v, l⟩ := x
    have hspan : (span ++ [v]).length = span.length + 1 := List.length_append
    unfold blocksFrom
    split_ifs with h
    · rw [blockStream_append, blockStream_append, List.length_append, List.length_append,
        litBlockList_stream_length m (by omega), repBlocks_stream_length, ih, hspan, repBits_cons]
      simp only [litBits, spanLengths, if_pos h, List.length_nil, List.length_cons, List.map_cons, List.sum_cons]
      ring
    · rw [ih, hspan, repBits_cons, show l - 1 = 0 by omega, ceilPow_zero]
      simp only [litBits, spanLengths, if_neg h, List.length_cons]
      ring

/-- R131: the base pixels, the `REP` blocks and the `LIT` headers. -/
theorem blocks_stream_length (d br bo : Nat) (codes : List Code) :
    (blockStream (streamMode d br bo) (blocks br bo codes)).length =
      (runs codes).length * d + repBits br (runs codes) + cost bo (runs codes) := by
  have h := blocksFrom_stream_length (streamMode d br bo) [] (runs codes)
  rwa [List.length_nil, Nat.zero_add, litBits_zero] at h

/-- Settles O20: of the stream's three parts the first is fixed, `bestRep` makes the second least and `bestOff` the
third. -/
theorem optMinimisesStreamLength : Obligations.OptMinimisesStreamLength := by
  intro d br bo codes hd _ hbr hbo len r o
  have hlen : ∀ b c, len b c = (runs codes).length * d + repBits b (runs codes) + cost c (runs codes) := fun b c =>
    blocks_stream_length d b c codes
  have hrep : repBits r (runs codes) ≤ repBits br (runs codes) ∧
      (br < r → repBits r (runs codes) < repBits br (runs codes)) := bestRep_least hd hbr (runs codes)
  have hoff : cost o (runs codes) ≤ cost bo (runs codes) ∧ (bo < o → cost o (runs codes) < cost bo (runs codes)) :=
    bestOff_least hbo (runs codes)
  rw [hlen br bo, hlen r o]
  exact ⟨rfl, by omega, fun htie => ⟨by omega, by omega⟩⟩

/-! ### The checks of `OPT` and `ENC` (R129, R141) -/

/-- The fault that `OPT` and `ENC` find in their input, if any: the depth, the capacity of `PIXIN`, the pixel codes. -/
def State.inputFault (s : State) : Option (ErrKind × Nat) :=
  if !s.depthOk then some (.badConfig, 1)
  else if exceeds s.pixelCount s.cfg.pixinCap then some (.capacityExceeded, 1)
  else (firstWide s.depth s.pixels).map fun j => (.pixelCodeOutOfRange, j)

/-- The widths `OPT` chooses, composed to a flags byte with `COMP` as it was (R120). -/
def State.optFlags (s : State) : BitVec 8 :=
  flagsByte s.comp (bestRep s.depth (runs s.pixels)) (bestOff (runs s.pixels))

theorem optBody_eq (s : State) :
    optBody s = (s.inputFault.map fun f => s.raise f.1 f.2).getD (s.writeFlags s.optFlags).complete := by
  unfold optBody State.inputFault
  split_ifs
  · rfl
  · rfl
  · rcases firstWide s.depth s.pixels <;> rfl

/-- `ENC` with its input checked: the payload's length is its last check (R141, R264). -/
def State.encWrite (s : State) : State :=
  if exceeds ((encoded s.depth s.br s.bo s.pixels).wcur / 8) s.cfg.payloadCap then s.raise .capacityExceeded 2
  else ((s.withPayload (encoded s.depth s.br s.bo s.pixels)).writeFlags
    (flagsByte (keepsCompressed s.depth s.br s.bo s.pixels) s.br s.bo)).complete

theorem encBody_eq (s : State) : encBody s = (s.inputFault.map fun f => s.raise f.1 f.2).getD s.encWrite := by
  unfold encBody State.inputFault
  split_ifs
  · rfl
  · rfl
  · rcases firstWide s.depth s.pixels <;> rfl

theorem firstWide_eq_none {d : Nat} {codes : List Code} :
    firstWide d codes = none ↔ ∀ c ∈ codes, c.toNat < 2 ^ d := by
  simp [firstWide]

/-- The least index of a code of `2^d` or more (R263). -/
theorem firstWide_pixels {s : State} {j : Nat} (hj : j < s.pixelCount) (hwide : 2 ^ s.depth ≤ (s.pixin.read j).toNat)
    (hbefore : ∀ k, k < j → (s.pixin.read k).toNat < 2 ^ s.depth) : firstWide s.depth s.pixels = some j := by
  rw [firstWide, List.findIdx?_eq_some_iff_getElem]
  refine ⟨by simpa [State.pixels], by simpa [State.pixels], fun k hk => ?_⟩
  simpa [State.pixels] using hbefore k hk

theorem inputFault_of_legal {s : State} (h : s.PixelsLegal) : s.inputFault = none := by
  obtain ⟨hok, hcap, hcodes⟩ := h
  simp [State.inputFault, hok, hcap, firstWide_eq_none.2 hcodes]

/-- `OPT` and `ENC` raise the fault found in their input, and change nothing else (R129, R141, R256). -/
theorem exec_of_inputFault {s : State} {i : Instr} (hi : i = .opt ∨ i = .enc) (hd : s.dstate.active = false)
    {k : ErrKind} {info : Nat} (h : s.inputFault = some (k, info)) :
    exec i s = .next { s with status := faultStatus k, errinfo := info } := by
  have hfault : s.beginCommand.inputFault = some (k, info) := h
  rcases hi with rfl | rfl <;> rw [exec_eq_issue rfl, issue_of_idle hd, commandBody]
  · rw [optBody_eq, hfault]; rfl
  · rw [encBody_eq, hfault]; rfl

/-- Settles O21: with a legal depth the capacity is the first check that can fail, and then the codes. -/
theorem encodeInputFaults : Obligations.EncodeInputFaults := by
  intro s hd hok i hi
  constructor
  · intro hcap
    exact exec_of_inputFault hi hd (k := .capacityExceeded) (by simp [State.inputFault, hok, hcap])
  · intro hcap j hj hwide hbefore
    exact exec_of_inputFault hi hd (k := .pixelCodeOutOfRange)
      (by simp [State.inputFault, hok, hcap, firstWide_pixels hj hwide hbefore])

/-! ### `OPT` completes (R120) -/

theorem depthOk_of_inputFault_none {s : State} (h : s.inputFault = none) : s.depthOk = true := by
  unfold State.inputFault at h
  split_ifs at h with hok
  simpa using hok

theorem leastMax_lt {f : Nat → Int} {b : Nat} (h : LeastMax f b) : b < 8 := Nat.lt_succ_of_le h.1

/-- Where every check of `OPT` passes, it writes the chosen widths and completes (R120). -/
theorem optBody_of_legal {s : State} (h : s.PixelsLegal) : optBody s = (s.writeFlags s.optFlags).complete := by
  rw [optBody_eq, inputFault_of_legal h]
  rfl

theorem beginCommand_optFlags (s : State) : s.beginCommand.optFlags = s.optFlags := rfl

/-- The flags byte's fields, for widths a field can hold (R92). -/
theorem flagsByte_fields (c : Bool) {br bo : Nat} (hbr : br < 8) (hbo : bo < 8) :
    flagsByte c br bo &&& 0x7F = flagsByte c br bo ∧ (flagsByte c br bo).getLsbD 7 = false ∧
      (flagsByte c br bo).getLsbD 0 = c ∧ (flagsByte c br bo).toNat / 2 % 8 = br ∧
      (flagsByte c br bo).toNat / 16 % 8 = bo := by
  obtain ⟨hmask, hcomp, hrep, hoff, hbit7⟩ := flagsByte_bounds c ⟨br, hbr⟩ ⟨bo, hbo⟩
  exact ⟨hmask, hbit7, hcomp, hrep, hoff⟩

/-- Settles O19: the checks pass from the cleared `STATUS`, and the fields of the flags byte read back as composed. -/
theorem optChoosesLeastBest : Obligations.OptChoosesLeastBest := by
  intro s hd hlegal
  have hrep := leastMax_bestRep (depthOk_iff.1 hlegal.1).1 (runs s.pixels)
  have hoff := leastMax_bestOff (runs s.pixels)
  obtain ⟨hmask, hbit7, hcomp, hbr, hbo⟩ := flagsByte_fields s.comp (leastMax_lt hrep) (leastMax_lt hoff)
  have hbody : optBody s.beginCommand = (s.beginCommand.writeFlags s.optFlags).complete :=
    (optBody_of_legal (s := s.beginCommand) hlegal).trans (by rw [beginCommand_optFlags])
  rw [complete_of_status rfl, State.writeFlags] at hbody
  refine ⟨s.optFlags, ?_, hbit7, hcomp, ?_, ?_⟩
  · rw [exec_eq_issue rfl, issue_of_idle hd, commandBody, hbody, State.optFlags, hmask]
    rfl
  · rw [State.optFlags, hbr]
    exact hrep
  · rw [State.optFlags, hbo]
    exact hoff

/-! ### What a command may write (R233) -/

theorem optBody_comp (s : State) : (optBody s).comp = s.comp := by
  rw [optBody_eq]
  rcases h : s.inputFault with _ | ⟨k, info⟩
  · have hdepth : 1 ≤ s.depth := (depthOk_iff.1 (depthOk_of_inputFault_none h)).1
    exact (fields_writeFlags s s.comp (leastMax_lt (leastMax_bestRep hdepth (runs s.pixels)))
      (leastMax_lt (leastMax_bestOff (runs s.pixels)))).1
  · exact State.raise_comp s k info

/-- `OPT` writes `STATUS`, `ERRINFO` and `FLAGS` (R120). -/
theorem optBody_frame (s : State) :
    optBody s = { s with
      status := (optBody s).status, errinfo := (optBody s).errinfo, flags := (optBody s).flags } := by
  rcases optBody_cases s with ⟨k, info, h⟩ | ⟨v, h⟩ <;> rw [h] <;> rfl

/-- `ENC` writes `FLAGS`, the payload, its length and `WCUR`; of `FLAGS` not the widths (R140, R150). -/
theorem encBody_frame (s : State) :
    encBody s = { s with
      status := (encBody s).status, errinfo := (encBody s).errinfo, flags := (encBody s).flags,
      payload := (encBody s).payload, paylen := (encBody s).paylen, wcur := (encBody s).wcur } := by
  rcases encBody_cases s with ⟨k, info, h⟩ | ⟨-, v, h⟩ <;> rw [h] <;> rfl

theorem encBody_widths (s : State) : (encBody s).br = s.br ∧ (encBody s).bo = s.bo := by
  rw [encBody_eq]
  rcases s.inputFault with _ | ⟨k, info⟩
  · show s.encWrite.br = s.br ∧ s.encWrite.bo = s.bo
    unfold State.encWrite
    split
    · exact ⟨State.raise_br s .capacityExceeded 2, State.raise_bo s .capacityExceeded 2⟩
    · obtain ⟨-, hbr, hbo⟩ := fields_writeFlags (s.withPayload (encoded s.depth s.br s.bo s.pixels))
        (keepsCompressed s.depth s.br s.bo s.pixels) (br_lt s) (bo_lt s)
      exact ⟨(State.complete_br _).trans hbr, (State.complete_bo _).trans hbo⟩
  · exact ⟨State.raise_br s k info, State.raise_bo s k info⟩

theorem encBody_payload_above (s : State) {a : Nat} (ha : (encBody s).paylen ≤ a) :
    (encBody s).payload.read a = s.payload.read a := by
  rcases encBody_cases s with ⟨k, info, h⟩ | ⟨-, v, h⟩ <;> rw [h] at ha ⊢
  · rfl
  · exact Mem.read_writeList_out s.payload (.inr (by rw [encoded_bytes_length, Nat.zero_add]; exact ha))

/-- `ASM` writes the file, its length and `PALOFF` (R170). -/
theorem asmBody_frame (s : State) :
    asmBody s = { s with
      status := (asmBody s).status, errinfo := (asmBody s).errinfo, file := (asmBody s).file,
      filelen := (asmBody s).filelen, paloff := (asmBody s).paloff } := by
  rcases asmBody_cases s with ⟨k, info, h⟩ | ⟨-, h⟩ <;> rw [h]
  · rfl
  · generalize s.fileBytes = bytes
    rfl

theorem asmBody_file_above (s : State) {a : Nat} (ha : (asmBody s).filelen ≤ a) :
    (asmBody s).file.read a = s.file.read a := by
  rcases asmBody_cases s with ⟨k, info, h⟩ | ⟨-, h⟩ <;> rw [h] at ha ⊢
  · rfl
  · rw [State.complete_filelen] at ha
    rw [State.complete_file]
    exact withFile_above s ha

/-- `LDHDR` writes the header registers, the palette, the payload and its length (R175). -/
theorem ldhdrBody_frame (s : State) :
    ldhdrBody s = { s with
      status := (ldhdrBody s).status, errinfo := (ldhdrBody s).errinfo, width := (ldhdrBody s).width,
      height := (ldhdrBody s).height, bitdepth := (ldhdrBody s).bitdepth, flags := (ldhdrBody s).flags,
      paloff := (ldhdrBody s).paloff, palcount := (ldhdrBody s).palcount, pal := (ldhdrBody s).pal,
      paylen := (ldhdrBody s).paylen, payload := (ldhdrBody s).payload } := by
  rcases ldhdrBody_cases s with ⟨k, info, h⟩ | ⟨-, h⟩ <;> rw [h] <;> rfl

theorem ldhdrBody_pal_above (s : State) {a : Nat} (ha : (ldhdrBody s).palcount.toNat ≤ a) :
    (ldhdrBody s).pal.read a = s.pal.read a := by
  rcases ldhdrBody_cases s with ⟨k, info, h⟩ | ⟨-, h⟩ <;> rw [h] at ha ⊢
  · rfl
  · have hoff := fileOffset_lt s
    have hcount : s.withHeader.complete.palcount.toNat = (s.fileOffset - 20) / 2 := Nat.mod_eq_of_lt (by omega)
    exact withHeader_palette_above s (hcount ▸ ha)

theorem ldhdrBody_payload_above (s : State) {a : Nat} (ha : (ldhdrBody s).paylen ≤ a) :
    (ldhdrBody s).payload.read a = s.payload.read a := by
  rcases ldhdrBody_cases s with ⟨k, info, h⟩ | ⟨-, h⟩ <;> rw [h] at ha ⊢
  · rfl
  · exact withHeader_payload_above s ha

/-- `DEC` from a cleared `STATUS` writes what a running decoder does, since its start sequence does (R196, R208). -/
theorem decBody_writes {s : State} (hs : s.status = 0) (he : s.errinfo = 0) :
    decBody s = { s with
      status := (decBody s).status, errinfo := (decBody s).errinfo, cur := (decBody s).cur,
      pixemit := (decBody s).pixemit, lastpix := (decBody s).lastpix, lastv := (decBody s).lastv,
      outcnt := (decBody s).outcnt, dstate := (decBody s).dstate, cnt := (decBody s).cnt,
      outbuf := (decBody s).outbuf, sink := (decBody s).sink, freeCount := (decBody s).freeCount } ∧
    (∀ a, s.cfg.batch ≤ a → (decBody s).outbuf.read a = s.outbuf.read a) ∧ s.sink <+: (decBody s).sink := by
  rcases decBody_cases hs he with ⟨k, info, h⟩ | ⟨-, hr, -⟩
  · rw [h]
    exact ⟨rfl, fun _ _ => rfl, List.prefix_rfl⟩
  · obtain ⟨hframe, houtbuf, hsink, -⟩ := hr.decWrites s.cfg.legal.1
    generalize decBody s = t at hframe houtbuf hsink ⊢
    exact ⟨hframe.trans (by rw [hframe]; rfl), houtbuf, hsink⟩

/-- Settles O16: each command is its body from the cleared `STATUS`, and each body has its frame. -/
theorem commandsWriteOnlyTheirResults : Obligations.CommandsWriteOnlyTheirResults := by
  intro s t
  refine ⟨fun h => ?opt, fun h => ?enc, fun h => ?asm, fun h => ?ldhdr, fun h => ?dec⟩
  all_goals obtain ⟨-, rfl⟩ := issue_eq_next.1 h
  case opt => exact ⟨optBody_frame s.beginCommand, optBody_comp s.beginCommand⟩
  case enc =>
    obtain ⟨hbr, hbo⟩ := encBody_widths s.beginCommand
    exact ⟨encBody_frame s.beginCommand, hbr, hbo, fun _ => encBody_payload_above s.beginCommand⟩
  case asm => exact ⟨asmBody_frame s.beginCommand, fun _ => asmBody_file_above s.beginCommand⟩
  case ldhdr =>
    exact ⟨ldhdrBody_frame s.beginCommand, fun _ => ldhdrBody_pal_above s.beginCommand,
      fun _ => ldhdrBody_payload_above s.beginCommand⟩
  case dec => exact decBody_writes (s := s.beginCommand) rfl rfl

end Sys2Proof.Machine

/-!
# The blocks of a pixel sequence (41_encoder.md R143 to R146)

What the two loops of the encoder cut, as closed forms; what their blocks stand for, and that each has an encoding.
-/

namespace Sys2Proof.Machine

/-! ### Repeat blocks (R145) -/

/-- Full blocks while they last, then one for what is left. -/
theorem repLoop_eq (br : Nat) {fuel rep : Nat} (h : rep ≤ fuel) :
    repLoop br fuel rep = List.replicate (rep / 2 ^ br) (repBlock (2 ^ br)) ++
      if rep % 2 ^ br = 0 then [] else [repBlock (rep % 2 ^ br)] := by
  induction fuel generalizing rep with
  | zero =>
    obtain rfl := Nat.le_zero.1 h
    simp [repLoop]
  | succ fuel ih =>
    have hpos := Nat.two_pow_pos br
    rw [repLoop]
    by_cases hfull : 2 ^ br ≤ rep
    · rw [if_pos hfull, ih (by omega), Nat.div_eq_sub_div hpos hfull, List.replicate_succ, List.cons_append,
        ← Nat.mod_eq_sub_mod hfull]
    · have hlt : rep < 2 ^ br := Nat.lt_of_not_le hfull
      rw [if_neg hfull, Nat.div_eq_of_lt hlt, Nat.mod_eq_of_lt hlt, List.replicate_zero, List.nil_append]
      by_cases hrest : 1 ≤ rep
      · rw [if_pos hrest, if_neg (by omega)]
      · rw [if_neg hrest, if_pos (by omega)]

theorem repBlocks_eq (br rep : Nat) :
    repBlocks br rep = List.replicate (rep / 2 ^ br) (repBlock (2 ^ br)) ++
      if rep % 2 ^ br = 0 then [] else [repBlock (rep % 2 ^ br)] :=
  repLoop_eq br le_rfl

theorem ceilPow_eq_div_add (rep b : Nat) : ceilPow rep b = rep / 2 ^ b + ceilPow (rep % 2 ^ b) b := by
  rw [← ceilPow_mul_add, Nat.div_add_mod]

/-- Settles O23: the closed form of the loop, whose length is `ceil(rep / 2^br)` as the remainder is 0 or takes one
block. -/
theorem repBlocksAreFullThenRemainder : Obligations.RepBlocksAreFullThenRemainder := by
  intro br rep _
  have hrem : rep % 2 ^ br < 2 ^ br := Nat.mod_lt _ (Nat.two_pow_pos br)
  refine ⟨repBlocks_eq br rep, ?_⟩
  rw [repBlocks_eq, ceilPow_eq_div_add, List.length_append, List.length_replicate]
  split
  · rename_i h0
    rw [h0, ceilPow_zero]
    rfl
  · rw [ceilPow_eq_one (by omega) hrem.le]
    rfl

/-- The count of a `REP` block, for the counts its 7-bit field can hold (R95, R99). -/
theorem repBlock_field {k : Nat} (h1 : 1 ≤ k) (h128 : k ≤ 128) : (BitVec.ofNat 7 (k - 1)).toNat + 1 = k := by
  rw [BitVec.toNat_ofNat]
  omega

theorem mem_repBlocks {br rep : Nat} {i : Instr} (h : i ∈ repBlocks br rep) :
    ∃ k, 1 ≤ k ∧ k ≤ 2 ^ br ∧ i = repBlock k := by
  have hpos := Nat.two_pow_pos br
  have hrem : rep % 2 ^ br < 2 ^ br := Nat.mod_lt _ hpos
  rw [repBlocks_eq, List.mem_append] at h
  rcases h with h | h
  · exact ⟨2 ^ br, hpos, le_rfl, List.eq_of_mem_replicate h⟩
  · split at h
    · cases h
    · exact ⟨rep % 2 ^ br, by omega, hrem.le, List.mem_singleton.1 h⟩

/-! ### Literal blocks (R146) -/

/-- Full literals while more than one is needed, then the rest of the span. -/
theorem litLoop_cuts (bo : Nat) {fuel : Nat} {span : List Code} (hne : 1 ≤ span.length) (h : span.length ≤ fuel) :
    ∃ (full : List (List Code)) (last : List Code),
      litLoop bo fuel span = full.map .lit ++ [.lit last] ∧ full.flatten ++ last = span ∧
      (∀ gs ∈ full, gs.length = 2 ^ bo) ∧ 1 ≤ last.length ∧ last.length ≤ 2 ^ bo ∧
      full.length + 1 = ceilPow span.length bo := by
  induction fuel generalizing span with
  | zero => omega
  | succ fuel ih =>
    have hpos := Nat.two_pow_pos bo
    unfold litLoop
    split_ifs with hfull
    · have hdrop : (span.drop (2 ^ bo)).length = span.length - 2 ^ bo := List.length_drop
      obtain ⟨full, last, heq, hspan, hlen, h1, h2, hcount⟩ := ih (span := span.drop (2 ^ bo)) (by omega) (by omega)
      refine ⟨span.take (2 ^ bo) :: full, last, by rw [heq]; rfl, ?_, ?_, h1, h2, ?_⟩
      · rw [List.flatten_cons, List.append_assoc, hspan, List.take_append_drop]
      · exact List.forall_mem_cons.2 ⟨List.length_take_of_le hfull.le, hlen⟩
      · rw [List.length_cons, hcount, hdrop, ceilPow_sub hfull.le]
    · exact ⟨[], span, rfl, rfl, by simp, hne, by omega, (ceilPow_eq_one hne (by omega)).symm⟩

/-- Settles O24: the loop's bound, the number of codes, is never what ends it. -/
theorem litBlocksCutTheSpan : Obligations.LitBlocksCutTheSpan :=
  fun bo _ hne => litLoop_cuts bo (List.length_pos_iff.2 hne) le_rfl

theorem litBlockList_head (bo : Nat) (span : List Code) : ∃ gs rest, litBlockList bo span = .lit gs :: rest := by
  unfold litBlockList
  cases h : span.length with
  | zero => exact ⟨span, [], rfl⟩
  | succ fuel =>
    unfold litLoop
    split
    · exact ⟨_, _, rfl⟩
    · exact ⟨_, _, rfl⟩

/-- The literal blocks of a span are of 1 to `2^bo` codes each, and together they are the span. -/
theorem litBlockList_spec (bo : Nat) {span : List Code} (hne : span ≠ []) :
    ∃ gss : List (List Code), litBlockList bo span = gss.map .lit ∧ gss.flatten = span ∧
      ∀ gs ∈ gss, 1 ≤ gs.length ∧ gs.length ≤ 2 ^ bo := by
  obtain ⟨full, last, heq, hspan, hlen, h1, h2, -⟩ := litBlocksCutTheSpan bo span hne
  refine ⟨full ++ [last], by rw [heq, List.map_append]; rfl, by simpa using hspan, fun gs hgs => ?_⟩
  rcases List.mem_append.1 hgs with hgs | hgs
  · rw [hlen gs hgs]
    exact ⟨Nat.two_pow_pos bo, le_rfl⟩
  · rw [List.mem_singleton.1 hgs]
    exact ⟨h1, h2⟩

/-! ### What blocks stand for (R199, R200, R205) -/

theorem getLastD_append (xs ys : List Code) (last : Code) :
    (xs ++ ys).getLastD last = ys.getLastD (xs.getLastD last) := by
  simp [List.getLastD_eq_getLast?, List.getLast?_append]

theorem getLastD_replicate_succ (n : Nat) (v last : Code) : (List.replicate (n + 1) v).getLastD last = v := by
  simp [List.getLastD_eq_getLast?, List.getLast?_replicate]

/-- The blocks behind others repeat from the last code of those. -/
theorem expand_append (is js : List Instr) (last : Code) :
    expand last (is ++ js) = expand last is ++ expand ((expand last is).getLastD last) js := by
  induction is generalizing last with
  | nil => rfl
  | cons i is ih =>
    cases i with
    | rep r =>
      simp only [List.cons_append, expand, ih, getLastD_append, getLastD_replicate_succ, List.append_assoc]
    | lit gs => simp only [List.cons_append, expand, ih, getLastD_append, List.append_assoc]
    | raw g =>
      rw [List.cons_append, expand, expand, ih, List.cons_append, List.getLastD_cons]
    | pad | opt | enc | asm | ldhdr | dec | reserved0 | reserved67 => simp only [List.cons_append, expand, ih]

theorem expand_lits (gss : List (List Code)) (last : Code) : expand last (gss.map .lit) = gss.flatten := by
  induction gss generalizing last with
  | nil => rfl
  | cons gs gss ih => rw [List.map_cons, expand, ih, List.flatten_cons]

theorem expand_replicate_rep (n : Nat) (r : BitVec 7) (last : Code) (is : List Instr) :
    expand last (List.replicate n (.rep r) ++ is) = List.replicate (n * (r.toNat + 1)) last ++ expand last is := by
  induction n with
  | zero => simp
  | succ n ih =>
    rw [List.replicate_succ, List.cons_append, expand, ih, Nat.succ_mul, Nat.add_comm (n * _), ← List.append_assoc,
      List.replicate_append_replicate]

/-- The `REP` blocks of a run stand for its repeats. -/
theorem expand_repBlocks {br : Nat} (hbr : br < 8) (rep : Nat) (last : Code) :
    expand last (repBlocks br rep) = List.replicate rep last := by
  have hpos := Nat.two_pow_pos br
  have h128 := two_pow_le_of_lt_eight hbr
  have hrem : rep % 2 ^ br < 2 ^ br := Nat.mod_lt _ hpos
  have hsplit : rep / 2 ^ br * 2 ^ br + rep % 2 ^ br = rep := Nat.div_add_mod' rep (2 ^ br)
  rw [repBlocks_eq, repBlock, expand_replicate_rep, repBlock_field hpos h128]
  split
  · rw [expand, List.append_nil]
    congr 1
    omega
  · rw [repBlock, expand, repBlock_field (by omega) (by omega), expand, List.append_nil, ← List.replicate_add,
      hsplit]

theorem expand_litBlockList (bo : Nat) {span : List Code} (hne : span ≠ []) (last : Code) :
    expand last (litBlockList bo span) = span := by
  obtain ⟨gss, heq, hspan, -⟩ := litBlockList_spec bo hne
  rw [heq, expand_lits, hspan]

/-- The codes a list of runs stands for (R121). -/
def runCodes (rs : List (Code × Nat)) : List Code := rs.flatMap fun x => List.replicate x.2 x.1

theorem runCodes_runs (codes : List Code) : runCodes (runs codes) = codes := (isRuns_runs codes).expands

/-- The blocks formed with `span` collected stand for `span` and then the runs (R143). -/
theorem expand_blocksFrom {br : Nat} (hbr : br < 8) (bo : Nat) {rs : List (Code × Nat)} (hrs : ∀ x ∈ rs, 1 ≤ x.2)
    (span : List Code) (last : Code) : expand last (blocksFrom br bo span rs) = span ++ runCodes rs := by
  induction rs generalizing span last with
  | nil =>
    unfold blocksFrom
    split_ifs with h
    · rw [expand_litBlockList bo (List.ne_nil_of_length_pos h)]
      exact (List.append_nil span).symm
    · rw [List.eq_nil_of_length_eq_zero (by omega : span.length = 0)]
      rfl
  | cons x rest ih =>
    obtain ⟨v, l⟩ := x
    obtain ⟨hl, hrest⟩ := List.forall_mem_cons.1 hrs
    have hcodes : runCodes ((v, l) :: rest) = v :: (List.replicate (l - 1) v ++ runCodes rest) := by
      obtain ⟨k, rfl⟩ : ∃ k, l = k + 1 := ⟨l - 1, (Nat.sub_add_cancel hl).symm⟩
      rfl
    unfold blocksFrom
    split_ifs with h
    · rw [expand_append, expand_append, expand_litBlockList bo (by simp), List.getLastD_concat,
        expand_repBlocks hbr, ih hrest, hcodes]
      simp
    · rw [ih hrest, hcodes, show l - 1 = 0 by omega]
      simp

theorem expand_blocks {br : Nat} (hbr : br < 8) (bo : Nat) (codes : List Code) (last : Code) :
    expand last (blocks br bo codes) = codes := by
  rw [blocks, expand_blocksFrom hbr bo (isRuns_runs codes).positive, runCodes_runs, List.nil_append]

/-! ### The blocks are well formed (R95, R96, R101) -/

theorem streamMode_wf {d br bo : Nat} (hd1 : 1 ≤ d) (hd16 : d ≤ 16) (hbr : br < 8) (hbo : bo < 8) :
    (streamMode d br bo).wf = true :=
  Mode.wf_iff.2 ⟨Nat.le_of_lt_succ hbr, Nat.le_of_lt_succ hbo, hd1, hd16⟩

theorem mem_litBlockList {bo : Nat} {P : Code → Prop} {span : List Code} {i : Instr} (hne : span ≠ [])
    (hspan : ∀ c ∈ span, P c) (hi : i ∈ litBlockList bo span) :
    ∃ gs, i = .lit gs ∧ 1 ≤ gs.length ∧ gs.length ≤ 2 ^ bo ∧ ∀ c ∈ gs, P c := by
  obtain ⟨gss, heq, rfl, hlen⟩ := litBlockList_spec bo hne
  rw [heq] at hi
  obtain ⟨gs, hgs, rfl⟩ := List.mem_map.1 hi
  obtain ⟨h1, h2⟩ := hlen gs hgs
  exact ⟨gs, rfl, h1, h2, fun c hc => hspan c (List.mem_flatten.2 ⟨gs, hgs, hc⟩)⟩

/-- The blocks formed with `span` collected are literals of 1 to `2^bo` of the codes, and repeats (R143). -/
theorem mem_blocksFrom {br bo : Nat} {P : Code → Prop} {rs : List (Code × Nat)} {span : List Code} {i : Instr}
    (hspan : ∀ c ∈ span, P c) (hrs : ∀ x ∈ rs, P x.1) (hi : i ∈ blocksFrom br bo span rs) :
    (∃ gs, i = .lit gs ∧ 1 ≤ gs.length ∧ gs.length ≤ 2 ^ bo ∧ ∀ c ∈ gs, P c) ∨
      ∃ k, i = repBlock k ∧ 1 ≤ k ∧ k ≤ 2 ^ br := by
  induction rs generalizing span with
  | nil =>
    unfold blocksFrom at hi
    split_ifs at hi with h
    · exact .inl (mem_litBlockList (List.ne_nil_of_length_pos h) hspan hi)
    · cases hi
  | cons x rest ih =>
    obtain ⟨v, l⟩ := x
    obtain ⟨hv, hrest⟩ := List.forall_mem_cons.1 hrs
    have hspan' : ∀ c ∈ span ++ [v], P c := List.forall_mem_append.2 ⟨hspan, List.forall_mem_singleton.2 hv⟩
    unfold blocksFrom at hi
    split_ifs at hi with h
    · rcases List.mem_append.1 hi with hi | hi
      · rcases List.mem_append.1 hi with hi | hi
        · exact .inl (mem_litBlockList (by simp) hspan' hi)
        · obtain ⟨k, h1, h2, hk⟩ := mem_repBlocks hi
          exact .inr ⟨k, hk, h1, h2⟩
      · exact ih (fun _ h => absurd h List.not_mem_nil) hrest hi
    · exact ih hspan' hrest hi

theorem blocks_wf {d br bo : Nat} (hd1 : 1 ≤ d) (hd16 : d ≤ 16) (hbr : br < 8) (hbo : bo < 8) {codes : List Code}
    (hcodes : ∀ c ∈ codes, c.toNat < 2 ^ d) {i : Instr} (hi : i ∈ blocks br bo codes) :
    i.wf (.payload (streamMode d br bo)) = true := by
  have hmode := streamMode_wf hd1 hd16 hbr hbo
  have hruns : ∀ x ∈ runs codes, x.1.toNat < 2 ^ d := fun x hx => hcodes x.1 <| by
    have hmem : x.1 ∈ runCodes (runs codes) := List.mem_flatMap.2
      ⟨x, hx, List.mem_replicate.2 ⟨Nat.one_le_iff_ne_zero.1 ((isRuns_runs codes).positive x hx), rfl⟩⟩
    rwa [runCodes_runs] at hmem
  rcases mem_blocksFrom (P := fun c => c.toNat < 2 ^ d) (fun _ h => absurd h List.not_mem_nil) hruns hi with
    ⟨gs, rfl, h1, h2, hgs⟩ | ⟨k, rfl, h1, h2⟩
  · exact wf_lit_iff.2 ⟨hmode, rfl, rfl, h1, h2, hgs⟩
  · have h128 := two_pow_le_of_lt_eight hbr
    have hfield := repBlock_field h1 (h2.trans h128)
    exact wf_rep_iff.2 ⟨hmode, rfl, rfl, show _ < 2 ^ br by omega⟩

/-- The first block of a sequence is a literal: every repeat has its base pixel (R143). -/
theorem blocksFrom_head (br bo : Nat) {rs : List (Code × Nat)} {span : List Code} (h : span ≠ [] ∨ rs ≠ []) :
    ∃ gs rest, blocksFrom br bo span rs = .lit gs :: rest := by
  induction rs generalizing span with
  | nil =>
    have hne : 1 ≤ span.length := List.length_pos_iff.2 (h.resolve_right (not_not.2 rfl))
    rw [blocksFrom, if_pos hne]
    exact litBlockList_head bo span
  | cons x rest ih =>
    obtain ⟨v, l⟩ := x
    unfold blocksFrom
    split
    · obtain ⟨gs, is, heq⟩ := litBlockList_head bo (span ++ [v])
      exact ⟨gs, _, by rw [heq, List.append_assoc, List.cons_append]⟩
    · exact ih (.inl (by simp))

theorem blocks_head (br bo : Nat) {codes : List Code} (h : codes ≠ []) :
    ∃ gs rest, blocks br bo codes = .lit gs :: rest := by
  refine blocksFrom_head br bo (.inr fun hruns => h ?_)
  rw [← runCodes_runs codes, hruns]
  rfl

/-- Settles O25: the runs expand to the sequence, and so do the blocks cut from them. -/
theorem blocksStandForTheSequence : Obligations.BlocksStandForTheSequence := by
  intro d br bo codes last hd1 hd16 hbr hbo hcodes
  have hbr8 := Nat.lt_succ_of_le hbr
  exact ⟨expand_blocks hbr8 bo codes last, fun _ => blocks_wf hd1 hd16 hbr8 (Nat.lt_succ_of_le hbo) hcodes,
    blocks_head br bo⟩

end Sys2Proof.Machine

/-!
# `ENC` (41_encoder.md R140 to R152)

The bits the writer holds after the blocks, the raw groups and the pad; the length of the payload; what `ENC` leaves.
-/

namespace Sys2Proof.Machine

/-! ### Padding (R98, R147) -/

/-- The pad brings a stream to the next multiple of 16 bits. -/
theorem padded_length (bs : List Bool) : (padded bs).length = 16 * ((bs.length + 15) / 16) := by
  rw [padded, List.length_append, List.length_replicate, padBits]
  omega

theorem BitWriter.holds_padded {w : BitWriter} {bs : List Bool} (h : w.Holds bs) : w.padTo16.Holds (padded bs) :=
  BitWriter.holds_padTo16 h

/-! ### What the writer holds (R147, R149) -/

/-- The groups of a list of codes append their raw packing (R149). -/
theorem putGroups_holds_rawStream (d : Nat) (codes : List Code) {w : BitWriter} {bs : List Bool} (h : w.Holds bs) :
    (putGroups d w codes).Holds (bs ++ rawStream d codes) := by
  unfold putGroups
  induction codes generalizing w bs with
  | nil => simpa using h
  | cons g codes ih =>
    rw [List.foldl_cons, rawStream_cons, ← List.append_assoc]
    exact ih (BitWriter.holds_putBits h d g.toNat)

/-- A block appends its encoding (R147). -/
theorem putBlock_holds_encodeBlock (d br bo : Nat) {i : Instr} (hi : i ≠ .pad) {w : BitWriter} {bs : List Bool}
    (h : w.Holds bs) : (putBlock d br bo w i).Holds (bs ++ encodeBlock (streamMode d br bo) i) := by
  cases i with
  | rep r =>
    have hrep := BitWriter.holds_putBits (BitWriter.holds_putBits h 1 0) br r.toNat
    rwa [List.append_assoc] at hrep
  | lit gs =>
    have hlit := putGroups_holds_rawStream d gs
      (BitWriter.holds_putBits (BitWriter.holds_putBits h 1 1) bo (gs.length - 1))
    rwa [List.append_assoc, List.append_assoc] at hlit
  | raw g => exact BitWriter.holds_putBits h d g.toNat
  | pad => exact absurd rfl hi
  | opt | enc | asm | ldhdr | dec | reserved0 | reserved67 => simpa [encodeBlock, putBlock] using h

theorem putBlocks_holds_blockStream (d br bo : Nat) {is : List Instr} (his : ∀ i ∈ is, i ≠ .pad) {w : BitWriter}
    {bs : List Bool} (h : w.Holds bs) :
    (is.foldl (putBlock d br bo) w).Holds (bs ++ blockStream (streamMode d br bo) is) := by
  induction is generalizing w bs with
  | nil => simpa using h
  | cons i is ih =>
    obtain ⟨hi, his⟩ := List.forall_mem_cons.1 his
    rw [List.foldl_cons, blockStream_cons, ← List.append_assoc]
    exact ih his (putBlock_holds_encodeBlock d br bo hi h)

theorem blocks_ne_pad {br bo : Nat} {codes : List Code} {i : Instr} (hi : i ∈ blocks br bo codes) : i ≠ .pad := by
  rcases mem_blocksFrom (P := fun _ => True) (fun _ _ => trivial) (fun _ _ => trivial) hi with
    ⟨gs, rfl, -⟩ | ⟨k, rfl, -⟩ <;> exact nofun

theorem compressed_holds (d br bo : Nat) (codes : List Code) :
    (compressed d br bo codes).Holds (candidate d br bo codes) :=
  BitWriter.holds_padded (putBlocks_holds_blockStream d br bo (fun _ => blocks_ne_pad) BitWriter.holds_empty)

theorem rawPacked_holds (d : Nat) (codes : List Code) : (rawPacked d codes).Holds (padded (rawStream d codes)) :=
  BitWriter.holds_padded (putGroups_holds_rawStream d codes BitWriter.holds_empty)

/-- The compressed stream is kept when it is no longer than the naive length (R148). -/
theorem keepsCompressed_eq (d br bo : Nat) (codes : List Code) :
    keepsCompressed d br bo codes =
      decide ((candidate d br bo codes).length / 8 ≤ (codes.length * d + 15) / 16 * 2) := by
  rw [keepsCompressed, (compressed_holds d br bo codes).1, naiveLength]

/-- What `ENC` writes is the payload of the rule (R148, R149). -/
theorem encoded_holds (d br bo : Nat) (codes : List Code) :
    (encoded d br bo codes).Holds (payloadBits d br bo codes) := by
  simp only [encoded, payloadBits, keepsCompressed_eq, decide_eq_true_iff]
  split
  · exact compressed_holds d br bo codes
  · exact rawPacked_holds d codes

/-! ### The length of the payload (R148, R150, R151) -/

theorem rawStream_length (d : Nat) (codes : List Code) : (rawStream d codes).length = codes.length * d :=
  Laws.EncodedLength.groups_length d codes

/-- The payload is whole pairs of bytes, in either branch no more than the raw packing takes. -/
theorem payloadBits_length (d br bo : Nat) (codes : List Code) :
    (payloadBits d br bo codes).length % 16 = 0 ∧
      (payloadBits d br bo codes).length / 8 ≤ (codes.length * d + 15) / 16 * 2 := by
  unfold payloadBits
  split
  · rename_i hkeep
    refine ⟨?_, hkeep⟩
    rw [candidate, padded_length]
    omega
  · rw [padded_length, rawStream_length]
    omega

/-- Codes of at most 16 bits take at most two bytes each (R151). -/
theorem naiveLength_le {d : Nat} (hd : d ≤ 16) (n : Nat) : (n * d + 15) / 16 * 2 ≤ 2 * n := by
  have := Nat.mul_le_mul_left n hd
  omega

/-- No pixels, no blocks, no pad (R152). -/
theorem candidate_nil (d br bo : Nat) : candidate d br bo [] = [] := by
  simp [candidate, blocks, runs, blocksFrom, padded, padBits]

theorem payloadBits_nil (d br bo : Nat) : payloadBits d br bo [] = [] := by
  simp [payloadBits, candidate_nil]

theorem legal_of_inputFault_none {s : State} (h : s.inputFault = none) : s.PixelsLegal := by
  have hok := depthOk_of_inputFault_none h
  rw [State.inputFault, hok, Bool.not_true, if_neg Bool.false_ne_true] at h
  rcases hcap : exceeds s.pixelCount s.cfg.pixinCap with _ | _
  · rw [hcap, if_neg Bool.false_ne_true, Option.map_eq_none_iff] at h
    exact ⟨hok, hcap, firstWide_eq_none.1 h⟩
  · rw [hcap, if_pos rfl] at h
    cases h

/-! ### The body of `ENC` (R140, R141, R150) -/

/-- The payload `ENC` forms from a state (R148, R149). -/
def State.encPayload (s : State) : List Bool := payloadBits s.depth s.br s.bo s.pixels

theorem encoded_wcur (s : State) : (encoded s.depth s.br s.bo s.pixels).wcur = s.encPayload.length :=
  (encoded_holds s.depth s.br s.bo s.pixels).1

theorem encPayload_length_mod (s : State) : s.encPayload.length % 16 = 0 :=
  (payloadBits_length s.depth s.br s.bo s.pixels).1

@[simp] theorem pixels_length (s : State) : s.pixels.length = s.pixelCount := by simp [State.pixels]

/-- The state `ENC` completes in (R150). -/
def State.encDone (s : State) : State :=
  ((s.withPayload (encoded s.depth s.br s.bo s.pixels)).writeFlags
    (flagsByte (keepsCompressed s.depth s.br s.bo s.pixels) s.br s.bo)).complete

/-- The lengths and the frame of a completed `ENC` (R150). -/
theorem encDone_eq {s : State} (h : s.status = 0) : s.encDone = { s with
    status := 1, flags := s.encDone.flags, payload := s.encDone.payload, paylen := s.encPayload.length / 8,
    wcur := s.encPayload.length } := by
  rw [State.encDone, complete_of_status (by exact h), ← encoded_wcur]
  rfl

/-- The payload's bits after `ENC` are those it formed (R150). -/
theorem encDone_bits (s : State) : s.encDone.bitsFrom 0 s.encPayload.length = s.encPayload := by
  have hmod := encPayload_length_mod s
  have hholds : (encoded s.depth s.br s.bo s.pixels).Holds s.encPayload := encoded_holds ..
  have hbytes : s.encDone.payload.readList 0 (s.encPayload.length / 8) =
      (encoded s.depth s.br s.bo s.pixels).bytes := by
    rw [← encoded_wcur, ← encoded_bytes_length]
    exact Mem.readList_writeList s.payload 0 _
  have hbits := byteBits_readList_payload s.encDone (s.encPayload.length / 8)
  rw [hbytes, hholds.bits (by omega), show 8 * (s.encPayload.length / 8) = s.encPayload.length by omega] at hbits
  exact hbits.symm

/-- The bytes above the payload stay (R150). -/
theorem encDone_payload_above (s : State) {a : Nat} (h : s.encPayload.length / 8 ≤ a) :
    s.encDone.payload.read a = s.payload.read a :=
  Mem.read_writeList_out s.payload (.inr (by rwa [encoded_bytes_length, encoded_wcur, Nat.zero_add]))

/-- The fields of `FLAGS` after `ENC`: both widths as they were, `COMP` by the fallback decision (R148, R150). -/
theorem encDone_fields (s : State) : s.encDone.br = s.br ∧ s.encDone.bo = s.bo ∧ s.encDone.comp =
    decide ((candidate s.depth s.br s.bo s.pixels).length / 8 ≤ (s.pixelCount * s.depth + 15) / 16 * 2) := by
  obtain ⟨hcomp, hbr, hbo⟩ := fields_writeFlags (s.withPayload (encoded s.depth s.br s.bo s.pixels))
    (keepsCompressed s.depth s.br s.bo s.pixels) (br_lt s) (bo_lt s)
  refine ⟨hbr, hbo, hcomp.trans ?_⟩
  rw [keepsCompressed_eq, pixels_length]

theorem encWrite_eq (s : State) :
    s.encWrite = if exceeds (s.encPayload.length / 8) s.cfg.payloadCap then s.raise .capacityExceeded 2
      else s.encDone := by
  rw [State.encWrite, encoded_wcur]
  rfl

/-- With its input legal `ENC` has one check left, that of the payload's length (R141). -/
theorem exec_enc_of_legal {s : State} (hd : s.dstate.active = false) (hlegal : s.PixelsLegal) :
    exec .enc s = .next s.beginCommand.encWrite := by
  rw [exec_eq_issue rfl, issue_of_idle hd, commandBody, encBody_eq, inputFault_of_legal (s := s.beginCommand) hlegal]
  rfl

theorem beginCommand_encPayload (s : State) : s.beginCommand.encPayload = s.encPayload := rfl

theorem exec_enc_of_fits {s : State} (hd : s.dstate.active = false) (hlegal : s.PixelsLegal)
    (hfits : exceeds (s.encPayload.length / 8) s.cfg.payloadCap = false) :
    exec .enc s = .next s.beginCommand.encDone := by
  rw [exec_enc_of_legal hd hlegal, encWrite_eq, beginCommand_encPayload, State.beginCommand_cfg,
    if_neg (by simp [hfits])]

/-- Settles O27: the payload's length is the last check. -/
theorem encPayloadTooLong : Obligations.EncPayloadTooLong := by
  intro s hd hlegal hlong
  rw [← State.encPayload] at hlong
  rw [exec_enc_of_legal hd hlegal, encWrite_eq, beginCommand_encPayload, State.beginCommand_cfg, if_pos hlong]
  rfl

/-- Settles O26: the writer holds the payload, of whole bytes, and `FLAGS` takes the fields composed. -/
theorem encWritesTheStream : Obligations.EncWritesTheStream := by
  intro s hd hlegal p hfits
  have hmod : p.length % 16 = 0 := encPayload_length_mod s
  have hdone := encDone_eq (s := s.beginCommand) rfl
  obtain ⟨hbr, hbo, hcomp⟩ := encDone_fields s.beginCommand
  refine ⟨_, exec_enc_of_fits hd hlegal hfits, hdone, encDone_bits s.beginCommand, ?_, hbr, hbo, hcomp,
    fun a => encDone_payload_above s.beginCommand⟩
  rw [hdone]
  show 8 * (p.length / 8) = p.length
  omega

/-- `ENC` that ends with `DONE` found its input legal and its payload within the capacity (R141). -/
theorem exec_enc_done {s t : State} (h : exec .enc s = .next t) (hdone : t.statusDone = true) :
    s.dstate.active = false ∧ s.PixelsLegal ∧ exceeds (s.encPayload.length / 8) s.cfg.payloadCap = false := by
  obtain ⟨hd, rfl⟩ := issue_eq_next.1 h
  rw [encBody_eq] at hdone
  rcases hinput : s.beginCommand.inputFault with _ | ⟨k, info⟩
  · rw [hinput, Option.map_none, Option.getD_none, encWrite_eq, beginCommand_encPayload,
      State.beginCommand_cfg] at hdone
    refine ⟨hd, legal_of_inputFault_none hinput, ?_⟩
    rcases hcap : exceeds (s.encPayload.length / 8) s.cfg.payloadCap with _ | _
    · rfl
    · rw [hcap, if_pos rfl, statusDone_raise] at hdone
      cases hdone
  · rw [hinput, Option.map_some, Option.getD_some, statusDone_raise] at hdone
    cases hdone

/-- Settles O28: the length is that of the payload in either branch. -/
theorem encSizeBound : Obligations.EncSizeBound := by
  intro s t h hdone
  obtain ⟨hd, hlegal, hfits⟩ := exec_enc_done h hdone
  obtain ⟨t', hexec, ht, -, hlen, -⟩ := encWritesTheStream s hd hlegal hfits
  obtain rfl : t = t' := Host.Outcome.next.inj (h.symm.trans hexec)
  obtain ⟨hmod, hle⟩ := payloadBits_length s.depth s.br s.bo s.pixels
  rw [pixels_length] at hle
  have hnaive := naiveLength_le (depthOk_iff.1 hlegal.1).2 s.pixelCount
  have hwcur : t.wcur = (payloadBits s.depth s.br s.bo s.pixels).length := by rw [ht]
  exact ⟨by omega, by omega, by omega, by omega⟩

/-- Settles O29: without pixels nothing can be out of range, and the payload is empty. -/
theorem encOfEmptyImage : Obligations.EncOfEmptyImage := by
  intro s hd hok hn
  have hpixels : s.pixels = [] := List.eq_nil_of_length_eq_zero (by rw [pixels_length, hn])
  have hzero : ∀ cap, exceeds 0 cap = false := fun cap => by cases cap <;> simp [exceeds]
  have hlegal : s.PixelsLegal := ⟨hok, by rw [hn]; exact hzero _, by simp [hpixels]⟩
  have hpayload : s.encPayload = [] := by rw [State.encPayload, hpixels, payloadBits_nil]
  have hfits : exceeds (s.encPayload.length / 8) s.cfg.payloadCap = false := by rw [hpayload]; exact hzero _
  obtain ⟨t, hexec, ht, -, hlen, -, -, hcomp, -⟩ := encWritesTheStream s hd hlegal hfits
  rw [hpixels, candidate_nil] at hcomp
  rw [← State.encPayload, hpayload] at ht
  exact ⟨t, hexec, by rw [ht], by rw [ht]; rfl, by simpa using hcomp, by rw [ht]; rfl⟩

end Sys2Proof.Machine

/-!
# `DEC` of a compressed payload, and of what `ENC` wrote (43_decoder.md R196 to R205; 41_encoder.md R155)

A whole block as a run of the state machine, then the blocks of all the pixels wanted one after another; in the end the
payload of `ENC`, which is such blocks or a raw packing.
-/

namespace Sys2Proof.Machine

/-! ### Runs of the state machine (R196, R197) -/

theorem runSteps_eq_iterate (fuel : Nat) (s : State) : runSteps fuel s = State.decStep^[fuel] s := by
  induction fuel generalizing s with
  | zero => rfl
  | succ fuel ih =>
    rcases ha : s.dstate.active with _ | _
    · rw [runSteps_of_inactive ha, Function.iterate_fixed (decStep_inactive ha)]
    · rw [runSteps_succ ha, ih, Function.iterate_succ_apply]

/-- A run that has come to its end is the same however many more steps it is given. -/
theorem runSteps_eq_of_inactive {s : State} {fuel n : Nat} (hfuel : (runSteps fuel s).dstate.active = false)
    (hn : (State.decStep^[n] s).dstate.active = false) : runSteps fuel s = State.decStep^[n] s := by
  rw [runSteps_eq_iterate] at hfuel ⊢
  rcases Nat.le_total fuel n with h | h
  · obtain ⟨k, rfl⟩ := Nat.exists_eq_add_of_le' h
    rw [Function.iterate_add_apply, Function.iterate_fixed (decStep_inactive hfuel)]
  · obtain ⟨k, rfl⟩ := Nat.exists_eq_add_of_le' h
    rw [Function.iterate_add_apply, Function.iterate_fixed (decStep_inactive hn)]

/-- Steps of the running decoder take `s` to `t`, emit the colours `vs`, and write nothing but the working registers,
`OUTBUF` and `SINK` (R197, R208). -/
structure State.RunsTo (s t : State) (vs : List Colour) : Prop where
  steps : ∃ n, State.decStep^[n] s = t
  emitted : s.Emitted t vs
  frame : t = { s with
    cur := t.cur, pixemit := t.pixemit, lastpix := t.lastpix, lastv := t.lastv, outcnt := t.outcnt,
    dstate := t.dstate, cnt := t.cnt, outbuf := t.outbuf, sink := t.sink }

section

variable {s t u : State} {vs ws : List Colour}

theorem State.RunsTo.refl (h : s.outcnt < s.cfg.batch) : s.RunsTo s [] := ⟨⟨0, rfl⟩, .refl h, rfl⟩

theorem State.RunsTo.cfg_eq (h : s.RunsTo t vs) : t.cfg = s.cfg := by rw [h.frame]

theorem State.RunsTo.trans (h1 : s.RunsTo t vs) (h2 : t.RunsTo u ws) : s.RunsTo u (vs ++ ws) where
  steps := by
    obtain ⟨n, hn⟩ := h1.steps
    obtain ⟨k, hk⟩ := h2.steps
    exact ⟨k + n, by rw [Function.iterate_add_apply, hn, hk]⟩
  emitted := h1.emitted.trans h2.emitted h1.cfg_eq
  frame := h2.frame.trans (by rw [h1.frame])

theorem State.RunsTo.outcnt_lt (h : s.RunsTo t vs) : t.outcnt < t.cfg.batch := by
  rw [h.emitted.outcnt, h.cfg_eq]
  exact Nat.mod_lt _ s.cfg.legal.1

theorem State.RunsTo.depth_eq (h : s.RunsTo t vs) : t.depth = s.depth := by rw [h.frame]; rfl
theorem State.RunsTo.br_eq (h : s.RunsTo t vs) : t.br = s.br := by rw [h.frame]; rfl
theorem State.RunsTo.bo_eq (h : s.RunsTo t vs) : t.bo = s.bo := by rw [h.frame]; rfl
theorem State.RunsTo.pixelCount_eq (h : s.RunsTo t vs) : t.pixelCount = s.pixelCount := by rw [h.frame]; rfl
theorem State.RunsTo.colourOf_eq (h : s.RunsTo t vs) : t.colourOf = s.colourOf := by rw [h.frame]; rfl
theorem State.RunsTo.resolves_iff (h : s.RunsTo t vs) (codes : List Code) : t.Resolves codes ↔ s.Resolves codes := by
  rw [h.frame]; rfl

/-- A step that only moves `CUR` past a header (R198). -/
theorem State.RunsTo.of_header {n k : Nat} {d : DState} (ho : s.outcnt < s.cfg.batch)
    (h : s.decStep = { s.advance n with cnt := k, dstate := d }) :
    s.RunsTo { s.advance n with cnt := k, dstate := d } [] :=
  ⟨⟨1, h⟩, (State.Emitted.refl ho).congr rfl rfl rfl rfl, rfl⟩

/-- A step that emits a group inside a block (R199). -/
theorem State.RunsTo.of_group {v : Colour} (ho : s.outcnt < s.cfg.batch)
    (h : s.decStep = (s.afterGroup v).countDown) : s.RunsTo (s.afterGroup v).countDown [v] :=
  ⟨⟨1, h⟩, (emitted_afterGroup ho v).congr rfl rfl rfl rfl, by rw [State.afterGroup, State.emit_eq]; rfl⟩

/-- A step that emits the last colour again (R200). -/
theorem State.RunsTo.of_repeat (ho : s.outcnt < s.cfg.batch) (h : s.decStep = repeatPixel s) :
    s.RunsTo (repeatPixel s) [s.lastpix] :=
  ⟨⟨1, h⟩, (emitted_emit ho s.lastpix).congr rfl rfl rfl rfl, by rw [repeatPixel, State.emit_eq]; rfl⟩

end

/-! ### Headers (R198) -/

theorem advance_advance (s : State) (m n : Nat) : (s.advance m).advance n = s.advance (m + n) := by
  simp [State.advance, Nat.add_assoc]

/-- The control bit and a field that stand at `CUR` are read, and what stands behind them is next. -/
theorem State.Ahead.getHeader {s : State} {b : Bool} {n f : Nat} {bs : List Bool}
    (h : s.Ahead (b :: (fieldBits n f ++ bs))) (hf : f < 2 ^ n) :
    s.getBits 1 = some (b.toNat, s.advance 1) ∧ (s.advance 1).getBits n = some (f, s.advance (1 + n)) ∧
      (s.advance (1 + n)).Ahead bs := by
  have hctrl : b :: (fieldBits n f ++ bs) = fieldBits 1 b.toNat ++ (fieldBits n f ++ bs) := by cases b <;> rfl
  rw [hctrl] at h
  obtain ⟨hbit, hfield⟩ := h.getBits (by cases b <;> decide)
  obtain ⟨hread, hrest⟩ := hfield.getBits hf
  rw [advance_advance] at hread hrest
  exact ⟨hbit, hread, hrest⟩

/-- A `LIT` header with room for its codes (R198). -/
theorem decStep_of_litHeader {s : State} {f : Nat} {bs : List Bool} (hd : s.dstate = .readControl)
    (hroom : s.pixemit + (f + 1) ≤ s.pixelCount) (hf : f < 2 ^ s.bo)
    (h : s.Ahead (true :: (fieldBits s.bo f ++ bs))) :
    s.decStep = { s.advance (1 + s.bo) with cnt := f + 1, dstate := .literal } := by
  obtain ⟨hbit, hread, -⟩ := h.getHeader hf
  have hn : s.pixemit ≠ s.pixelCount := by omega
  have hfits : ¬ s.pixelCount - s.pixemit < f + 1 := by omega
  simp [State.decStep, hd, hn, hbit, hread, litHeader, hfits]

/-- A `REP` header with a base pixel and room for its count (R198). -/
theorem decStep_of_repHeader {s : State} {f : Nat} {bs : List Bool} (hd : s.dstate = .readControl)
    (hbase : s.lastv = true) (hroom : s.pixemit + (f + 1) ≤ s.pixelCount) (hf : f < 2 ^ s.br)
    (h : s.Ahead (false :: (fieldBits s.br f ++ bs))) :
    s.decStep = { s.advance (1 + s.br) with cnt := f + 1, dstate := .repeat } := by
  obtain ⟨hbit, hread, -⟩ := h.getHeader hf
  have hn : s.pixemit ≠ s.pixelCount := by omega
  have hfits : ¬ s.pixelCount - s.pixemit < f + 1 := by omega
  simp [State.decStep, hd, hn, hbit, hread, repHeader, hfits, hbase]

/-! ### Inside a block (R199, R200) -/

/-- The last pixel emitted is the colour of the code `last` (R37). -/
def State.HasBase (s : State) (last : Code) : Prop := s.lastv = true ∧ s.lastpix = s.colourOf last

theorem hasBase_afterGroup (s : State) (g : Code) : (s.afterGroup (s.colourOf g)).countDown.HasBase g :=
  ⟨rfl, (congrFun (afterGroup_colourOf s (s.colourOf g)) g).symm⟩

theorem hasBase_repeatPixel {s : State} {last : Code} (h : s.HasBase last) : (repeatPixel s).HasBase last := by
  obtain ⟨hv, hp⟩ := h
  exact ⟨by simpa [repeatPixel] using hv, by simpa [repeatPixel, State.colourOf] using hp⟩

/-- The groups `gs` of a `LIT` are still to be read, and then the bits `bs` (R199). -/
structure State.LiteralAhead (s : State) (gs : List Code) (bs : List Bool) : Prop where
  dstate : s.dstate = if gs.length = 0 then .readControl else .literal
  cnt : s.cnt = gs.length
  codes : ∀ g ∈ gs, g.toNat < 2 ^ s.depth
  bits : s.Ahead (rawStream s.depth gs ++ bs)
  resolves : s.Resolves gs

theorem literalGroup_of_resolve {s : State} {g : Code} {v : Colour} (hd : s.dstate ≠ .faulted)
    (h : s.resolve g = some v) : literalGroup s (s.advance s.depth) g = (s.afterGroup v).countDown := by
  have hgroup : State.emitGroup s (s.advance s.depth) g = s.afterGroup v := by rw [State.emitGroup, h]; rfl
  simp [literalGroup, hgroup, hd]

/-- One group of a `LIT` (R199). -/
theorem State.LiteralAhead.decStep_cons {s : State} {g : Code} {gs : List Code} {bs : List Bool}
    (h : s.LiteralAhead (g :: gs) bs) : s.decStep = (s.afterGroup (s.colourOf g)).countDown ∧
      (s.afterGroup (s.colourOf g)).countDown.LiteralAhead gs bs := by
  obtain ⟨hd, hcnt, hcodes, hbits, hresolves⟩ := h
  have hd : s.dstate = .literal := hd
  obtain ⟨hg, hgs⟩ := List.forall_mem_cons.1 hcodes
  rw [rawStream_cons, List.append_assoc] at hbits
  obtain ⟨hread, hahead⟩ := hbits.getBits hg
  obtain ⟨hcolour, hrest⟩ := hresolves.of_cons
  constructor
  · rw [← literalGroup_of_resolve (by simp [hd]) hcolour]
    simp [State.decStep, hd, hread]
  · refine ⟨by simp [hd, hcnt], by simp [hcnt], by simpa using hgs, ?_, hrest.afterGroup _⟩
    rw [State.countDown_depth, afterGroup_depth]
    exact hahead.congr (by simp) (by simp) (by simp)

/-- The groups of a `LIT` one after another (R199). -/
theorem State.LiteralAhead.runsTo {gs : List Code} {bs : List Bool} : ∀ {s : State} {last : Code},
    s.LiteralAhead gs bs → s.outcnt < s.cfg.batch → (gs = [] → s.HasBase last) →
    ∃ t, s.RunsTo t (gs.map s.colourOf) ∧ t.LiteralAhead [] bs ∧ t.HasBase (gs.getLastD last) ∧
      t.cur = s.cur + gs.length * s.depth := by
  induction gs with
  | nil => exact fun h ho hbase => ⟨_, .refl ho, h, hbase rfl, by simp⟩
  | cons g gs ih =>
    intro s last h ho _
    obtain ⟨hstep, hrest⟩ := h.decStep_cons
    have hrun := State.RunsTo.of_group ho hstep
    obtain ⟨t, hmore, hdone, hbase, hcur⟩ := ih hrest hrun.outcnt_lt fun _ => hasBase_afterGroup s g
    rw [hrun.colourOf_eq] at hmore
    refine ⟨t, hrun.trans hmore, hdone, by rwa [List.getLastD_cons], ?_⟩
    rw [hcur, hrun.depth_eq, State.countDown_cur, afterGroup_cur, List.length_cons]
    ring

/-- `k` repetitions of a `REP` are still to be emitted (R200). -/
structure State.RepeatAhead (s : State) (last : Code) (k : Nat) : Prop where
  dstate : s.dstate = if k = 0 then .readControl else .repeat
  cnt : s.cnt = k
  base : s.HasBase last

/-- The repetitions of a `REP` one after another; they read no bit (R200). -/
theorem State.RepeatAhead.runsTo {last : Code} {k : Nat} : ∀ {s : State}, s.RepeatAhead last k →
    s.outcnt < s.cfg.batch →
    ∃ t, s.RunsTo t (List.replicate k (s.colourOf last)) ∧ t.RepeatAhead last 0 ∧ t.cur = s.cur := by
  induction k with
  | zero => exact fun h ho => ⟨_, .refl ho, h, rfl⟩
  | succ k ih =>
    intro s h ho
    obtain ⟨hd, hcnt, hbase⟩ := h
    have hd : s.dstate = .repeat := hd
    have hrun := State.RunsTo.of_repeat ho (by simp [State.decStep, hd])
    have hrest : (repeatPixel s).RepeatAhead last k :=
      ⟨by simp [repeatPixel, hd, hcnt], by simp [repeatPixel, hcnt], hasBase_repeatPixel hbase⟩
    obtain ⟨t, hmore, hdone, hcur⟩ := ih hrest hrun.outcnt_lt
    rw [hrun.colourOf_eq] at hmore
    rw [hbase.2] at hrun
    exact ⟨t, hrun.trans hmore, hdone, hcur.trans (by simp [repeatPixel])⟩

/-! ### Between blocks (R197, R198) -/

/-- The grammar of blocks runs, the blocks `is` stand at `CUR`, and they are the pixels still wanted, `last` being the
code before them; every code resolves, and a `REP` in front has its base pixel. -/
structure State.BlocksAhead (s : State) (last : Code) (is : List Instr) : Prop where
  dstate : s.dstate = .readControl
  cnt : s.cnt = 0
  wanted : s.pixemit + (expand last is).length = s.pixelCount
  wf : ∀ i ∈ is, i.wf (.payload (streamMode s.depth s.br s.bo)) = true
  bits : s.Ahead (blockStream (streamMode s.depth s.br s.bo) is)
  resolves : s.Resolves (expand last is)
  base : ∀ r rest, is = .rep r :: rest → s.HasBase last

theorem State.Resolves.of_append {s : State} {xs ys : List Code} (h : s.Resolves (xs ++ ys)) :
    s.Resolves xs ∧ s.Resolves ys := by
  rcases h with h | h
  · exact ⟨.inl h, .inl h⟩
  · obtain ⟨hxs, hys⟩ := List.forall_mem_append.1 h
    exact ⟨.inr hxs, .inr hys⟩

/-- After a run that emitted the codes of the first block the other blocks are ahead. -/
theorem State.BlocksAhead.tail {s t : State} {last last' : Code} {i : Instr} {is : List Instr} {codes : List Code}
    (h : s.BlocksAhead last (i :: is)) (hexpand : expand last (i :: is) = codes ++ expand last' is)
    (hrun : s.RunsTo t (codes.map s.colourOf)) (hd : t.dstate = .readControl) (hcnt : t.cnt = 0)
    (hbase : t.HasBase last') (hbits : t.Ahead (blockStream (streamMode s.depth s.br s.bo) is)) :
    t.BlocksAhead last' is where
  dstate := hd
  cnt := hcnt
  wanted := by
    have hwanted := h.wanted
    rw [hexpand, List.length_append] at hwanted
    rw [hrun.emitted.pixemit, List.length_map, hrun.pixelCount_eq]
    omega
  wf := by
    rw [hrun.depth_eq, hrun.br_eq, hrun.bo_eq]
    exact (List.forall_mem_cons.1 h.wf).2
  bits := by rwa [hrun.depth_eq, hrun.br_eq, hrun.bo_eq]
  resolves := (hrun.resolves_iff _).2 (hexpand ▸ h.resolves).of_append.2
  base _ _ _ := hbase

/-- A whole `LIT` (R198, R199). -/
theorem State.BlocksAhead.run_lit {s : State} {last : Code} {gs : List Code} {is : List Instr}
    (h : s.BlocksAhead last (.lit gs :: is)) (ho : s.outcnt < s.cfg.batch) :
    ∃ t, s.RunsTo t (gs.map s.colourOf) ∧ t.BlocksAhead (gs.getLastD last) is ∧
      t.cur = s.cur + (encodeBlock (streamMode s.depth s.br s.bo) (.lit gs)).length := by
  obtain ⟨-, -, -, h1, h2, hcodes⟩ := wf_lit_iff.1 (List.forall_mem_cons.1 h.wf).1
  have hfield : gs.length - 1 < 2 ^ s.bo := lt_of_lt_of_le (by omega) h2
  have hwanted := h.wanted
  have hresolves := h.resolves
  rw [expand] at hwanted hresolves
  rw [List.length_append] at hwanted
  have hbits := h.bits
  rw [blockStream_cons, encodeBlock_lit, List.cons_append, List.append_assoc] at hbits
  obtain ⟨-, -, hahead⟩ := hbits.getHeader hfield
  have hhead := State.RunsTo.of_header ho (decStep_of_litHeader h.dstate (by omega) hfield hbits)
  have hlit : ({ s.advance (1 + s.bo) with cnt := gs.length - 1 + 1, dstate := .literal } : State).LiteralAhead gs
      (blockStream (streamMode s.depth s.br s.bo) is) :=
    ⟨by rw [if_neg (by omega)], Nat.sub_add_cancel h1, hcodes, hahead,
      hresolves.of_append.1⟩
  obtain ⟨t, hmore, hdone, hbase, hcur⟩ := hlit.runsTo (last := last) hhead.outcnt_lt
    fun hnil => absurd h1 (by simp [hnil])
  have hrun := hhead.trans hmore
  refine ⟨t, hrun, h.tail rfl hrun hdone.dstate hdone.cnt hbase (by simpa using hdone.bits), ?_⟩
  rw [hcur, encodeBlock_lit_length]
  show s.cur + (1 + s.bo) + gs.length * s.depth = s.cur + (s.bo + 1 + gs.length * s.depth)
  omega

/-- A whole `REP` (R198, R200). -/
theorem State.BlocksAhead.run_rep {s : State} {last : Code} {r : BitVec 7} {is : List Instr}
    (h : s.BlocksAhead last (.rep r :: is)) (ho : s.outcnt < s.cfg.batch) :
    ∃ t, s.RunsTo t ((List.replicate (r.toNat + 1) last).map s.colourOf) ∧ t.BlocksAhead last is ∧
      t.cur = s.cur + (encodeBlock (streamMode s.depth s.br s.bo) (.rep r)).length := by
  obtain ⟨-, -, -, hfield⟩ := wf_rep_iff.1 (List.forall_mem_cons.1 h.wf).1
  have hbase := h.base r is rfl
  have hwanted := h.wanted
  rw [expand, List.length_append, List.length_replicate] at hwanted
  have hbits := h.bits
  rw [blockStream_cons, encodeBlock, List.cons_append] at hbits
  obtain ⟨-, -, hahead⟩ := hbits.getHeader hfield
  have hhead := State.RunsTo.of_header ho (decStep_of_repHeader h.dstate hbase.1 (by omega) hfield hbits)
  have hrep : ({ s.advance (1 + s.br) with cnt := r.toNat + 1, dstate := .repeat } : State).RepeatAhead last
      (r.toNat + 1) := ⟨rfl, rfl, hbase⟩
  obtain ⟨t, hmore, hdone, hcur⟩ := hrep.runsTo hhead.outcnt_lt
  have hrun := hhead.trans hmore
  rw [hhead.colourOf_eq, List.nil_append, ← List.map_replicate] at hrun
  have hrest := hahead.congr (t := t) hcur (by rw [hrun.frame]; rfl) (by rw [hrun.frame]; rfl)
  refine ⟨t, hrun, h.tail rfl hrun hdone.dstate hdone.cnt hdone.base hrest, ?_⟩
  rw [hcur, encodeBlock_rep_length, Nat.add_comm (Mode.br _)]
  rfl

/-- Any block: it emits the colours of its codes, and the others are ahead. -/
theorem State.BlocksAhead.run_block {s : State} {last : Code} {i : Instr} {is : List Instr}
    (h : s.BlocksAhead last (i :: is)) (ho : s.outcnt < s.cfg.batch) :
    ∃ t codes last', expand last (i :: is) = codes ++ expand last' is ∧ s.RunsTo t (codes.map s.colourOf) ∧
      t.BlocksAhead last' is ∧ t.cur = s.cur + (encodeBlock (streamMode s.depth s.br s.bo) i).length := by
  cases i with
  | lit gs =>
    obtain ⟨t, hrun⟩ := h.run_lit ho
    exact ⟨t, gs, _, rfl, hrun⟩
  | rep r =>
    obtain ⟨t, hrun⟩ := h.run_rep ho
    exact ⟨t, _, _, rfl, hrun⟩
  | raw | pad | opt | enc | asm | ldhdr | dec | reserved0 | reserved67 =>
    have hwf := (List.forall_mem_cons.1 h.wf).1
    simp [Instr.wf, streamMode] at hwf

/-- All the blocks one after another. -/
theorem State.BlocksAhead.runsTo {is : List Instr} : ∀ {s : State} {last : Code}, s.BlocksAhead last is →
    s.outcnt < s.cfg.batch →
    ∃ t last', s.RunsTo t ((expand last is).map s.colourOf) ∧ t.BlocksAhead last' [] ∧
      t.cur = s.cur + (blockStream (streamMode s.depth s.br s.bo) is).length := by
  induction is with
  | nil => exact fun h ho => ⟨_, _, .refl ho, h, rfl⟩
  | cons i is ih =>
    intro s last h ho
    obtain ⟨t, codes, last', hexpand, hrun, hrest, hcur⟩ := h.run_block ho
    obtain ⟨u, last'', hmore, hdone, hcur'⟩ := ih hrest hrun.outcnt_lt
    rw [hrun.colourOf_eq] at hmore
    refine ⟨u, last'', ?_, hdone, ?_⟩
    · rw [hexpand, List.map_append]
      exact hrun.trans hmore
    · rw [hcur', hcur, hrun.depth_eq, hrun.br_eq, hrun.bo_eq, blockStream_cons, List.length_append, Nat.add_assoc]

/-- With no block left the next step is the last (R202). -/
theorem State.BlocksAhead.decStep_nil {s : State} {last : Code} (h : s.BlocksAhead last []) :
    s.decStep = s.finish := by
  have hn : s.pixemit = s.pixelCount := h.wanted
  simp [State.decStep, h.dstate, hn]

/-! ### The whole `DEC` (R196, R205) -/

/-- `DEC` whose start finds the blocks of all the pixels ahead runs them and takes its last step. -/
theorem exec_dec_of_blocksAhead {s : State} {last : Code} {is : List Instr} (hd : s.dstate.active = false)
    (hok : s.depthOk = true) (hcap : exceeds s.paylen s.cfg.payloadCap = false)
    (h : s.beginCommand.decStart.BlocksAhead last is) :
    ∃ t, exec .dec s = .next t.finish ∧
      s.beginCommand.decStart.RunsTo t ((expand last is).map s.colourOf) ∧ t.cnt = 0 ∧
      t.cur = (blockStream (streamMode s.depth s.br s.bo) is).length := by
  obtain ⟨t, last', hrun, hdone, hcur⟩ := h.runsTo s.cfg.legal.1
  obtain ⟨n, hn⟩ := hrun.steps
  have hfinish : State.decStep^[n + 1] s.beginCommand.decStart = t.finish := by
    rw [Function.iterate_succ_apply', hn, hdone.decStep_nil]
  have hbody : decBody s.beginCommand = t.finish := by
    have hends := (decBody_ends (s := s.beginCommand) rfl rfl).1
    rw [decBody, if_neg (by simp [hok]), if_neg (by simp [hcap])] at hends ⊢
    rw [← hfinish]
    exact runSteps_eq_of_inactive hends (by rw [hfinish, finish_dstate]; rfl)
  exact ⟨t, by rw [exec_eq_issue rfl, issue_of_idle hd, commandBody, hbody], hrun, hdone.cnt,
    hcur.trans (Nat.zero_add _)⟩

/-! ### The payload `ENC` wrote (R155, R206) -/

/-- No `DEC` runs, and the header registers are those of an image of the codes, every one of which resolves (R238). -/
structure State.ReadyFor (s : State) (codes : List Code) : Prop where
  idle : s.dstate.active = false
  depthOk : s.depthOk = true
  fits : exceeds s.paylen s.cfg.payloadCap = false
  length : codes.length = s.pixelCount
  inRange : ∀ c ∈ codes, c.toNat < 2 ^ s.depth
  resolves : s.Resolves codes

/-- `DEC` completes and delivers the colours of the codes in batches (R205, R206). -/
def State.Delivers (s : State) (codes : List Code) : Prop :=
  ∃ u, exec .dec s = .next u ∧ u.status = 0x01 ∧ u.dstate = .terminal ∧
    u.sink = s.sink ++ batches s.cfg.batch (codes.map s.colourOf)

theorem blocks_ne_rep_cons (br bo : Nat) (codes : List Code) (r : BitVec 7) (rest : List Instr) :
    blocks br bo codes ≠ .rep r :: rest := by
  intro hrep
  have hne : codes ≠ [] := by
    rintro rfl
    cases hrep
  obtain ⟨gs, is, hlit⟩ := blocks_head br bo hne
  cases hlit.symm.trans hrep

/-- Of a payload that begins with the blocks of a sequence. -/
theorem State.ReadyFor.delivers_of_blocks {s : State} {codes : List Code} {rest : List Bool} (h : s.ReadyFor codes)
    (hcomp : s.comp = true) (hbits : s.bitsFrom 0 (8 * s.paylen) =
      blockStream (streamMode s.depth s.br s.bo) (blocks s.br s.bo codes) ++ rest) : s.Delivers codes := by
  obtain ⟨hd1, hd16⟩ := depthOk_iff.1 h.depthOk
  have hexpand : expand 0 (blocks s.br s.bo codes) = codes := expand_blocks (br_lt s) s.bo codes 0
  have hahead : s.beginCommand.decStart.BlocksAhead 0 (blocks s.br s.bo codes) :=
    { dstate := by rw [State.decStart_dstate, State.beginCommand_comp, if_pos hcomp]
      cnt := rfl
      wanted := by rw [hexpand]; exact (Nat.zero_add _).trans h.length
      wf := fun _ => blocks_wf hd1 hd16 (br_lt s) (bo_lt s) h.inRange
      bits := ahead_of_bitsFrom_zero rfl hbits
      resolves := by rw [hexpand]; exact h.resolves
      base := fun r rest hrep => absurd hrep (blocks_ne_rep_cons s.br s.bo codes r rest) }
  obtain ⟨t, hexec, hrun, -⟩ := exec_dec_of_blocksAhead h.idle h.depthOk h.fits hahead
  rw [hexpand] at hrun
  exact ⟨t.finish, hexec, finish_status (by rw [hrun.frame]; rfl), finish_dstate t, hrun.emitted.finish_sink rfl⟩

/-- Of a payload that begins with the raw packing of a sequence. -/
theorem State.ReadyFor.delivers_of_raw {s : State} {codes : List Code} {rest : List Bool} (h : s.ReadyFor codes)
    (hcomp : s.comp = false) (hbits : s.bitsFrom 0 (8 * s.paylen) = rawStream s.depth codes ++ rest) :
    s.Delivers codes := by
  obtain ⟨u, hexec, hstatus, -, hd, -, -, -, hsink⟩ :=
    decExecutesRawGroups s codes rest h.idle h.depthOk h.fits hcomp h.length h.inRange hbits h.resolves
  exact ⟨u, hexec, hstatus, hd, hsink⟩

/-- Of the payload that `ENC` forms from a sequence, with `COMP` as it sets it: a pad follows either stream (R148,
R149). -/
theorem State.ReadyFor.delivers_of_payloadBits {s : State} {codes : List Code} (h : s.ReadyFor codes)
    (hcomp : s.comp =
      decide ((candidate s.depth s.br s.bo codes).length / 8 ≤ (codes.length * s.depth + 15) / 16 * 2))
    (hbits : s.bitsFrom 0 (8 * s.paylen) = payloadBits s.depth s.br s.bo codes) : s.Delivers codes := by
  unfold payloadBits at hbits
  split at hbits
  · rename_i hkeep
    exact h.delivers_of_blocks (hcomp.trans (decide_eq_true hkeep)) hbits
  · rename_i hdrop
    exact h.delivers_of_raw (hcomp.trans (decide_eq_false hdrop)) hbits

/-- Settles O53: `ENC` changes no header field but `FLAGS.COMP`, which says which of the two streams it wrote. -/
theorem decodeInvertsEncode : Obligations.DecodeInvertsEncode := by
  intro s t henc hdone hresolves
  obtain ⟨hd, hlegal, hfits⟩ := exec_enc_done henc hdone
  obtain ⟨t', hexec, ht, hbits, hlen, hbr, hbo, hcomp, -⟩ := encWritesTheStream s hd hlegal hfits
  obtain rfl : t = t' := Host.Outcome.next.inj (henc.symm.trans hexec)
  obtain ⟨hok, -, hcodes⟩ := hlegal
  have hready : t.ReadyFor s.pixels := by
    rw [ht]
    exact ⟨hd, hok, hfits, pixels_length s, hcodes, hresolves⟩
  have hdepth : t.depth = s.depth := by rw [ht]; rfl
  have hdelivers : t.Delivers s.pixels := by
    refine hready.delivers_of_payloadBits ?_ ?_
    · rw [hcomp, hdepth, hbr, hbo, pixels_length]
    · rw [hlen, hbits, hdepth, hbr, hbo]
  have hsink : t.sink = s.sink := by rw [ht]
  have hcfg : t.cfg = s.cfg := by rw [ht]
  have hcolour : t.colourOf = s.colourOf := by rw [ht]; rfl
  rwa [State.Delivers, hsink, hcfg, hcolour] at hdelivers

end Sys2Proof.Machine

/-!
# The faults of `ASM`, and `LDHDR` of the file it wrote (42_assembler.md R172, R175, R177)

The fault that `ASM` finds in its input as one function, so that it raises or writes the file; then machines whose
`FILE` holds the bytes assembled from another state, and what `LDHDR` takes from them.
-/

namespace Sys2Proof.Machine

/-! ### The checks of `ASM` (R172, R264) -/

/-- The fault that `ASM` finds in its input, if any: the depth, the palette's size and offset, the two capacities. -/
def State.asmFault (s : State) : Option (ErrKind × Nat) :=
  if !s.depthOk then some (.badConfig, 1)
  else if s.depth ≠ 16 ∧ 2 ^ s.depth < s.palcount.toNat then some (.badConfig, 2)
  else if s.depth ≠ 16 ∧ 65535 < 20 + 2 * s.palcount.toNat then some (.badConfig, 3)
  else if exceeds s.paylen s.cfg.payloadCap then some (.capacityExceeded, 2)
  else if exceeds (s.asmOffset + s.paylen) s.cfg.fileCap then some (.capacityExceeded, 3)
  else none

theorem asmBody_eq (s : State) :
    asmBody s = (s.asmFault.map fun f => s.raise f.1 f.2).getD (s.withFile s.fileBytes).complete := by
  unfold asmBody State.asmFault
  split_ifs <;> rfl

theorem paletteLegal_iff (s : State) : s.PaletteLegal ↔
    ¬ (s.depth ≠ 16 ∧ 2 ^ s.depth < s.palcount.toNat) ∧ ¬ (s.depth ≠ 16 ∧ 65535 < 20 + 2 * s.palcount.toNat) := by
  unfold State.PaletteLegal
  generalize 2 ^ s.depth = entries
  omega

/-- With a legal depth and palette only the capacities are left to check (R172, R264). -/
theorem asmFault_of_paletteLegal {s : State} (hok : s.depthOk = true) (hpal : s.PaletteLegal) : s.asmFault =
    if exceeds s.paylen s.cfg.payloadCap then some (.capacityExceeded, 2)
    else if exceeds (s.asmOffset + s.paylen) s.cfg.fileCap then some (.capacityExceeded, 3) else none := by
  obtain ⟨hsize, hoff⟩ := (paletteLegal_iff s).1 hpal
  rw [State.asmFault, if_neg (by simp [hok]), if_neg hsize, if_neg hoff]

/-- `ASM` raises the fault found in its input, and changes nothing else (R172, R256). -/
theorem exec_asm_of_fault {s : State} (hd : s.dstate.active = false) {k : ErrKind} {info : Nat}
    (h : s.asmFault = some (k, info)) :
    exec .asm s = .next { s with status := faultStatus k, errinfo := info } := by
  have hfault : s.beginCommand.asmFault = some (k, info) := h
  rw [exec_eq_issue rfl, issue_of_idle hd, commandBody, asmBody_eq, hfault]
  rfl

/-- Settles O32: each clause makes its check the first that fails. -/
theorem asmFaults : Obligations.AsmFaults := by
  intro s hd hok np
  refine ⟨fun h16 hsize => ?_, fun h16 hsize hoff => ?_, fun hpal hpay => ?_, fun hpal hpay hfile => ?_⟩
  · exact exec_asm_of_fault hd (k := .badConfig) (by simp [State.asmFault, hok, h16, hsize])
  · exact exec_asm_of_fault hd (k := .badConfig) (by
      rw [State.asmFault, if_neg (by simp [hok]), if_neg (by omega), if_pos ⟨h16, hoff⟩])
  · exact exec_asm_of_fault hd (k := .capacityExceeded) (by rw [asmFault_of_paletteLegal hok hpal, if_pos hpay])
  · exact exec_asm_of_fault hd (k := .capacityExceeded) (by
      rw [asmFault_of_paletteLegal hok hpal, if_neg (by simp [hpay])]
      exact if_pos hfile)

theorem legal_of_asmFault_none {s : State} (h : s.asmFault = none) : s.depthOk = true ∧ s.PaletteLegal := by
  unfold State.asmFault at h
  split_ifs at h with hok hsize hoff
  exact ⟨by simpa using hok, (paletteLegal_iff s).2 ⟨hsize, hoff⟩⟩

/-! ### A machine that holds the file assembled from another one's state (R90 to R93, R177) -/

/-- The file of `u` is the one `ASM` writes from `s`, part by part (R90 to R93). -/
structure State.HoldsFile (u s : State) : Prop where
  filelen : u.filelen = s.asmOffset + s.paylen
  header : u.file.readList 0 20 = s.headerBytes
  palette : ∀ i, i < s.asmEntries → u.file.readList (20 + 2 * i) 2 = be16 (s.pal.read i)
  payload : ∀ i, i < s.paylen → u.file.read (s.asmOffset + i) = s.payload.read i

theorem holdsFile_of_asm (s : State) : (s.beginCommand.withFile s.fileBytes).complete.HoldsFile s := by
  have hheader := withFile_header s
  have hpalette := fun i => withFile_palette s (i := i)
  have hpayload := fun i => withFile_payload s (i := i)
  -- from here on only what the bytes read back as matters
  generalize s.fileBytes = bytes at hheader hpalette hpayload ⊢
  exact ⟨rfl, hheader, hpalette, hpayload⟩

/-- `ASM` that ends with `DONE` found its input legal, and its file is assembled from what it read (R170, R172). -/
theorem exec_asm_done {s t : State} (h : exec .asm s = .next t) (hdone : t.statusDone = true) :
    s.depthOk = true ∧ s.PaletteLegal ∧ t.paylen = s.paylen ∧ t.HoldsFile s := by
  obtain ⟨-, ht⟩ := issue_eq_next.1 h
  rw [asmBody_eq] at ht
  rcases hfault : s.beginCommand.asmFault with _ | ⟨k, info⟩
  · obtain ⟨hok, hpal⟩ := legal_of_asmFault_none hfault
    rw [hfault, Option.map_none, Option.getD_none, beginCommand_fileBytes] at ht
    exact ⟨hok, hpal, by rw [ht]; rfl, by rw [ht]; exact holdsFile_of_asm s⟩
  · rw [hfault, Option.map_some, Option.getD_some] at ht
    rw [ht, statusDone_raise] at hdone
    cases hdone

/-- Only the bytes below `FILELEN` count (R93). -/
theorem State.HoldsFile.of_reads {s t u : State} (h : t.HoldsFile s) (hlen : u.filelen = t.filelen)
    (hread : ∀ a, a < t.filelen → u.file.read a = t.file.read a) : u.HoldsFile s := by
  obtain ⟨htlen, hheader, hpalette, hpayload⟩ := h
  have hoff : s.asmOffset = 20 + 2 * s.asmEntries := rfl
  refine ⟨hlen.trans htlen, ?_, fun i hi => ?_, fun i hi => ?_⟩
  · exact (Mem.readList_congr fun a ha => hread _ (by omega)).trans hheader
  · exact (Mem.readList_congr fun a ha => hread _ (by omega)).trans (hpalette i hi)
  · exact (hread _ (by omega)).trans (hpayload i hi)

theorem State.HoldsFile.read_header {u s : State} (h : u.HoldsFile s) {k : Nat} (hk : k < 20) :
    u.file.read k = s.headerBytes[k]'hk := by
  have hbyte := List.getElem_of_eq h.header (i := k) (by simpa using hk)
  rwa [Mem.readList_getElem, Nat.zero_add] at hbyte

/-- `UBE16` inverts `BE16` (R60). -/
theorem ube16_be16 (v : BitVec 16) : ube16 (BitVec.ofNat 8 (v.toNat / 256)) (BitVec.ofNat 8 v.toNat) = v := by
  apply BitVec.eq_of_toNat_eq
  rw [ube16_toNat, BitVec.toNat_ofNat, BitVec.toNat_ofNat]
  omega

section
variable {u s : State} (h : u.HoldsFile s)
include h

theorem State.HoldsFile.magic_bytes : u.file.readList 0 10 = magic := by
  calc u.file.readList 0 10 = (u.file.readList 0 20).take 10 := by
        rw [Mem.readList_add u.file 0 10 10, List.take_left' (Mem.readList_length ..)]
    _ = s.headerBytes.take 10 := by rw [h.header]
    _ = magic := rfl

/-- Two header bytes that are the `BE16` of a field read back as the field (R60, R90). -/
theorem State.HoldsFile.read_field {k : Nat} (hk : k + 1 < 20) {v : BitVec 16}
    (hhigh : s.headerBytes[k]'(Nat.lt_of_succ_lt hk) = BitVec.ofNat 8 (v.toNat / 256))
    (hlow : s.headerBytes[k + 1]'hk = BitVec.ofNat 8 v.toNat) :
    ube16 (u.file.read k) (u.file.read (k + 1)) = v := by
  rw [h.read_header (Nat.lt_of_succ_lt hk), h.read_header hk, hhigh, hlow, ube16_be16]

theorem State.HoldsFile.read_width : ube16 (u.file.read 10) (u.file.read 11) = s.width :=
  h.read_field (by decide) rfl rfl

theorem State.HoldsFile.read_height : ube16 (u.file.read 12) (u.file.read 13) = s.height :=
  h.read_field (by decide) rfl rfl

theorem State.HoldsFile.read_bitdepth : u.file.read 14 = s.bitdepth := h.read_header (by decide)

theorem State.HoldsFile.read_flags : u.file.read 17 = s.readFlags := h.read_header (by decide)

theorem State.HoldsFile.fileOffset_eq (hpal : s.PaletteLegal) : u.fileOffset = s.asmOffset := by
  have hfield : ube16 (u.file.read 18) (u.file.read 19) = BitVec.ofNat 16 s.asmOffset :=
    h.read_field (by decide) rfl rfl
  rw [State.fileOffset, hfield, BitVec.toNat_ofNat, Nat.mod_eq_of_lt (asmOffset_lt hpal)]

/-- The file `ASM` wrote passes the checks of `LDHDR` on every machine it fits (R175, R177). -/
theorem State.HoldsFile.fileLegal (hok : s.depthOk = true) (hpal : s.PaletteLegal)
    (hfile : exceeds u.filelen u.cfg.fileCap = false) (hpay : exceeds s.paylen u.cfg.payloadCap = false) :
    u.FileLegal := by
  have hlen := h.filelen
  have hpo := h.fileOffset_eq hpal
  have hoff : s.asmOffset = 20 + 2 * s.asmEntries := rfl
  exact
    { filelen_fits := hfile
      header := by omega
      magic_bytes := h.magic_bytes
      depth := by rw [h.read_bitdepth]; exact depthOk_iff.1 hok
      offset := by omega
      even := by omega
      payload_fits := by rwa [hpo, hlen, Nat.add_sub_cancel_left] }

/-! What `LDHDR` then takes from it (R175, R177). -/

theorem State.HoldsFile.loads_flags : u.withHeader.flags = s.readFlags := by
  show u.file.read 17 &&& 0x7F = s.readFlags
  rw [h.read_flags, State.readFlags, BitVec.and_assoc, BitVec.and_self]

theorem State.HoldsFile.loads_paylen (hpal : s.PaletteLegal) : u.withHeader.paylen = s.paylen := by
  show u.filelen - u.fileOffset = s.paylen
  rw [h.filelen, h.fileOffset_eq hpal, Nat.add_sub_cancel_left]

theorem State.HoldsFile.loads_payload (hpal : s.PaletteLegal) {i : Nat} (hi : i < s.paylen) :
    u.withHeader.payload.read i = s.payload.read i := by
  have hpaylen : u.filelen - u.fileOffset = s.paylen := h.loads_paylen hpal
  rw [withHeader_payload u (hpaylen.symm ▸ hi), h.fileOffset_eq hpal, h.payload i hi]

theorem State.HoldsFile.entries_eq (hpal : s.PaletteLegal) : (u.fileOffset - 20) / 2 = s.asmEntries := by
  rw [h.fileOffset_eq hpal, State.asmOffset]
  omega

theorem State.HoldsFile.loads_palcount (hpal : s.PaletteLegal) :
    u.withHeader.palcount = BitVec.ofNat 16 s.asmEntries := by
  show BitVec.ofNat 16 ((u.fileOffset - 20) / 2) = _
  rw [h.entries_eq hpal]

theorem State.HoldsFile.loads_palette (hpal : s.PaletteLegal) {i : Nat} (hi : i < s.asmEntries) :
    u.withHeader.pal.read i = s.pal.read i := by
  obtain ⟨hhigh, hlow⟩ := List.cons_eq_cons.1 (h.palette i hi)
  rw [withHeader_palette u ((h.entries_eq hpal).symm ▸ hi), ← ube16_be16 (s.pal.read i)]
  exact congrArg₂ ube16 hhigh (by simpa [Nat.add_right_comm] using hlow)

end

/-- A command that completes sets `DONE` (R230 (3)). -/
theorem statusDone_complete (s : State) : s.complete.statusDone = true := by
  simp [State.statusDone, State.complete]

/-- Settles O35: what `LDHDR` loads is what each part of the assembled file says, on any machine that holds it. -/
theorem ldhdrInvertsAsm : Obligations.LdhdrInvertsAsm := by
  intro s t u hasm hdone hd hfile hpay hlen hread
  obtain ⟨hok, hpal, hpaylen, hasmFile⟩ := exec_asm_done hasm hdone
  have hholds : u.beginCommand.HoldsFile s := hasmFile.of_reads hlen hread
  have hlegal : u.beginCommand.FileLegal := hholds.fileLegal hok hpal (hlen ▸ hfile) (hpaylen ▸ hpay)
  have hexec : exec .ldhdr u = .next u.beginCommand.withHeader.complete := by
    rw [exec_eq_issue rfl, issue_of_idle hd, commandBody, ldhdrBody_of_legal hlegal]
  refine ⟨_, hexec, statusDone_complete _, hholds.read_width, hholds.read_height, hholds.read_bitdepth,
    hholds.loads_flags, hholds.loads_paylen hpal, fun _ => hholds.loads_payload hpal, fun hdepth => ?_, fun hdepth => ?_⟩
  · have hentries : s.asmEntries = s.palcount.toNat := if_neg (Nat.ne_of_lt hdepth)
    refine ⟨(hholds.loads_palcount hpal).trans ?_, fun i hi => hholds.loads_palette hpal (hentries.symm ▸ hi)⟩
    rw [hentries, BitVec.ofNat_toNat, BitVec.setWidth_eq]
  · have hentries : s.asmEntries = 0 := if_pos hdepth
    exact (hholds.loads_palcount hpal).trans (congrArg _ hentries)

end Sys2Proof.Machine

/-!
# The block instructions (43_decoder.md R194 to R202)

Emitting a list of colours as one function, and a block's steps as that function with the decoder's registers moved;
then what each block instruction answers.
-/

namespace Sys2Proof.Machine

/-! ### Emitting a list of colours (R194, R195) -/

/-- `Emit` of each colour in order. -/
def State.emitAll (s : State) (vs : List Colour) : State := vs.foldl State.emit s

@[simp] theorem State.emitAll_nil (s : State) : s.emitAll [] = s := rfl

@[simp] theorem State.emitAll_cons (s : State) (v : Colour) (vs : List Colour) :
    s.emitAll (v :: vs) = (s.emit v).emitAll vs := rfl

theorem emitAll_frame (vs : List Colour) : ∀ s : State, s.emitAll vs = { s with
    pixemit := (s.emitAll vs).pixemit, outcnt := (s.emitAll vs).outcnt, outbuf := (s.emitAll vs).outbuf,
    sink := (s.emitAll vs).sink } := by
  induction vs with
  | nil => exact fun _ => rfl
  | cons v vs ih =>
    intro s
    rw [State.emitAll_cons]
    refine (ih (s.emit v)).trans ?_
    rw [State.emit_eq]

theorem emitted_emitAll (vs : List Colour) : ∀ {s : State}, s.outcnt < s.cfg.batch →
    s.Emitted (s.emitAll vs) vs := by
  induction vs with
  | nil => exact fun h => .refl h
  | cons v vs ih =>
    intro s h
    exact (emitted_emit h v).trans (ih (by simpa using outcnt_emit_lt h v)) (State.emit_cfg s v)

/-- `s` with the registers of the decoder that `Emit` neither reads nor writes. -/
def State.withDecoder (s : State) (cur cnt : Nat) (d : DState) (lastpix : Colour) (lastv : Bool) : State :=
  { s with cur := cur, cnt := cnt, dstate := d, lastpix := lastpix, lastv := lastv }

section

variable (s : State) (cur cnt : Nat) (d : DState) (lastpix : Colour) (lastv : Bool)

theorem emit_withDecoder (v : Colour) : (s.withDecoder cur cnt d lastpix lastv).emit v =
    (s.emit v).withDecoder cur cnt d lastpix lastv := by
  rw [State.emit_eq, State.emit_eq]
  rfl

/-- Moving those registers is nothing that `Emitted` looks at. -/
theorem emitted_emitAll_withDecoder {s : State} (h : s.outcnt < s.cfg.batch) (vs : List Colour) :
    s.Emitted ((s.emitAll vs).withDecoder cur cnt d lastpix lastv) vs :=
  (emitted_emitAll vs h).congr rfl rfl rfl rfl

theorem emitAll_withDecoder_frame (vs : List Colour) : (s.emitAll vs).withDecoder cur cnt d lastpix lastv =
    { s with
      cur := cur, cnt := cnt, dstate := d, lastpix := lastpix, lastv := lastv, pixemit := (s.emitAll vs).pixemit,
      outcnt := (s.emitAll vs).outcnt, outbuf := (s.emitAll vs).outbuf, sink := (s.emitAll vs).sink } := by
  rw [State.withDecoder, emitAll_frame vs s]

theorem emitAll_withDecoder_resolve (vs : List Colour) :
    ((s.emitAll vs).withDecoder cur cnt d lastpix lastv).resolve = s.resolve := by
  rw [emitAll_withDecoder_frame]
  rfl

end

/-! ### The steps inside a block (R199, R200) -/

/-- The decoder's state inside a block with `k` pixels still to emit: `d`, or back between blocks. -/
def DState.inside (d : DState) (k : Nat) : DState := if k = 0 then .readControl else d

theorem inside_of_pos {d : DState} {k : Nat} (h : 1 ≤ k) : d.inside k = d := if_neg (by omega)

theorem repeatPixel_withDecoder (s : State) (cur k : Nat) (lastpix : Colour) (lastv : Bool) :
    repeatPixel (s.withDecoder cur (k + 1) .repeat lastpix lastv) =
      (s.emit lastpix).withDecoder cur k (DState.inside .repeat k) lastpix lastv := by
  unfold repeatPixel
  rw [emit_withDecoder]
  rfl

/-- The repetitions of a `REP` (R200). -/
theorem runRepeats_withDecoder (k cur : Nat) (lastpix : Colour) (lastv : Bool) : ∀ s : State,
    runRepeats k (s.withDecoder cur k (DState.inside .repeat k) lastpix lastv) =
      (s.emitAll (List.replicate k lastpix)).withDecoder cur 0 .readControl lastpix lastv := by
  induction k with
  | zero => exact fun _ => rfl
  | succ k ih =>
    intro s
    have hstep := repeatPixel_withDecoder s cur k lastpix lastv
    rw [inside_of_pos (Nat.le_add_left 1 k), runRepeats, if_neg (by simp [State.withDecoder]), hstep, ih,
      List.replicate_succ, State.emitAll_cons]

theorem emit_colourOf (s : State) (v : Colour) : (s.emit v).colourOf = s.colourOf := by rw [State.emit_eq]; rfl

theorem State.Resolves.emit {s : State} {gs : List Code} (h : s.Resolves gs) (v : Colour) : (s.emit v).Resolves gs := by
  rw [State.emit_eq]
  exact h

theorem literalGroup_withDecoder {s : State} {g : Code} (hg : s.resolve g = some (s.colourOf g)) (cur k : Nat)
    (lastpix : Colour) (lastv : Bool) :
    literalGroup (s.withDecoder cur (k + 1) .literal lastpix lastv)
        ((s.withDecoder cur (k + 1) .literal lastpix lastv).advance s.depth) g =
      (s.emit (s.colourOf g)).withDecoder (cur + s.depth) k (DState.inside .literal k) (s.colourOf g) true := by
  refine (literalGroup_of_resolve (s := s.withDecoder cur (k + 1) .literal lastpix lastv) (by simp [State.withDecoder])
    hg).trans ?_
  simp only [State.afterGroup, State.emit_eq]
  rfl

/-- The groups of a `LIT` when every one resolves, and `k` more are behind them (R199). -/
theorem runGroups_withDecoder (k : Nat) {gs : List Code} : ∀ {s : State} (cur : Nat) (lastpix : Colour) (lastv : Bool),
    s.Resolves gs →
    runGroups gs (s.withDecoder cur (gs.length + k) (DState.inside .literal (gs.length + k)) lastpix lastv) =
      (s.emitAll (gs.map s.colourOf)).withDecoder (cur + gs.length * s.depth) k (DState.inside .literal k)
        ((gs.map s.colourOf).getLastD lastpix) (lastv || !gs.isEmpty) := by
  induction gs with
  | nil => intro s cur lastpix lastv _; simp [runGroups]
  | cons g gs ih =>
    intro s cur lastpix lastv hres
    obtain ⟨hg, hgs⟩ := hres.of_cons
    have hstep := literalGroup_withDecoder hg cur (gs.length + k) lastpix lastv
    have hcur : cur + s.depth + gs.length * s.depth = cur + (gs.length + 1) * s.depth := by ring
    rw [List.length_cons, Nat.add_right_comm, inside_of_pos (Nat.le_add_left 1 _), runGroups,
      if_neg (by simp [State.withDecoder])]
    refine (congrArg _ hstep).trans ?_
    rw [ih _ _ _ (hgs.emit _), emit_colourOf, State.emit_depth, hcur, List.map_cons, State.emitAll_cons,
      List.getLastD_cons]
    simp

/-- Once a group has faulted the rest of the block is not run (R199, R203). -/
theorem runGroups_append (pre post : List Code) : ∀ s : State,
    runGroups (pre ++ post) s = runGroups post (runGroups pre s) := by
  induction pre with
  | nil => exact fun _ => rfl
  | cons g pre ih =>
    intro s
    by_cases hd : s.dstate = .faulted
    · rw [runGroups_faulted hd, runGroups_faulted hd, runGroups_faulted hd]
    · simp [runGroups, hd, ih]

/-- A group with no palette entry ends the block (R199, R252). -/
theorem runGroups_of_badIndex {s : State} {g : Code} (post : List Code) (hd : s.dstate = .literal)
    (hg : s.resolve g = none) :
    runGroups (g :: post) s = s.raiseDec .paletteIndexOutOfRange g.toNat := by
  have hgroup : literalGroup s (s.advance s.depth) g = s.raiseDec .paletteIndexOutOfRange g.toNat := by
    simp [literalGroup, State.emitGroup, hg]
  have hrun : runGroups (g :: post) s = runGroups post (literalGroup s (s.advance s.depth) g) := by
    simp [runGroups, hd]
  rw [hrun, hgroup, runGroups_faulted rfl]

/-! ### Where a block instruction is run (R197, R201) -/

theorem exec_rep {s : State} {r : BitVec 7} (hd : s.dstate = .readControl ∨ s.dstate = .raw)
    (ho : s.outcnt < s.cfg.batch) (hw : (Instr.rep r).wf (.payload s.mode) = true) :
    exec (.rep r) s = .next (runRepeats (r.toNat + 1) (repHeader s (s.advance (1 + s.br)) r.toNat)) :=
  guarded_of (atBlock_iff.2 ⟨hd, hw⟩) ho _

theorem exec_lit {s : State} {gs : List Code} (hd : s.dstate = .readControl ∨ s.dstate = .raw)
    (ho : s.outcnt < s.cfg.batch) (hw : (Instr.lit gs).wf (.payload s.mode) = true) :
    exec (.lit gs) s = .next (runGroups gs (litHeader s (s.advance (1 + s.bo)) (gs.length - 1))) :=
  guarded_of (atBlock_iff.2 ⟨hd, hw⟩) ho _

theorem exec_raw {s : State} {g : Code} (hd : s.dstate = .readControl ∨ s.dstate = .raw)
    (ho : s.outcnt < s.cfg.batch) (hw : (Instr.raw g).wf (.payload s.mode) = true) :
    exec (.raw g) s = .next (State.emitGroup s (s.advance s.depth) g) :=
  guarded_of (atBlock_iff.2 ⟨hd, hw⟩) ho _

theorem exec_pad {s : State} (hd : s.dstate = .readControl ∨ s.dstate = .raw)
    (ho : s.outcnt < s.cfg.batch) (hw : Instr.pad.wf (.payload s.mode) = true) : exec .pad s = .next s.finish :=
  guarded_of (atBlock_iff.2 ⟨hd, hw⟩) ho _

/-! ### Headers (R198) -/

theorem repHeader_of_overrun {s now : State} {f : Nat} (hbase : s.lastv = true)
    (h : s.pixelCount - s.pixemit < f + 1) : repHeader s now f = s.raiseDec .blockOverrun s.cur := by
  simp [repHeader, hbase, h]

theorem repHeader_of_noBase {s now : State} {f : Nat} (hbase : s.lastv = false) :
    repHeader s now f = s.raiseDec .noBasePixel s.cur := by
  simp [repHeader, hbase]

theorem repHeader_of_room {s : State} {n f : Nat} (hbase : s.lastv = true) (h : f + 1 ≤ s.pixelCount - s.pixemit) :
    repHeader s (s.advance n) f = s.withDecoder (s.cur + n) (f + 1) .repeat s.lastpix s.lastv := by
  rw [repHeader, if_neg (by simp [hbase]), if_neg (by omega)]
  rfl

theorem litHeader_of_overrun {s now : State} {f : Nat} (h : s.pixelCount - s.pixemit < f + 1) :
    litHeader s now f = s.raiseDec .blockOverrun s.cur := by
  simp [litHeader, h]

theorem litHeader_of_room {s : State} {n f : Nat} (h : f + 1 ≤ s.pixelCount - s.pixemit) :
    litHeader s (s.advance n) f = s.withDecoder (s.cur + n) (f + 1) .literal s.lastpix s.lastv := by
  rw [litHeader, if_neg (by omega)]
  rfl

/-! ### `REP` (R198, R200) -/

/-- Settles O37: the header sets `CNT`, and the repetitions are so many `Emit`s. -/
theorem repRepeatsTheLastColour : Obligations.RepRepeatsTheLastColour := by
  intro s r hd ho hw hbase hroom
  refine ⟨_, ?_, emitted_emitAll_withDecoder (s.cur + (1 + s.br)) 0 s.dstate s.lastpix s.lastv ho _,
    emitAll_withDecoder_frame ..⟩
  rw [exec_rep (.inl hd) ho hw, repHeader_of_room hbase hroom, hd]
  exact congrArg _ (runRepeats_withDecoder (r.toNat + 1) _ _ _ s)

/-- Settles O38: each clause makes its check of the header the first that fails. -/
theorem repFaults : Obligations.RepFaults := by
  intro s r hd ho hw
  constructor
  · intro hbase
    rw [exec_rep (.inl hd) ho hw, repHeader_of_noBase hbase, runRepeats_faulted rfl]
    rfl
  · intro hbase hroom
    rw [exec_rep (.inl hd) ho hw, repHeader_of_overrun hbase hroom, runRepeats_faulted rfl]
    rfl

/-! ### `LIT` (R198, R199) -/

/-- A `LIT` whose header has room runs the groups `pre` that resolve, then those behind them (R199). -/
theorem exec_lit_of_room {s : State} {pre post : List Code} (hd : s.dstate = .readControl)
    (ho : s.outcnt < s.cfg.batch) (hw : (Instr.lit (pre ++ post)).wf (.payload s.mode) = true)
    (hroom : (pre ++ post).length ≤ s.pixelCount - s.pixemit) (hpre : s.Resolves pre) :
    exec (.lit (pre ++ post)) s = .next (runGroups post ((s.emitAll (pre.map s.colourOf)).withDecoder
      (s.cur + (1 + s.bo + pre.length * s.depth)) post.length (DState.inside .literal post.length)
      ((pre.map s.colourOf).getLastD s.lastpix) (s.lastv || !pre.isEmpty))) := by
  obtain ⟨-, -, -, h1, -, -⟩ := wf_lit_iff.1 hw
  have hlen : (pre ++ post).length - 1 + 1 = pre.length + post.length := by
    rw [List.length_append] at h1 ⊢
    omega
  have hrun := runGroups_withDecoder post.length (s.cur + (1 + s.bo)) s.lastpix s.lastv hpre
  rw [inside_of_pos (by omega)] at hrun
  rw [exec_lit (.inl hd) ho hw, litHeader_of_room (by omega), runGroups_append, hlen, hrun, Nat.add_assoc]

theorem getLastD_map_colourOf (s : State) {gs : List Code} (h : gs ≠ []) (v : Colour) :
    (gs.map s.colourOf).getLastD v = s.colourOf (gs.getLastD 0) := by
  obtain ⟨g, gs, rfl⟩ := List.exists_cons_of_ne_nil h
  rw [List.map_cons, List.getLastD_cons, List.getLastD_cons]
  simp [List.getLastD_eq_getLast?, List.getLast?_map]

/-- Settles O39: with every group resolving none is left behind. -/
theorem litEmitsItsColours : Obligations.LitEmitsItsColours := by
  intro s gs hd ho hw hroom hres
  obtain ⟨-, -, -, h1, -, -⟩ := wf_lit_iff.1 hw
  have hne : gs ≠ [] := List.ne_nil_of_length_pos h1
  have hexec := exec_lit_of_room (pre := gs) (post := []) hd ho (by rwa [List.append_nil]) (by rwa [List.append_nil])
    hres
  rw [List.append_nil, getLastD_map_colourOf s hne] at hexec
  refine ⟨_, hexec, emitted_emitAll_withDecoder _ _ _ _ _ ho _, (emitAll_withDecoder_frame ..).trans ?_⟩
  simp [DState.inside, runGroups, hd, hne, State.withDecoder]

/-- Settles O40: the header has no room; or the groups before the bad one are emitted, and that one ends the block. -/
theorem litFaults : Obligations.LitFaults := by
  intro s gs hd ho hw
  obtain ⟨-, -, -, h1, -, -⟩ := wf_lit_iff.1 hw
  refine ⟨fun hover => ?_, ?_⟩
  · rw [exec_lit (.inl hd) ho hw, litHeader_of_overrun (by omega), runGroups_faulted rfl]
    rfl
  · rintro hroom pre post g rfl h16 hpre hg
    have hexec := exec_lit_of_room hd ho hw hroom (.inr hpre)
    rw [List.length_cons, inside_of_pos (Nat.le_add_left 1 _)] at hexec
    have hbad : s.resolve g = none := resolve_eq_none.2 ⟨h16, hg⟩
    rw [← emitAll_withDecoder_resolve] at hbad
    rw [hexec, runGroups_of_badIndex post rfl hbad]
    refine ⟨_, rfl, (emitted_emitAll (pre.map s.colourOf) ho).congr rfl rfl rfl rfl, ?_, ?_, ?_⟩
    · rw [emitAll_withDecoder_frame]
      rfl
    · rintro rfl
      exact ⟨rfl, Bool.or_false _⟩
    · intro hne
      exact ⟨getLastD_map_colourOf s hne _, by simp [hne, State.withDecoder]⟩

/-! ### `RAW` and `PAD` (R201, R202) -/

theorem resolves_singleton {s : State} {g : Code} : s.Resolves [g] ↔ s.resolve g = some (s.colourOf g) := by
  simp [State.Resolves, resolve_eq_some]

theorem not_resolves_singleton {s : State} {g : Code} : ¬ s.Resolves [g] ↔ s.resolve g = none := by
  simp [State.Resolves, resolve_eq_none]

/-- Settles O41: the group is resolved, and emitted or reported. -/
theorem rawEmitsItsColour : Obligations.RawEmitsItsColour := by
  intro s g hd ho hw
  refine ⟨fun hres => ⟨s.afterGroup (s.colourOf g), ?_, emitted_afterGroup ho _, ?_⟩, fun hres => ?_⟩
  · rw [exec_raw (.inr hd) ho hw, State.emitGroup, resolves_singleton.1 hres]
    rfl
  · rw [State.afterGroup, State.emit_eq]
    rfl
  · rw [exec_raw (.inr hd) ho hw, State.emitGroup, not_resolves_singleton.1 hres]
    rfl

/-- Settles O42: with pixel `N` complete `PAD` is selected, and it is the last step of the `DEC`. -/
theorem padEndsTheDecode : Obligations.PadEndsTheDecode := by
  intro s hd ho hok hn hstatus
  have hw : Instr.pad.wf (.payload s.mode) = true := wf_pad_iff.2 ⟨Mode.wf_iff.2
    ⟨Nat.le_of_lt_succ (br_lt s), Nat.le_of_lt_succ (bo_lt s), depthOk_iff.1 hok⟩, decide_eq_true hn⟩
  rw [exec_pad hd ho hw, finish_eq, hstatus]
  rfl

end Sys2Proof.Machine

/-!
# Steps of the running decoder (43_decoder.md R197 to R205)

What a faulting step writes; a block and a whole `DEC` as so many steps; and that the machine's own step is always such
a run, so that in a legal state it never stops.
-/

namespace Sys2Proof.Machine

/-! ### Faults (R203, R256, R264) -/

theorem countDown_active {s : State} (ha : s.dstate.active = true) : s.countDown.dstate.active = true := by
  rw [State.countDown_dstate]
  split
  · rfl
  · exact ha

/-- Settles O43: the steps that end in `Faulted` raise and do nothing else. -/
theorem faultingStepIsPrecise : Obligations.FaultingStepIsPrecise := by
  intro s ha hfault
  have hstep := decStep_cases ha
  generalize s.decStep = t at hstep hfault ⊢
  cases hstep with
  | truncated => exact ⟨rfl, .inr ⟨.inl rfl, rfl⟩⟩
  | noBase => exact ⟨rfl, .inr ⟨.inr (.inl rfl), rfl⟩⟩
  | overrun => exact ⟨rfl, .inr ⟨.inr (.inr rfl), rfl⟩⟩
  | badIndex _ _ g hg =>
    obtain ⟨h16, hcount⟩ := resolve_eq_none.1 hg
    exact ⟨rfl, .inl ⟨rfl, h16, hcount⟩⟩
  | finish => simp at hfault
  | litHead | repHead => cases hfault
  | group _ _ v =>
    have hactive := countDown_active (s := s.afterGroup v) (by rwa [afterGroup_dstate])
    rw [hfault] at hactive
    cases hactive
  | repetition =>
    have hactive := countDown_active (s := s.emit s.lastpix) (by rwa [State.emit_dstate])
    rw [← repeatPixel, hfault] at hactive
    cases hactive
  | rawGroup hd =>
    rw [afterGroup_dstate, hd] at hfault
    cases hfault

theorem exec_command_of_idle {i : Instr} {s : State} (hi : i.wf .command = true) (hd : s.dstate.active = false) :
    exec i s = .next (commandBody i s.beginCommand) :=
  (exec_eq_issue hi s).trans (issue_of_idle hd _)

/-- Settles O46: the capacity is the second check of `DEC`, before the working registers are set. -/
theorem decPayloadTooLong : Obligations.DecPayloadTooLong := by
  intro s hd hok hcap
  rw [exec_command_of_idle rfl hd, commandBody, decBody, if_neg (by simp [hok]), if_pos (by simpa using hcap)]
  rfl

/-! ### A block is its steps (R197 to R202) -/

theorem encodeBlock_length_pos {m : Mode} {i : Instr} (hw : i.wf (.payload m) = true) (hi : i ≠ .pad) :
    1 ≤ (encodeBlock m i).length := by
  cases i with
  | rep | lit => exact Nat.le_add_left 1 _
  | raw g =>
    obtain ⟨hm, -⟩ := wf_raw_iff.1 hw
    obtain ⟨-, -, hd, -⟩ := Mode.wf_iff.1 hm
    simpa [encodeBlock] using hd
  | pad => exact absurd rfl hi
  | opt | enc | asm | ldhdr | dec | reserved0 | reserved67 => simp [Instr.wf] at hw

/-- The block that was read stands at `CUR` (R101, R190). -/
theorem ahead_of_fetched {s : State} {i : Instr} {rest : List Bool}
    (h : decode (.payload s.mode) s.window = .ok (i, rest)) (hi : i ≠ .pad) : s.Ahead (encodeBlock s.mode i) := by
  obtain ⟨hw, hbits⟩ := decode_payload_eq_ok_iff.1 h
  rw [if_neg hi] at hbits
  have hbits : s.window = encodeBlock s.mode i ++ rest := hbits
  have hpos := encodeBlock_length_pos hw hi
  have hlen := congrArg List.length hbits
  simp only [State.window, bitsFrom_length, List.length_append] at hlen
  rw [State.window, hlen, bitsFrom_add] at hbits
  exact ⟨by omega, (List.append_inj hbits (by simp)).1⟩

theorem decStep_iterate_inactive {s : State} (h : s.dstate.active = false) (n : Nat) : State.decStep^[n] s = s :=
  Function.iterate_fixed (decStep_inactive h) n

section

variable {s s₁ s₂ : State}

theorem decStep_of_between (hd : s.dstate = .readControl ∨ s.dstate = .raw)
    (hn : s.pixemit = s.pixelCount) : s.decStep = s.finish := by
  rcases hd with hd | hd <;> simp [State.decStep, hd, hn]

theorem decStep_of_litRead {f : Nat} (hd : s.dstate = .readControl) (hn : s.pixemit ≠ s.pixelCount)
    (h1 : s.getBits 1 = some (1, s₁)) (h2 : s₁.getBits s.bo = some (f, s₂)) : s.decStep = litHeader s s₂ f := by
  simp [State.decStep, hd, hn, h1, h2]

theorem decStep_of_repRead {b f : Nat} (hd : s.dstate = .readControl) (hn : s.pixemit ≠ s.pixelCount) (hb : b ≠ 1)
    (h1 : s.getBits 1 = some (b, s₁)) (h2 : s₁.getBits s.br = some (f, s₂)) : s.decStep = repHeader s s₂ f := by
  simp [State.decStep, hd, hn, hb, h1, h2]

theorem decStep_of_literalRead {g : Nat} (hd : s.dstate = .literal) (h : s.getBits s.depth = some (g, s₁)) :
    s.decStep = literalGroup s s₁ (BitVec.ofNat 16 g) := by
  simp [State.decStep, hd, h]

theorem decStep_of_rawRead {g : Nat} (hd : s.dstate = .raw) (hn : s.pixemit ≠ s.pixelCount)
    (h : s.getBits s.depth = some (g, s₁)) : s.decStep = State.emitGroup s s₁ (BitVec.ofNat 16 g) := by
  simp [State.decStep, hd, hn, h]

theorem decStep_of_repeat (hd : s.dstate = .repeat) : s.decStep = repeatPixel s := by
  simp [State.decStep, hd]

end

/-- The step that reads a `REP` header, whatever it finds there (R198). -/
theorem decStep_eq_repHeader {s : State} {f : Nat} (hd : s.dstate = .readControl) (hn : s.pixemit ≠ s.pixelCount)
    (hf : f < 2 ^ s.br) (h : s.Ahead (false :: fieldBits s.br f)) :
    s.decStep = repHeader s (s.advance (1 + s.br)) f := by
  rw [← List.append_nil (fieldBits _ _)] at h
  obtain ⟨hbit, hread, -⟩ := h.getHeader hf
  exact decStep_of_repRead hd hn (by decide) hbit hread

/-- The step that reads a `LIT` header, and what then stands at the place it leaves `CUR` at (R198). -/
theorem decStep_eq_litHeader {s : State} {f : Nat} {bs : List Bool} (hd : s.dstate = .readControl)
    (hn : s.pixemit ≠ s.pixelCount) (hf : f < 2 ^ s.bo) (h : s.Ahead (true :: (fieldBits s.bo f ++ bs))) :
    s.decStep = litHeader s (s.advance (1 + s.bo)) f ∧ (s.advance (1 + s.bo)).Ahead bs := by
  obtain ⟨hbit, hread, hrest⟩ := h.getHeader hf
  exact ⟨decStep_of_litRead hd hn hbit hread, hrest⟩

/-- The step that reads a group of a `LIT` (R199). -/
theorem decStep_eq_literalGroup {s : State} {g : Code} {bs : List Bool} (hd : s.dstate = .literal)
    (hg : g.toNat < 2 ^ s.depth) (h : s.Ahead (fieldBits s.depth g.toNat ++ bs)) :
    s.decStep = literalGroup s (s.advance s.depth) g ∧ (s.advance s.depth).Ahead bs := by
  obtain ⟨hread, hrest⟩ := h.getBits hg
  exact ⟨by rw [decStep_of_literalRead hd hread, BitVec.ofNat_toNat, BitVec.setWidth_eq], hrest⟩

/-- The step that reads a raw group (R201). -/
theorem decStep_eq_emitGroup {s : State} {g : Code} (hd : s.dstate = .raw) (hn : s.pixemit ≠ s.pixelCount)
    (hg : g.toNat < 2 ^ s.depth) (h : s.Ahead (fieldBits s.depth g.toNat)) :
    s.decStep = State.emitGroup s (s.advance s.depth) g := by
  rw [← List.append_nil (fieldBits _ _)] at h
  obtain ⟨hread, -⟩ := h.getBits hg
  rw [decStep_of_rawRead hd hn hread, BitVec.ofNat_toNat, BitVec.setWidth_eq]

theorem runRepeats_eq_iterate (k : Nat) : ∀ {s : State}, (k ≠ 0 → s.dstate = .repeat ∧ s.cnt = k) →
    runRepeats k s = State.decStep^[k] s := by
  induction k with
  | zero => exact fun _ => rfl
  | succ k ih =>
    intro s h
    obtain ⟨hd, hcnt⟩ := h (Nat.succ_ne_zero k)
    rw [Function.iterate_succ_apply, decStep_of_repeat hd, runRepeats, if_neg (by simp [hd])]
    exact ih fun hk => by simp [repeatPixel, hd, hcnt, hk]

/-- The groups of a `LIT` that stand at `CUR`, up to the first with no palette entry: the state machine then stays in
`Faulted`, and the block does too (R199, R203). -/
theorem runGroups_eq_iterate {gs : List Code} : ∀ {s : State}, (gs ≠ [] → s.dstate = .literal ∧ s.cnt = gs.length) →
    (∀ g ∈ gs, g.toNat < 2 ^ s.depth) → s.Ahead (rawStream s.depth gs) →
    runGroups gs s = State.decStep^[gs.length] s := by
  induction gs with
  | nil => exact fun _ _ _ => rfl
  | cons g gs ih =>
    intro s h hcodes hbits
    obtain ⟨hd, hcnt⟩ := h (List.cons_ne_nil g gs)
    obtain ⟨hg, hgs⟩ := List.forall_mem_cons.1 hcodes
    obtain ⟨hstep, hrest⟩ := decStep_eq_literalGroup hd hg hbits
    rw [List.length_cons, Function.iterate_succ_apply, hstep, runGroups, if_neg (by simp [hd])]
    rcases literalGroup_cases (s := s) (by simp [hd]) g with ⟨-, he⟩ | ⟨v, -, he⟩ <;> rw [he]
    · rw [runGroups_faulted rfl, decStep_iterate_inactive rfl]
    · refine ih (fun hne => by simp [hd, hcnt, hne]) (by simpa using hgs) ?_
      rw [State.countDown_depth, afterGroup_depth]
      exact hrest.congr (by simp) (by simp) (by simp)

theorem rep_eq_iterate {s : State} {r : BitVec 7} (hd : s.dstate = .readControl) (hn : s.pixemit ≠ s.pixelCount)
    (hr : r.toNat < 2 ^ s.br) (h : s.Ahead (false :: fieldBits s.br r.toNat)) :
    runRepeats (r.toNat + 1) (repHeader s (s.advance (1 + s.br)) r.toNat) = State.decStep^[r.toNat + 1 + 1] s := by
  rw [Function.iterate_succ_apply, decStep_eq_repHeader hd hn hr h]
  unfold repHeader
  split_ifs
  · rw [runRepeats_faulted rfl, decStep_iterate_inactive rfl]
  · rw [runRepeats_faulted rfl, decStep_iterate_inactive rfl]
  · exact runRepeats_eq_iterate _ fun _ => ⟨rfl, rfl⟩

theorem lit_eq_iterate {s : State} {gs : List Code} (hd : s.dstate = .readControl) (hn : s.pixemit ≠ s.pixelCount)
    (h1 : 1 ≤ gs.length) (h2 : gs.length ≤ 2 ^ s.bo) (hcodes : ∀ g ∈ gs, g.toNat < 2 ^ s.depth)
    (h : s.Ahead (true :: (fieldBits s.bo (gs.length - 1) ++ rawStream s.depth gs))) :
    runGroups gs (litHeader s (s.advance (1 + s.bo)) (gs.length - 1)) = State.decStep^[gs.length + 1] s := by
  obtain ⟨hstep, hrest⟩ := decStep_eq_litHeader hd hn (by omega) h
  rw [Function.iterate_succ_apply, hstep]
  unfold litHeader
  split_ifs
  · rw [runGroups_faulted rfl, decStep_iterate_inactive rfl]
  · exact runGroups_eq_iterate (fun _ => ⟨rfl, Nat.sub_add_cancel h1⟩) hcodes hrest

/-- The block that was read is run: its header, and a step for each of its at most 128 pixels (R95, R96). -/
theorem exec_fetched {s : State} {i : Instr} {rest : List Bool} (hd : s.dstate = .readControl ∨ s.dstate = .raw)
    (ho : s.outcnt < s.cfg.batch) (h : decode (.payload s.mode) s.window = .ok (i, rest)) :
    ∃ n, 1 ≤ n ∧ n ≤ 129 ∧ exec i s = .next (State.decStep^[n] s) := by
  obtain ⟨hw, -⟩ := decode_payload_eq_ok_iff.1 h
  have hat := atBlock_iff.2 ⟨hd, hw⟩
  cases i with
  | rep r =>
    obtain ⟨hrc, hn, hr⟩ := atBlock_rep hat
    refine ⟨r.toNat + 1 + 1, by omega, by omega, ?_⟩
    rw [exec_rep hd ho hw, rep_eq_iterate hrc hn hr (ahead_of_fetched h (by simp))]
  | lit gs =>
    obtain ⟨hrc, hn, h1, h2⟩ := atBlock_lit hat
    obtain ⟨-, -, -, -, -, hcodes⟩ := wf_lit_iff.1 hw
    have h128 := two_pow_le_of_lt_eight (bo_lt s)
    refine ⟨gs.length + 1, by omega, by omega, ?_⟩
    rw [exec_lit hd ho hw, lit_eq_iterate hrc hn h1 h2 hcodes (ahead_of_fetched h (by simp))]
  | raw g =>
    obtain ⟨hraw, hn⟩ := atBlock_raw hat
    obtain ⟨-, -, -, hg⟩ := wf_raw_iff.1 hw
    refine ⟨1, le_rfl, by decide, ?_⟩
    rw [exec_raw hd ho hw, Function.iterate_one, decStep_eq_emitGroup hraw hn hg (ahead_of_fetched h (by simp))]
  | pad =>
    refine ⟨1, le_rfl, by decide, ?_⟩
    rw [exec_pad hd ho hw, Function.iterate_one, decStep_of_between hd (atBlock_pad hat).2]
  | opt | enc | asm | ldhdr | dec | reserved0 | reserved67 => simp [Instr.wf] at hw

theorem active_of_between {s : State} (hd : s.dstate = .readControl ∨ s.dstate = .raw) : s.dstate.active = true := by
  rcases hd with hd | hd <;> rw [hd] <;> rfl

/-- Settles O45: a block that answers a next state had room in `OUTBUF`, and is then its steps. -/
theorem blockIsItsSteps : Obligations.BlockIsItsSteps := by
  intro s t i rest hd hi h
  obtain ⟨ho, -⟩ := exec_block_reaches (active_of_between hd) hi h
  obtain ⟨n, h1, h129, hexec⟩ := exec_fetched hd ho hi
  exact ⟨n, h1, h129, Host.Outcome.next.inj (h.symm.trans hexec)⟩

/-! ### The machine's step while a `DEC` runs (R197, R204) -/

/-- Where R204 holds the decoder's own step is never refused (log 8, log 10). -/
theorem decoderStep_of_legal {s : State} (hs : s.DecoderLegal) (ha : s.dstate.active = true) :
    s.decoderStep = .next s.decStep := by
  obtain ⟨hok, -, -, -, -, -, hcnt, hbase, -⟩ := hs ha
  refine guarded_of ?_ (hs.outcnt_lt ha) _
  rw [hok, Bool.true_and]
  match hd : s.dstate with
  | .readControl | .raw => rfl
  | .literal => exact decide_eq_true (hcnt (.inl hd)).1
  | .repeat => simp [(hcnt (.inr hd)).1, hbase hd]
  | .idle | .terminal | .faulted =>
    rw [hd] at ha
    cases ha

/-- Where R204 holds a step of the machine is one or more steps of the running decoder, and none of its stops. -/
theorem step_of_decoderLegal {s : State} (hs : s.DecoderLegal) (ha : s.dstate.active = true) :
    ∃ n, 1 ≤ n ∧ step s = .next (State.decStep^[n] s) := by
  have hf := fetch_cases s
  unfold step
  generalize fetch s = f at hf
  cases hf with
  | block i hd rest hi =>
    obtain ⟨n, h1, -, hexec⟩ := exec_fetched hd (hs.outcnt_lt ha) hi
    exact ⟨n, h1, hexec⟩
  | decoder => exact ⟨1, le_rfl, decoderStep_of_legal hs ha⟩
  | command hd | access hd | wait hd =>
    rw [hd] at ha
    cases ha

theorem hostWriteReg_of_defined {r : Reg} {v : Nat} {cfg : Config} (h : (HostOp.writeReg r v).defined cfg = true)
    (s : State) : ∃ t, hostWriteReg r v s = .next t := by
  cases r with
  | width | height | palcount | bitdepth | flags => exact ⟨_, fits_of_lt (of_decide_eq_true h) _⟩
  | cmd | status | errinfo | paloff | paylen | filelen | cur | pixemit | lastpix | outcnt | dstate | cnt | wcur =>
    exact ⟨_, rfl⟩

/-- A host access the spec defines is taken (R21, V6). -/
theorem hostAccess_of_defined {op : HostOp} {s : State} (h : op.defined s.cfg = true) :
    ∃ t, hostAccess op s = .next t := by
  cases op with
  | writeReg r v => exact hostWriteReg_of_defined h s
  | writePixin | writePal | writePayload | writeFile =>
    exact ⟨_, inMemory_of_exists (by simpa [HostOp.defined] using h) _⟩
  | reset c => exact ⟨_, rfl⟩

/-- Settles O59: a running decoder steps by R204; else a command is issued, a defined access is taken, or the core
waits. -/
theorem legalStatesAlwaysStep : Obligations.LegalStatesAlwaysStep := by
  intro s hl hop
  rcases ha : s.dstate.active with _ | _
  · have hf := fetch_cases s
    unfold step
    generalize fetch s = f at hf
    cases hf with
    | block _ hd =>
      rw [active_of_between hd] at ha
      cases ha
    | decoder hd =>
      rw [ha] at hd
      cases hd
    | command hd v ops =>
      exact ⟨_, exec_command_of_idle (s := { s with host := ops }) (decodeCommand_wf _) hd⟩
    | access _ op ops hq => exact hostAccess_of_defined (s := { s with host := ops }) (hop op ops hq)
    | wait => exact ⟨s, rfl⟩
  · obtain ⟨n, -, hstep⟩ := step_of_decoderLegal hl.decoder ha
    exact ⟨_, hstep⟩

/-! ### The whole `DEC` as steps of the machine (R196, R205) -/

/-- Steps keep R204 and leave no more of them (R204, R205). -/
theorem decStep_iterate_legal (n : Nat) : ∀ {s : State}, s.DecoderLegal →
    (State.decStep^[n] s).DecoderLegal ∧ (State.decStep^[n] s).stepsLeft ≤ s.stepsLeft := by
  induction n with
  | zero => exact fun h => ⟨h, le_rfl⟩
  | succ n ih =>
    intro s hs
    rcases ha : s.dstate.active with _ | _
    · rw [decStep_iterate_inactive ha]
      exact ⟨hs, le_rfl⟩
    · have hstep := decStep_cases ha
      obtain ⟨hlegal, hleft⟩ := ih (hstep.decoderLegal ha hs)
      exact ⟨hlegal, hleft.trans (hstep.stepsLeft_lt hs ha).le⟩

theorem run_succ_of_step {M : Host.Core} {s t : M.State} (h : M.step s = .next t) (n : Nat) :
    M.run (n + 1) s = M.run n t := by
  rw [Host.Core.run, h]

/-- The machine's own steps take a running decoder to its end, which is so many of the decoder's (R197). -/
theorem core_run_to_end {s : State} (hs : s.DecoderLegal) :
    ∃ n m, Host.Core.run Sys2Proof.core n s = .next (State.decStep^[m] s) ∧
      (State.decStep^[m] s).dstate.active = false := by
  induction hk : s.stepsLeft using Nat.strong_induction_on generalizing s with
  | _ k ih =>
    rcases ha : s.dstate.active with _ | _
    · exact ⟨0, 0, rfl, ha⟩
    · obtain ⟨n, h1, hstep⟩ := step_of_decoderLegal hs ha
      obtain ⟨j, rfl⟩ := Nat.exists_eq_add_of_le' h1
      have hfirst := decStep_cases ha
      obtain ⟨hlegal, hleft⟩ := decStep_iterate_legal j (hfirst.decoderLegal ha hs)
      have hlt := hfirst.stepsLeft_lt hs ha
      rw [Function.iterate_succ_apply] at hstep
      obtain ⟨n, m, hrun, hend⟩ := ih _ (by omega) hlegal rfl
      rw [← Function.iterate_succ_apply, ← Function.iterate_add_apply] at hrun hend
      exact ⟨n + 1, m + (j + 1), (run_succ_of_step (M := Sys2Proof.core) hstep n).trans hrun, hend⟩

/-- `DEC` that passes its checks runs the state machine (R196). -/
theorem decBody_of_checks {s : State} (hok : s.depthOk = true) (hcap : exceeds s.paylen s.cfg.payloadCap = false) :
    decBody s = runSteps (2 * s.pixelCount + 1) s.decStart := by
  rw [decBody, if_neg (by simp [hok]), if_neg (by simp [hcap])]

/-- Settles O52: both runs are steps of the state machine from the same start up to where it ends. -/
theorem decIsARunOfSteps : Obligations.DecIsARunOfSteps := by
  intro s t hok hcap h
  obtain ⟨-, rfl⟩ := issue_eq_next.1 h
  obtain ⟨n, m, hrun, hend⟩ := core_run_to_end (decoderLegal_decStart (s := s.beginCommand) hok rfl rfl)
  have hends := (decBody_ends (s := s.beginCommand) rfl rfl).1
  rw [decBody_of_checks (s := s.beginCommand) hok hcap] at hends ⊢
  exact ⟨n, hrun.trans (congrArg _ (runSteps_eq_of_inactive hends hend).symm)⟩

end Sys2Proof.Machine

/-!
# The whole `DEC` (43_decoder.md R196, R202 to R207)

The batches of a list; what a `DEC` that ends in `Terminal` has delivered, also when its payload is well-formed blocks;
and that no bit behind its final `CUR` matters to it.
-/

namespace Sys2Proof.Machine

/-! ### Batches (R205) -/

/-- A list is so many full batches and a shorter rest. -/
theorem exists_full_batches {b : Nat} (hb : 1 ≤ b) (l : List Colour) :
    ∃ (full : List (List Colour)) (rest : List Colour),
      l = full.flatten ++ rest ∧ (∀ x ∈ full, x.length = b) ∧ rest.length < b := by
  induction hn : l.length using Nat.strong_induction_on generalizing l with
  | _ n ih =>
    rcases Nat.lt_or_ge l.length b with hlt | hge
    · exact ⟨[], l, rfl, by simp, hlt⟩
    · obtain ⟨full, rest, heq, hfull, hrest⟩ := ih _ (by rw [List.length_drop]; omega) (l.drop b) rfl
      refine ⟨l.take b :: full, rest, ?_, List.forall_mem_cons.2 ⟨List.length_take_of_le hge, hfull⟩, hrest⟩
      rw [List.flatten_cons, List.append_assoc, ← heq, List.take_append_drop]

theorem batches_flatten_append {b : Nat} {full : List (List Colour)} {rest : List Colour}
    (hfull : ∀ x ∈ full, x.length = b) (hrest : rest.length < b) :
    batches b (full.flatten ++ rest) = full ++ if 1 ≤ rest.length then [rest] else [] :=
  batchesOf_flatten_append (by omega) hfull hrest le_rfl

theorem length_flatten_of_full {b : Nat} {full : List (List Colour)} (hfull : ∀ x ∈ full, x.length = b) :
    full.flatten.length = b * full.length := by
  rw [List.length_flatten, List.map_congr_left hfull, List.map_const', List.sum_replicate, smul_eq_mul, Nat.mul_comm]

/-- Settles O48: the batches are the full ones, and the rest if there is one. -/
theorem batchesCutTheList : Obligations.BatchesCutTheList := by
  intro b l hb
  obtain ⟨full, rest, rfl, hfull, hrest⟩ := exists_full_batches hb l
  have hlen : (full.flatten ++ rest).length = b * full.length + rest.length := by
    rw [List.length_append, length_flatten_of_full hfull]
  have hcut := batches_flatten_append hfull hrest
  by_cases h1 : 1 ≤ rest.length
  · rw [if_pos h1] at hcut
    have hceil : b * full.length + rest.length + b - 1 = rest.length - 1 + b * (full.length + 1) := by
      rw [Nat.mul_succ]
      omega
    rw [hcut, hlen]
    refine ⟨by simp, ?_, fun i hi => ?_⟩
    · rw [hceil, Nat.add_mul_div_left _ _ hb, Nat.div_eq_of_lt (by omega)]
      simp
    · simp only [List.length_append, List.length_singleton] at hi ⊢
      rcases Nat.lt_or_ge i full.length with hlt | hge
      · rw [if_pos (by omega), List.getElem_append_left hlt, hfull _ (List.getElem_mem hlt)]
      · obtain rfl : i = full.length := by omega
        simp
  · rw [if_neg h1, List.append_nil] at hcut
    obtain rfl : rest = [] := List.length_eq_zero_iff.1 (by omega)
    have hceil : b * full.length + 0 + b - 1 = b - 1 + b * full.length := by omega
    rw [hcut, hlen]
    refine ⟨by simp, ?_, fun i hi => ?_⟩
    · rw [List.length_nil, hceil, Nat.add_mul_div_left _ _ hb, Nat.div_eq_of_lt (by omega)]
      simp
    · rw [hfull _ (List.getElem_mem hi), List.length_nil]
      split_ifs with hlast
      · rfl
      · obtain hlast : full.length = i + 1 := by omega
        rw [hlast, Nat.mul_succ]
        omega

/-! ### A `DEC` that ends in `Terminal` (R202, R205) -/

/-- The step that ends a `DEC`: the last one, with pixel `N` complete, or one that raises (R202, R203). -/
theorem State.Steps.finish_or_raise {s t : State} (h : s.Steps t) (ha : s.dstate.active = true)
    (ht : t.dstate.active = false) :
    (s.pixemit = s.pixelCount ∧ t = s.finish) ∨ ∃ k info, t = s.raiseDec k info := by
  cases h with
  | finish _ hn => exact .inl ⟨hn, rfl⟩
  | truncated | noBase | overrun | badIndex => exact .inr ⟨_, _, rfl⟩
  | litHead | repHead => cases ht
  | group _ _ v =>
    rw [countDown_active (by rwa [afterGroup_dstate])] at ht
    cases ht
  | repetition =>
    rw [repeatPixel, countDown_active (by rwa [State.emit_dstate])] at ht
    cases ht
  | rawGroup =>
    rw [afterGroup_dstate, ha] at ht
    cases ht

/-- A chain of steps that has come to its end has taken such a step last. -/
theorem State.Reaches.finish_or_raise {s t : State} (h : s.Reaches t) (ha : s.dstate.active = true)
    (ht : t.dstate.active = false) : ∃ u, s.Reaches u ∧ u.dstate.active = true ∧
      ((u.pixemit = u.pixelCount ∧ t = u.finish) ∨ ∃ k info, t = u.raiseDec k info) := by
  rcases Relation.ReflTransGen.cases_tail h with rfl | ⟨u, hsu, hu, hut⟩
  · rw [ht] at ha
    cases ha
  · exact ⟨u, hsu, hu, hut.finish_or_raise hu ht⟩

/-- A step after which the decoder still runs emits one colour or none (R197). -/
theorem State.Steps.emitted {s t : State} (h : s.Steps t) (ho : s.outcnt < s.cfg.batch)
    (ht : t.dstate.active = true) : ∃ vs, s.Emitted t vs := by
  cases h with
  | finish =>
    rw [finish_dstate] at ht
    cases ht
  | truncated | noBase | overrun | badIndex => cases ht
  | litHead | repHead => exact ⟨[], (State.Emitted.refl ho).congr rfl rfl rfl rfl⟩
  | group _ _ v => exact ⟨[v], (emitted_afterGroup ho v).congr rfl rfl rfl rfl⟩
  | repetition => exact ⟨[s.lastpix], (emitted_emit ho s.lastpix).congr rfl rfl rfl rfl⟩
  | rawGroup _ _ _ v => exact ⟨[v], emitted_afterGroup ho v⟩

/-- Since it started a running decoder has only emitted colours (R194, R204). -/
theorem State.Reaches.emitted {s t : State} (h : s.Reaches t) (ho : s.outcnt < s.cfg.batch)
    (ht : t.dstate.active = true) : ∃ vs, s.Emitted t vs := by
  refine (h.keeps (P := fun u => s.DecWrites u ∧ u.outcnt < u.cfg.batch ∧
    (u.dstate.active = true → ∃ vs, s.Emitted u vs)) ?_ ⟨.refl s, ho, fun _ => ⟨[], .refl ho⟩⟩).2.2 ht
  rintro a b ha hab ⟨hw, hao, hemit⟩
  refine ⟨hw.trans (hab.decWrites hao), hab.outcnt_lt hao, fun hb => ?_⟩
  obtain ⟨vs, hvs⟩ := hemit ha
  obtain ⟨ws, hws⟩ := hab.emitted hao hb
  exact ⟨vs ++ ws, hvs.trans hws hw.cfg_eq⟩

theorem State.DecWrites.pixelCount_eq {s t : State} (h : s.DecWrites t) : t.pixelCount = s.pixelCount := by
  rw [h.frame]
  rfl

/-- The state of a `DEC` that has come to its last step: `DONE`, and `N` colours delivered in batches (R202, R205). -/
structure State.Done (s t : State) : Prop where
  status : t.status = 0x01
  errinfo : t.errinfo = 0
  pixemit : t.pixemit = s.pixelCount
  outcnt : t.outcnt = 0
  sink : ∃ p : List Colour, p.length = s.pixelCount ∧ t.sink = s.sink ++ batches s.cfg.batch p

/-- The last step of a `DEC` whose start R204 holds in (R202). -/
theorem State.Reaches.finish_done {s u : State} (h : s.Reaches u) (hs : s.DecoderLegal)
    (ha : s.dstate.active = true) (hu : u.dstate.active = true) (hpix : s.pixemit = 0) (hout : s.outcnt = 0)
    (hn : u.pixemit = u.pixelCount) : s.Done u.finish := by
  have ho := hs.outcnt_lt ha
  have hcount := (h.decWrites ho).pixelCount_eq
  obtain ⟨vs, hvs⟩ := h.emitted ho hu
  obtain ⟨-, -, -, -, hstatus, herrinfo, -⟩ := h.keeps (fun ha hab => hab.decoderLegal ha) hs hu
  have hlen := hvs.pixemit
  refine ⟨finish_status hstatus, ?_, ?_, ?_, vs, by omega, hvs.finish_sink hout⟩
  · rw [finish_eq, herrinfo]
  · rw [finish_eq]
    exact hn.trans hcount
  · rw [finish_eq]

/-- Settles O47: a `DEC` raises, or takes its last step. -/
theorem decEndsWithNPixels : Obligations.DecEndsWithNPixels := by
  intro s hd
  refine ⟨_, exec_command_of_idle rfl hd, ?_⟩
  rw [commandBody]
  rcases decBody_cases (s := s.beginCommand) rfl rfl with ⟨k, info, h⟩ | ⟨hok, hreach, hend⟩
  · rw [h]
    exact ⟨.inr rfl, fun _ => statusErr_raiseDec _ k info, fun h => by cases h⟩
  · have hactive := decStart_active s.beginCommand
    have hlegal := decoderLegal_decStart (s := s.beginCommand) hok rfl rfl
    obtain ⟨u, hsu, hu, ⟨hn, h⟩ | ⟨k, info, h⟩⟩ := hreach.finish_or_raise hactive hend <;> rw [h]
    · obtain ⟨hstatus, herrinfo, hpix, hout, hsink⟩ := hsu.finish_done hlegal hactive hu rfl rfl hn
      refine ⟨.inl (finish_dstate u), fun hf => ?_, fun _ => ⟨hstatus, herrinfo, hpix, hout, hsink⟩⟩
      rw [finish_dstate] at hf
      cases hf
    · exact ⟨.inr rfl, fun _ => statusErr_raiseDec _ k info, fun h => by cases h⟩

/-! ### A payload of well-formed blocks (R196, R207) -/

/-- Settles O49: the blocks are ahead when the `DEC` starts, the first with no base pixel to need. -/
theorem decExecutesItsBlocks : Obligations.DecExecutesItsBlocks := by
  intro s is rest hd hok hcap hcomp m hwf hhead hbits hlen hres
  have hahead : s.beginCommand.decStart.BlocksAhead 0 is := by
    refine ⟨by rw [State.decStart_dstate]; exact if_pos hcomp, rfl, (Nat.zero_add _).trans hlen, hwf,
      ahead_of_bitsFrom_zero rfl hbits, hres, ?_⟩
    rintro r more rfl
    obtain ⟨gs, hgs⟩ := hhead _ rfl
    cases hgs
  obtain ⟨t, hexec, hrun, hcnt, hcur⟩ := exec_dec_of_blocksAhead hd hok hcap hahead
  have hpix : t.pixemit = s.pixelCount := by
    rw [hrun.emitted.pixemit, List.length_map, hlen]
    exact Nat.zero_add _
  refine ⟨_, hexec, finish_status ?_, ?_, finish_dstate t, ?_, ?_, ?_, ?_, hrun.emitted.finish_sink rfl⟩
  · rw [hrun.frame]
    rfl
  · rw [finish_eq, hrun.frame]
    rfl
  · rw [finish_eq]
    exact hcur
  · rw [finish_eq]
    exact hpix
  · rw [finish_eq]
  · rw [finish_eq]
    exact hcnt

/-! ### What a `DEC` reads of its payload (R207) -/

/-- `s` with another payload and length. -/
def State.withStream (s : State) (p : Mem 8) (n : Nat) : State := { s with payload := p, paylen := n }

section

variable {s s₁ s₂ now : State} {p : Mem 8} {n : Nat}

/-! Nothing but the bit reader looks at the payload. -/

theorem emit_withStream (v : Colour) : (s.withStream p n).emit v = (s.emit v).withStream p n := by
  rw [State.emit_eq, State.emit_eq]
  rfl

theorem finish_withStream : (s.withStream p n).finish = s.finish.withStream p n := by
  rw [finish_eq, finish_eq]
  rfl

theorem repeatPixel_withStream : repeatPixel (s.withStream p n) = (repeatPixel s).withStream p n :=
  congrArg State.countDown (emit_withStream s.lastpix)

theorem litHeader_withStream (f : Nat) :
    litHeader (s.withStream p n) (now.withStream p n) f = (litHeader s now f).withStream p n := by
  unfold litHeader
  rw [apply_ite (State.withStream · p n)]
  rfl

theorem repHeader_withStream (f : Nat) :
    repHeader (s.withStream p n) (now.withStream p n) f = (repHeader s now f).withStream p n := by
  unfold repHeader
  rw [apply_ite (State.withStream · p n), apply_ite (State.withStream · p n)]
  rfl

theorem emitGroup_withStream (g : Code) : State.emitGroup (s.withStream p n) (now.withStream p n) g =
    (State.emitGroup s now g).withStream p n := by
  have hresolve : (s.withStream p n).resolve g = s.resolve g := rfl
  unfold State.emitGroup
  rw [hresolve]
  cases s.resolve g with
  | none => rfl
  | some v =>
    dsimp only
    rw [emit_withStream]
    rfl

theorem literalGroup_withStream (g : Code) : literalGroup (s.withStream p n) (now.withStream p n) g =
    (literalGroup s now g).withStream p n := by
  unfold literalGroup
  rw [emitGroup_withStream]
  dsimp only
  rw [apply_ite (State.withStream · p n)]
  rfl

/-! Where a step that does not fault leaves `CUR`. -/

theorem litHeader_cur {f : Nat} (h : (litHeader s now f).dstate ≠ .faulted) : (litHeader s now f).cur = now.cur := by
  unfold litHeader at h ⊢
  split_ifs at h ⊢
  · exact absurd rfl h
  · rfl

theorem repHeader_cur {f : Nat} (h : (repHeader s now f).dstate ≠ .faulted) : (repHeader s now f).cur = now.cur := by
  unfold repHeader at h ⊢
  split_ifs at h ⊢
  · exact absurd rfl h
  · exact absurd rfl h
  · rfl

theorem emitGroup_cur {g : Code} (h : (State.emitGroup s now g).dstate ≠ .faulted) :
    (State.emitGroup s now g).cur = now.cur := by
  unfold State.emitGroup at h ⊢
  cases hg : s.resolve g with
  | none =>
    rw [hg] at h
    exact absurd rfl h
  | some v => exact State.emit_cur now v

theorem literalGroup_cur {g : Code} (h : (literalGroup s now g).dstate ≠ .faulted) :
    (literalGroup s now g).cur = now.cur := by
  unfold literalGroup at h ⊢
  dsimp only at h ⊢
  split_ifs at h ⊢ with hf
  · exact absurd hf h
  · exact emitGroup_cur hf

/-- The payload `p` of `n` bytes has the bits of `s` below position `c` (R61). -/
structure State.AgreesBelow (s : State) (p : Mem 8) (n c : Nat) : Prop where
  holds : c ≤ 8 * n
  bits : ∀ k, k < c → (p.read (k / 8)).getLsbD (7 - k % 8) = s.bit k

theorem State.AgreesBelow.mono {c d : Nat} (h : s.AgreesBelow p n c) (hd : d ≤ c) : s.AgreesBelow p n d :=
  ⟨hd.trans h.holds, fun k hk => h.bits k (hk.trans_le hd)⟩

theorem State.AgreesBelow.congr {c : Nat} (h : s.AgreesBelow p n c) (hpay : s₁.payload = s.payload) :
    s₁.AgreesBelow p n c :=
  ⟨h.holds, fun k hk => (h.bits k hk).trans (by rw [State.bit, State.bit, hpay])⟩

/-- Bits that were read below `c` are read alike (R191). -/
theorem getBits_withStream {c k v : Nat} (h : s.getBits k = some (v, s₁)) (hc : s₁.cur ≤ c)
    (hagree : s.AgreesBelow p n c) : (s.withStream p n).getBits k = some (v, s₁.withStream p n) := by
  obtain ⟨rfl, -, rfl, -⟩ := getBits_eq_some h
  have hfits : (s.withStream p n).cur + k ≤ 8 * (s.withStream p n).paylen := hc.trans hagree.holds
  have hbits : (s.withStream p n).bitsFrom s.cur k = s.bitsFrom s.cur k :=
    List.map_congr_left fun i hi =>
      hagree.bits _ ((Nat.add_lt_add_left (List.mem_range.1 hi) s.cur).trans_le hc)
  rw [getBits_of_le (.inr hfits)]
  exact congrArg some (Prod.ext (congrArg bitsVal hbits) rfl)

/-- A control bit and a field that were read below `c` are read alike. -/
theorem getHeader_withStream {c j k b f : Nat} (h1 : s.getBits j = some (b, s₁)) (h2 : s₁.getBits k = some (f, s₂))
    (hc : s₂.cur ≤ c) (hagree : s.AgreesBelow p n c) :
    (s.withStream p n).getBits j = some (b, s₁.withStream p n) ∧
      (s₁.withStream p n).getBits k = some (f, s₂.withStream p n) := by
  obtain ⟨rfl, -⟩ := getBits_eq_some h1
  obtain ⟨rfl, -⟩ := getBits_eq_some h2
  exact ⟨getBits_withStream h1 ((Nat.le_add_right _ k).trans hc) hagree,
    getBits_withStream h2 hc (hagree.congr rfl)⟩

/-- A header that is read without a fault is read alike from a payload that agrees below its end (R198). -/
theorem decStep_header_withStream (hd : s.dstate = .readControl) (hn : s.pixemit ≠ s.pixelCount)
    (hfault : s.decStep.dstate ≠ .faulted) (h : s.AgreesBelow p n s.decStep.cur) :
    (s.withStream p n).decStep = s.decStep.withStream p n := by
  rcases h1 : s.getBits 1 with _ | ⟨b, s₁⟩
  · exact absurd (by simp [State.decStep, hd, hn, h1]) hfault
  by_cases hb : b = 1
  · subst hb
    rcases h2 : s₁.getBits s.bo with _ | ⟨f, s₂⟩
    · exact absurd (by simp [State.decStep, hd, hn, h1, h2]) hfault
    rw [decStep_of_litRead hd hn h1 h2] at hfault h ⊢
    obtain ⟨h1', h2'⟩ := getHeader_withStream h1 h2 (litHeader_cur hfault).ge h
    rw [decStep_of_litRead (s := s.withStream p n) hd hn h1' h2', litHeader_withStream]
  · rcases h2 : s₁.getBits s.br with _ | ⟨f, s₂⟩
    · exact absurd (by simp [State.decStep, hd, hn, hb, h1, h2]) hfault
    rw [decStep_of_repRead hd hn hb h1 h2] at hfault h ⊢
    obtain ⟨h1', h2'⟩ := getHeader_withStream h1 h2 (repHeader_cur hfault).ge h
    rw [decStep_of_repRead (s := s.withStream p n) hd hn hb h1' h2', repHeader_withStream]

/-- A step that does not fault reads no bit at or above the `CUR` it leaves (R197, R207). -/
theorem decStep_withStream (hfault : s.decStep.dstate ≠ .faulted) (h : s.AgreesBelow p n s.decStep.cur) :
    (s.withStream p n).decStep = s.decStep.withStream p n := by
  by_cases hend : (s.dstate = .readControl ∨ s.dstate = .raw) ∧ s.pixemit = s.pixelCount
  · obtain ⟨hd, hn⟩ := hend
    rw [decStep_of_between hd hn, decStep_of_between (s := s.withStream p n) hd hn, finish_withStream]
  match hd : s.dstate with
  | .readControl => exact decStep_header_withStream hd (fun hn => hend ⟨.inl hd, hn⟩) hfault h
  | .literal =>
    rcases hg : s.getBits s.depth with _ | ⟨g, s₁⟩
    · exact absurd (by simp [State.decStep, hd, hg]) hfault
    rw [decStep_of_literalRead hd hg] at hfault h ⊢
    rw [decStep_of_literalRead (s := s.withStream p n) hd (getBits_withStream hg (literalGroup_cur hfault).ge h),
      literalGroup_withStream]
  | .repeat =>
    rw [decStep_of_repeat hd, decStep_of_repeat (s := s.withStream p n) hd, repeatPixel_withStream]
  | .raw =>
    have hn : s.pixemit ≠ s.pixelCount := fun hn => hend ⟨.inr hd, hn⟩
    rcases hg : s.getBits s.depth with _ | ⟨g, s₁⟩
    · exact absurd (by simp [State.decStep, hd, hn, hg]) hfault
    rw [decStep_of_rawRead hd hn hg] at hfault h ⊢
    rw [decStep_of_rawRead (s := s.withStream p n) hd hn (getBits_withStream hg (emitGroup_cur hfault).ge h),
      emitGroup_withStream]
  | .idle | .terminal | .faulted =>
    have ha : s.dstate.active = false := by rw [hd]; rfl
    rw [decStep_inactive ha, decStep_inactive (s := s.withStream p n) ha]

/-- A run that ends in `Terminal` is the same on every payload that agrees below its final `CUR` (R207). -/
theorem runSteps_withStream {fuel : Nat} : ∀ {s : State}, s.outcnt < s.cfg.batch →
    (runSteps fuel s).dstate = .terminal → s.AgreesBelow p n (runSteps fuel s).cur →
    runSteps fuel (s.withStream p n) = (runSteps fuel s).withStream p n := by
  induction fuel with
  | zero => exact fun _ _ _ => rfl
  | succ fuel ih =>
    intro s ho hterm hagree
    rcases ha : s.dstate.active with _ | _
    · rw [runSteps_of_inactive ha, runSteps_of_inactive (s := s.withStream p n) ha]
    rw [runSteps_succ ha] at hterm hagree ⊢
    rw [runSteps_succ (s := s.withStream p n) ha]
    have hstep := decStep_cases ha
    have hwrites := hstep.decWrites ho
    have ho' := hstep.outcnt_lt ho
    have hcur := ((runSteps_reaches fuel s.decStep).decWrites ho').cur
    have hfault : s.decStep.dstate ≠ .faulted := fun hf => by
      rw [runSteps_of_inactive (by rw [hf]; rfl), hf] at hterm
      cases hterm
    rw [decStep_withStream hfault (hagree.mono hcur)]
    exact ih ho' hterm (hagree.congr (by rw [hwrites.frame]))

end

/-- `DEC` that ends in `Terminal` has passed its checks (R196, R203). -/
theorem decBody_checks_of_terminal {s : State} (h : (decBody s).dstate = .terminal) :
    s.depthOk = true ∧ exceeds s.paylen s.cfg.payloadCap = false := by
  unfold decBody at h
  split_ifs at h with hok hcap
  · cases h
  · cases h
  · exact ⟨by simpa using hok, by simpa using hcap⟩

/-- Settles O51: the run from the start of the `DEC` is the same, and so are its checks. -/
theorem trailingBitsDoNotMatter : Obligations.TrailingBitsDoNotMatter := by
  intro s t p n h hterm hcap hcur hbits
  obtain ⟨hd, rfl⟩ := issue_eq_next.1 h
  obtain ⟨hok, hfits⟩ := decBody_checks_of_terminal hterm
  rw [decBody_of_checks hok hfits] at hterm hcur hbits ⊢
  have hrun := runSteps_withStream (s := s.beginCommand.decStart) (p := p) (n := n) s.cfg.legal.1 hterm ⟨hcur, hbits⟩
  refine issue_eq_next.2 ⟨hd, ?_⟩
  exact hrun.symm.trans (decBody_of_checks (s := (s.withStream p n).beginCommand) hok hcap).symm

end Sys2Proof.Machine

/-!
# What the host observes of a command (44_host_commands.md R230 to R237)

Which command a write of `CMD` runs, and what a command that faults leaves; then an image that `OPT`, `ENC` and `ASM`
carry into a file and `LDHDR` and `DEC` deliver on another machine.
-/

namespace Sys2Proof.Machine

/-! ### A write of `CMD` (R230, R232) -/

/-- With no `DEC` running the host's next access is fetched (R21). -/
theorem fetch_of_idle {s : State} (hd : s.dstate.active = false) : fetch s = fetchHost s := by
  unfold fetch
  split <;> rename_i hs
  case h_5 | h_6 | h_7 => rfl
  all_goals
    rw [hs] at hd
    cases hd

/-- The three low bits of the value written are the code (R232). -/
theorem ofNat_three_mod_eight (v : Nat) : BitVec.ofNat 3 (v % 8) = BitVec.ofNat 3 v := by
  apply BitVec.eq_of_toNat_eq
  rw [BitVec.toNat_ofNat, BitVec.toNat_ofNat]
  exact Nat.mod_mod v 8

/-- Settles O5: with no `DEC` running the access is fetched, as the command it selects. -/
theorem stepRunsCommandWritten : Obligations.StepRunsCommandWritten := by
  intro s v ops hd hq
  have hfetch : fetchHost s = .instr (decodeCommand (BitVec.ofNat 3 v)) { s with host := ops } := by
    unfold fetchHost
    rw [hq]
  unfold step
  rw [fetch_of_idle hd, hfetch, ofNat_three_mod_eight]

/-- Settles O12: each of the three codes selects a reserved instruction, and that raises its own code. -/
theorem reservedCodeRaisesBadCommand : Obligations.ReservedCodeRaisesBadCommand := by
  intro s v ops hd hq hcode
  rw [stepRunsCommandWritten s v ops hd hq]
  have hraise := fun lo => reservedInstructionsRaise { s with host := ops } lo hd
  rcases hcode with hv | hv | hv <;> rw [hv]
  · exact (hraise 0).1
  · exact (hraise 0).2
  · exact (hraise 1).2

/-! ### Block instructions outside a running `DEC` (R235) -/

theorem atBlock_of_elsewhere {s : State} (hc : s.dstate ≠ .readControl) (hr : s.dstate ≠ .raw) (i : Instr) :
    s.atBlock i = false := by
  simp [State.atBlock, hc, hr]

theorem guarded_of_not {s : State} {ok : Bool} (h : ok = false) (next : State) :
    s.guarded ok next = .refused .notAtBlock := by
  rw [h]
  rfl

/-- Settles O9: the decoder is not between blocks, where alone a block instruction may run. -/
theorem blocksRefusedOutsideDec : Obligations.BlocksRefusedOutsideDec := by
  intro s r gs g hc hr
  have hat := atBlock_of_elsewhere hc hr
  exact ⟨guarded_of_not (hat (.rep r)) _, guarded_of_not (hat (.lit gs)) _, guarded_of_not (hat (.raw g)) _,
    guarded_of_not (hat .pad) _⟩

/-! ### A command that faults, and one that completes (R230, R233, R256) -/

theorem statusErr_complete {s : State} (h : s.status = 0) : s.complete.statusErr = false := by
  show (s.status ||| 1).getLsbD 1 = false
  rw [h]
  rfl

/-- A command but `DEC` that ends with `ERR` is its fault raised and nothing else (R233, R256). -/
theorem commandBody_of_statusErr {i : Instr} (hi : i.wf .command = true) (hdec : i ≠ .dec) {s : State}
    (hs : s.status = 0) (herr : (commandBody i s).statusErr = true) : ∃ k info, commandBody i s = s.raise k info := by
  rcases commandBody_cases hi hdec s with hraise | ⟨u, hdone, hu⟩
  · exact hraise
  · rw [hdone, statusErr_complete (hu.status.trans hs)] at herr
    cases herr

/-- Settles O15: the four commands raise or complete, and with `ERR` set it was the first. -/
theorem faultedCommandWritesNothingElse : Obligations.FaultedCommandWritesNothingElse := by
  intro s t i hi h herr
  have hwf : i.wf .command = true := by rcases hi with rfl | rfl | rfl | rfl <;> rfl
  have hdec : i ≠ .dec := by rcases hi with rfl | rfl | rfl | rfl <;> decide
  rw [exec_eq_issue hwf] at h
  obtain ⟨-, rfl⟩ := issue_eq_next.1 h
  obtain ⟨k, info, hraise⟩ := commandBody_of_statusErr hwf hdec rfl herr
  rw [hraise]
  rfl

theorem statusDone_faultStatus {s : State} {k : ErrKind} (h : s.status = faultStatus k) : s.statusDone = false := by
  rw [State.statusDone, h]
  exact statusDone_raise s k 0

/-- A command that ends with `DONE` has no other bit of `STATUS` set, and leaves no `DEC` running (R230 (3), R32). -/
theorem exec_command_done {i : Instr} {s t : State} (hi : i.wf .command = true) (h : exec i s = .next t)
    (hdone : t.statusDone = true) : t.status = 0x01 ∧ t.dstate.active = false := by
  rw [exec_eq_issue hi] at h
  obtain ⟨hd, rfl⟩ := issue_eq_next.1 h
  obtain ⟨hidle, hstatus⟩ := commandBody_ends hi (s := s.beginCommand) hd rfl rfl
  rcases hstatus with ⟨hone, -⟩ | ⟨k, hk⟩
  · exact ⟨hone, hidle⟩
  · rw [statusDone_faultStatus hk] at hdone
    cases hdone

/-! ### An image in the header registers, the palette and the payload (R236, R237) -/

/-- The header registers are those of an image of the codes, each resolves, and the payload is the one `ENC` forms from
them, with `COMP` as it sets it (R148, R149, R238). -/
structure State.CarriesImage (s : State) (codes : List Code) : Prop where
  depthOk : s.depthOk = true
  length : codes.length = s.pixelCount
  inRange : ∀ c ∈ codes, c.toNat < 2 ^ s.depth
  resolves : s.Resolves codes
  comp : s.comp = decide ((candidate s.depth s.br s.bo codes).length / 8 ≤ (codes.length * s.depth + 15) / 16 * 2)
  bits : s.bitsFrom 0 (8 * s.paylen) = payloadBits s.depth s.br s.bo codes

/-- `DEC` delivers an image carried (R205, R206). -/
theorem State.CarriesImage.delivers {s : State} {codes : List Code} (h : s.CarriesImage codes)
    (hd : s.dstate.active = false) (hfits : exceeds s.paylen s.cfg.payloadCap = false) : s.Delivers codes :=
  State.ReadyFor.delivers_of_payloadBits ⟨hd, h.depthOk, hfits, h.length, h.inRange, h.resolves⟩ h.comp h.bits

/-- `t` has the header fields of `s`, and below the lengths they give its payload and its palette (R177). -/
structure State.SameImage (s t : State) : Prop where
  width : t.width = s.width
  height : t.height = s.height
  bitdepth : t.bitdepth = s.bitdepth
  readFlags : t.readFlags = s.readFlags
  paylen : t.paylen = s.paylen
  payload : ∀ a, a < s.paylen → t.payload.read a = s.payload.read a
  palette : s.depth < 16 → t.palcount = s.palcount ∧ ∀ i, i < s.palcount.toNat → t.pal.read i = s.pal.read i

section
variable {s t : State} (h : s.SameImage t)
include h

theorem State.SameImage.depth_eq : t.depth = s.depth := by rw [State.depth, h.bitdepth, State.depth]
theorem State.SameImage.depthOk_eq : t.depthOk = s.depthOk := by rw [State.depthOk, h.depth_eq, State.depthOk]
theorem State.SameImage.comp_eq : t.comp = s.comp := by rw [State.comp, h.readFlags, State.comp]
theorem State.SameImage.br_eq : t.br = s.br := by rw [State.br, h.readFlags, State.br]
theorem State.SameImage.bo_eq : t.bo = s.bo := by rw [State.bo, h.readFlags, State.bo]
theorem State.SameImage.pixelCount_eq : t.pixelCount = s.pixelCount := by
  rw [State.pixelCount, h.width, h.height, State.pixelCount]

/-- The payload's bits are those of its bytes below `PAYLEN` (R61). -/
theorem State.SameImage.bits_eq : t.bitsFrom 0 (8 * t.paylen) = s.bitsFrom 0 (8 * s.paylen) := by
  rw [← byteBits_readList_payload, ← byteBits_readList_payload, h.paylen]
  exact congrArg byteBits (Mem.readList_congr fun i hi => h.payload _ (by omega))

/-- The codes that resolve do so to the same colours (R193). -/
theorem State.SameImage.colours {codes : List Code} (hok : s.depthOk = true) (hresolves : s.Resolves codes) :
    t.Resolves codes ∧ codes.map t.colourOf = codes.map s.colourOf := by
  unfold State.Resolves State.colourOf
  rw [h.depth_eq]
  by_cases h16 : s.depth = 16
  · exact ⟨.inl h16, by simp only [h16, if_true]⟩
  · have hbelow : ∀ g ∈ codes, g.toNat < s.palcount.toNat := hresolves.resolve_left h16
    obtain ⟨hcount, hpal⟩ := h.palette (Nat.lt_of_le_of_ne (depthOk_iff.1 hok).2 h16)
    refine ⟨.inr (by rwa [hcount]), List.map_congr_left fun g hg => ?_⟩
    rw [if_neg h16, if_neg h16, hpal g.toNat (hbelow g hg)]

theorem State.SameImage.carriesImage {codes : List Code} (hs : s.CarriesImage codes) : t.CarriesImage codes where
  depthOk := by rw [h.depthOk_eq, hs.depthOk]
  length := by rw [h.pixelCount_eq, hs.length]
  inRange := by rw [h.depth_eq]; exact hs.inRange
  resolves := (h.colours hs.depthOk hs.resolves).1
  comp := by rw [h.comp_eq, h.depth_eq, h.br_eq, h.bo_eq, hs.comp]
  bits := by rw [h.bits_eq, h.depth_eq, h.br_eq, h.bo_eq, hs.bits]

end

/-- A completed `ENC` leaves the image of the pixel sequence (R150, R155). -/
theorem carriesImage_of_enc {s t : State} (henc : exec .enc s = .next t) (hdone : t.statusDone = true)
    (hresolves : s.Resolves s.pixels) : t.CarriesImage s.pixels := by
  obtain ⟨hd, hlegal, hfits⟩ := exec_enc_done henc hdone
  obtain ⟨t', hexec, ht, hbits, hlen, hbr, hbo, hcomp, -⟩ := encWritesTheStream s hd hlegal hfits
  obtain rfl : t = t' := Host.Outcome.next.inj (henc.symm.trans hexec)
  obtain ⟨hok, -, hcodes⟩ := hlegal
  have hdepth : t.depth = s.depth := by rw [ht]; rfl
  exact
    { depthOk := by rw [ht]; exact hok
      length := by rw [ht]; exact pixels_length s
      inRange := by rw [hdepth]; exact hcodes
      resolves := by rw [ht]; exact hresolves
      comp := by rw [hcomp, hdepth, hbr, hbo, pixels_length]
      bits := by rw [hlen, hbits, hdepth, hbr, hbo] }

/-- `LDHDR` of the file that `ASM` wrote gives another machine the same image (R177). -/
theorem sameImage_of_ldhdr {s t u : State} (hasm : exec .asm s = .next t) (hdone : t.statusDone = true)
    (hd : u.dstate.active = false) (hfile : exceeds t.filelen u.cfg.fileCap = false)
    (hpay : exceeds t.paylen u.cfg.payloadCap = false) (hlen : u.filelen = t.filelen)
    (hread : ∀ a, a < t.filelen → u.file.read a = t.file.read a) :
    ∃ v, exec .ldhdr u = .next v ∧ v.statusDone = true ∧ s.SameImage v := by
  obtain ⟨v, hexec, hv, hwidth, hheight, hdepth, hflags, hpaylen, hpayload, hpalette, -⟩ :=
    ldhdrInvertsAsm s t u hasm hdone hd hfile hpay hlen hread
  refine ⟨v, hexec, hv, hwidth, hheight, hdepth, ?_, hpaylen, hpayload, hpalette⟩
  rw [State.readFlags, hflags, State.readFlags, BitVec.and_assoc, BitVec.and_self]

/-! ### The end-to-end law (R236, R237) -/

/-- An unbounded memory holds every length (R6). -/
theorem exceeds_of_unbounded {cap : Option Nat} (h : cap = none) (n : Nat) : exceeds n cap = false := by
  rw [h]
  rfl

/-- `OPT`, `ENC` and `ASM` one after another complete on a legal image, and what `ASM` then reads carries it (R236). -/
theorem image_to_file {s : State} (hd : s.dstate.active = false) (hcfg : s.cfg.Unbounded) (hpixels : s.PixelsLegal)
    (hpal : s.PaletteLegal) (hresolves : s.Resolves s.pixels) :
    ∃ a b c, exec .opt s = .next a ∧ a.status = 0x01 ∧ exec .enc a = .next b ∧ b.status = 0x01 ∧
      exec .asm b = .next c ∧ c.status = 0x01 ∧ b.CarriesImage s.pixels ∧ b.colourOf = s.colourOf := by
  obtain ⟨-, hpayloadCap, hfileCap⟩ := hcfg
  obtain ⟨f, hopt, -⟩ := optChoosesLeastBest s hd hpixels
  generalize ha : ({ s with status := 0x01, errinfo := 0, flags := f } : State) = a at hopt
  have hlegal : a.PixelsLegal := by rw [← ha]; exact hpixels
  have hidle : a.dstate.active = false := by rw [← ha]; exact hd
  have hacap : a.cfg.payloadCap = none := by rw [← ha]; exact hpayloadCap
  obtain ⟨b, henc, hb, -⟩ := encWritesTheStream a hidle hlegal (exceeds_of_unbounded hacap _)
  have hbstatus : b.status = 0x01 := by rw [hb]
  have hbcfg : b.cfg = s.cfg := by rw [hb, ← ha]
  have hcarries : b.CarriesImage a.pixels :=
    carriesImage_of_enc henc (by rw [State.statusDone, hbstatus]; rfl) (by rw [← ha]; exact hresolves)
  obtain ⟨c, hasm, hc, -⟩ := asmBuildsTheFile b (by rw [hb]; exact hidle) hcarries.depthOk
    (by rw [hb, ← ha]; exact hpal) (exceeds_of_unbounded (by rw [hbcfg, hpayloadCap]) _)
    (exceeds_of_unbounded (by rw [hbcfg, hfileCap]) _)
  exact ⟨a, b, c, hopt, by rw [← ha], henc, hbstatus, hasm, by rw [hc], by rwa [← ha] at hcarries,
    by rw [hb, ← ha]; rfl⟩

/-- `LDHDR` and `DEC` on a machine that holds the file `ASM` wrote deliver the image (R237). -/
theorem file_to_image {b c u : State} {codes : List Code} (hasm : exec .asm b = .next c) (hc : c.status = 0x01)
    (hcarries : b.CarriesImage codes) (hd : u.dstate.active = false) (hcfg : u.cfg.Unbounded)
    (hlen : u.filelen = c.filelen) (hread : ∀ k, k < c.filelen → u.file.read k = c.file.read k) :
    ∃ v w, exec .ldhdr u = .next v ∧ v.status = 0x01 ∧ exec .dec v = .next w ∧ w.status = 0x01 ∧
      w.sink = u.sink ++ batches u.cfg.batch (codes.map b.colourOf) := by
  obtain ⟨-, hpayloadCap, hfileCap⟩ := hcfg
  obtain ⟨v, hldhdr, hdone, hsame⟩ := sameImage_of_ldhdr hasm (by rw [State.statusDone, hc]; rfl) hd
    (exceeds_of_unbounded hfileCap _) (exceeds_of_unbounded hpayloadCap _) hlen hread
  obtain ⟨hstatus, hidle⟩ := exec_command_done rfl hldhdr hdone
  obtain ⟨-, -, -, hwrites, -⟩ := commandsWriteOnlyTheirResults u v
  obtain ⟨hframe, -⟩ := hwrites hldhdr
  have hsink : v.sink = u.sink := by rw [hframe]
  have hvcfg : v.cfg = u.cfg := by rw [hframe]
  obtain ⟨w, hdec, hw, -, hwsink⟩ :=
    (hsame.carriesImage hcarries).delivers hidle (exceeds_of_unbounded (by rw [hvcfg, hpayloadCap]) _)
  obtain ⟨-, hcolours⟩ := hsame.colours hcarries.depthOk hcarries.resolves
  exact ⟨v, w, hldhdr, hstatus, hdec, hw, by rw [hwsink, hsink, hvcfg, hcolours]⟩

/-- Settles O54: the file is assembled from a state that carries the image, and loading it carries the image over. -/
theorem fileCarriesTheImage : Obligations.FileCarriesTheImage := by
  intro s hd hcfg hpixels hpal hresolves
  obtain ⟨a, b, c, hopt, ha, henc, hb, hasm, hc, hcarries, hcolour⟩ := image_to_file hd hcfg hpixels hpal hresolves
  refine ⟨a, b, c, hopt, ha, henc, hb, hasm, hc, fun u hud hucfg hlen hread => ?_⟩
  rw [← hcolour]
  exact file_to_image hasm hc hcarries hud hucfg hlen hread

end Sys2Proof.Machine

/-!
# Faults of `LDHDR`, and of a payload cut short (60_exceptions.md R251, R261)

The fault that `LDHDR` finds in its file as one function, so that it raises or loads the header; then the decoder's step
at a header or a group that the end of the payload cuts.
-/

namespace Sys2Proof.Machine

/-! ### The checks of `LDHDR` (R175, R261, R264) -/

/-- The fault that `LDHDR` finds in its file, if any: the file's capacity, the five header checks, the payload's
capacity. -/
def State.fileFault (s : State) : Option (ErrKind × Nat) :=
  if exceeds s.filelen s.cfg.fileCap then some (.capacityExceeded, 3)
  else if s.filelen < 20 then some (.badHeader, 1)
  else if s.file.readList 0 10 ≠ magic then some (.badHeader, 2)
  else if (s.file.read 14).toNat < 1 ∨ 16 < (s.file.read 14).toNat then some (.badHeader, 3)
  else if s.fileOffset < 20 ∨ s.filelen < s.fileOffset then some (.badHeader, 4)
  else if (s.fileOffset - 20) % 2 = 1 then some (.badHeader, 5)
  else if exceeds (s.filelen - s.fileOffset) s.cfg.payloadCap then some (.capacityExceeded, 2)
  else none

theorem ldhdrBody_eq (s : State) :
    ldhdrBody s = (s.fileFault.map fun f => s.raise f.1 f.2).getD s.withHeader.complete := by
  unfold ldhdrBody State.fileFault
  dsimp only
  split_ifs <;> rfl

/-- `LDHDR` raises the fault found in its file and changes nothing else, or loads the header (R175, R256). -/
theorem exec_ldhdr {s : State} (hd : s.dstate.active = false) : exec .ldhdr s = .next
    ((s.fileFault.map fun f => { s with status := faultStatus f.1, errinfo := f.2 }).getD
      { s.withHeader with status := 1, errinfo := 0 }) := by
  rw [exec_command_of_idle rfl hd, commandBody, ldhdrBody_eq, complete_of_status rfl]
  rfl

/-- Settles O34: the checks of `fileFault` are those of the statement, in the same order. -/
theorem ldhdrFaults : Obligations.LdhdrFaults := by
  intro s hd
  have hexec := exec_ldhdr hd
  rw [State.fileFault, fileOffset_eq, magic] at hexec
  intro bad po depth
  split_ifs at hexec ⊢
  case neg => exact ⟨_, hexec, rfl⟩
  all_goals exact hexec

/-! ### Blocks and groups the payload cuts short (R191, R198, R251) -/

/-- The length of the block header whose control bit stands at `CUR` (R95, R96). -/
def State.headerBits (s : State) : Nat := 1 + if s.bit s.cur then s.bo else s.br

/-- The control bit, where the payload has one left (R191, R198). -/
theorem getBits_one {s : State} (h : s.cur + 1 ≤ 8 * s.paylen) :
    s.getBits 1 = some ((s.bit s.cur).toNat, s.advance 1) := by
  rw [getBits_of_le (.inr h), bitsVal_bitsFrom]
  simp

/-- The field of a header, where only its control bit is left whole (R191, R251). -/
theorem getBits_afterControl_eq_none {s : State} {n : Nat} (hctrl : s.cur + 1 ≤ 8 * s.paylen)
    (h : 8 * s.paylen < s.cur + (1 + n)) : (s.advance 1).getBits n = none := by
  rw [getBits_eq_none, State.advance_cur, State.advance_paylen]
  omega

/-- A header that the payload cuts, in its control bit or in its field (R198, R251). -/
theorem decStep_of_cutHeader {s : State} (hd : s.dstate = .readControl) (hn : s.pixemit ≠ s.pixelCount)
    (h : 8 * s.paylen < s.cur + s.headerBits) : s.decStep = s.raiseDec .streamTruncated s.cur := by
  by_cases hctrl : s.cur + 1 ≤ 8 * s.paylen
  · cases hb : s.bit s.cur with
    | true =>
      have hfield : (s.advance 1).getBits s.bo = none :=
        getBits_afterControl_eq_none hctrl (by simpa [State.headerBits, hb] using h)
      simp [State.decStep, hd, hn, getBits_one hctrl, hb, hfield]
    | false =>
      have hfield : (s.advance 1).getBits s.br = none :=
        getBits_afterControl_eq_none hctrl (by simpa [State.headerBits, hb] using h)
      simp [State.decStep, hd, hn, getBits_one hctrl, hb, hfield]
  · have hbit : s.getBits 1 = none := getBits_eq_none.2 ⟨one_ne_zero, by omega⟩
    simp [State.decStep, hd, hn, hbit]

/-- A group of a `LIT`, or a raw group, that the payload cuts (R199, R201, R251). -/
theorem decStep_of_cutGroup {s : State} (hd : s.dstate = .literal ∨ s.dstate = .raw) (hn : s.pixemit ≠ s.pixelCount)
    (hok : s.depthOk = true) (h : 8 * s.paylen < s.cur + s.depth) :
    s.decStep = s.raiseDec .streamTruncated s.cur := by
  have hdepth : s.depth ≠ 0 := Nat.one_le_iff_ne_zero.1 (depthOk_iff.1 hok).1
  have hread : s.getBits s.depth = none := getBits_eq_none.2 ⟨hdepth, h⟩
  rcases hd with hd | hd
  · simp [State.decStep, hd, hread]
  · simp [State.decStep, hd, hn, hread]

/-- Settles O44: each way to miss the control bit or the field cuts the header, and the rest cuts a group. -/
theorem cutStreamRaisesTruncated : Obligations.CutStreamRaisesTruncated := by
  rintro s hok hn (⟨hd, hcut⟩ | ⟨hd, hcut⟩)
  · refine decStep_of_cutHeader hd hn ?_
    rw [State.headerBits]
    rcases hcut with hctrl | ⟨hb, hlit⟩ | ⟨hb, hrep⟩
    · omega
    · simpa [hb] using hlit
    · simpa [hb] using hrep
  · exact decStep_of_cutGroup hd hn hok hcut

end Sys2Proof.Machine

/-!
# Waiting and reset (70_reset_and_hazards.md R280 to R282)

The step with nothing pending, and the state the reset event leaves: the values of its registers, the commands it cannot
run yet, and its memories, which hold the contents of the event.
-/

namespace Sys2Proof.Machine

/-! ### Waiting (R282) -/

theorem fetchHost_of_nothing_pending {s : State} (hq : s.host = []) : fetchHost s = .wait := by
  unfold fetchHost
  rw [hq]

/-- Settles O6: with no `DEC` running the host is asked, and it has nothing. -/
theorem stepWaitsWhenIdle : Obligations.StepWaitsWhenIdle := by
  intro s hd hq
  unfold step
  rw [fetch_of_idle hd, fetchHost_of_nothing_pending hq]

/-! ### The reset event (R280) -/

/-- The reset event is taken when no `DEC` runs (R21; log 5). -/
theorem step_of_reset {s : State} {c : ResetContents} {ops : List HostOp} (hd : s.dstate.active = false)
    (hq : s.host = .reset c :: ops) : step s = .next (({ s with host := ops } : State).resetEvent c) :=
  step_of_access hd hq (by simp)

/-- The state after reset of the host's interface is one that a reset event leaves. -/
theorem reset_eq_resetEvent : State.reset = State.reset.resetEvent ⟨0, [], [], [], [], []⟩ := by
  rw [resetEvent_eq]
  exact resetWith_nothing.symm

@[simp] theorem resetEvent_bitdepth (c : ResetContents) (s : State) : (s.resetEvent c).bitdepth = 0 := rfl

/-- Settles O10: both states are left by a reset event, which writes each register its value. `BITDEPTH` is then 0, so the
four commands find a bad depth. -/
theorem resetLeaves : Obligations.ResetLeaves := by
  intro s c ops hd hq
  refine ⟨_, step_of_reset hd hq, resetEvent_cfg _ _, resetEvent_host _ _, fun u hu => ?_⟩
  have hevent : ∃ (s' : State) (c' : ResetContents), u = s'.resetEvent c' := by
    rcases List.mem_pair.1 hu with rfl | rfl
    · exact ⟨_, _, rfl⟩
    · exact ⟨_, _, reset_eq_resetEvent⟩
  obtain ⟨s', c', rfl⟩ := hevent
  have hidle : (s'.resetEvent c').dstate.active = false := by rw [resetEvent_dstate]; rfl
  have hdepth : (s'.resetEvent c').bitdepth.toNat < 1 := by simp
  exact ⟨rfl, rfl, rfl, rfl, rfl, rfl, rfl, rfl, rfl, rfl, rfl, rfl, rfl, rfl, rfl, rfl, rfl, rfl,
    badDepthRaisesBadConfig _ hidle (.inl hdepth)⟩

/-! ### The contents after reset (R281) -/

/-- An element below the capacity exists. -/
theorem exceeds_eq_false_of_lt {i n : Nat} (h : i < n) : exceeds (i + 1) (some n) = false := by
  simpa [exceeds] using h

/-- The state after reset of the host's interface meets the invariant (R280). -/
theorem reset_legal : State.reset.Legal := resetWith_nothing ▸ resetWith_legal _ _

/-- Settles O57: the contents are listed from index 0 as far as each memory goes, and read back from there. -/
theorem resetIsLegal : Obligations.ResetIsLegal := by
  refine ⟨reset_legal, fun cfg c => ⟨resetWith_legal cfg c, resetWith_cfg cfg c, resetWith_lastpix cfg c, ?_⟩⟩
  rw [resetWith_pixin, resetWith_pal, resetWith_payload, resetWith_file, resetWith_outbuf]
  exact ⟨fun i v => Mem.read_ofContents, fun i v hv hi => Mem.read_ofContents hv (exceeds_eq_false_of_lt hi),
    fun i v => Mem.read_ofContents, fun i v => Mem.read_ofContents,
    fun i v hv hi => Mem.read_ofContents hv (exceeds_eq_false_of_lt hi)⟩

end Sys2Proof.Machine

/-!
# Commands while a `DEC` runs (93_implementation_defined.md V3; log 9)

The model's choice: such a command is refused.
-/

namespace Sys2Proof.Machine

/-- Settles O8: every command word is issued, and nothing is issued while a `DEC` runs. -/
theorem commandsRefusedWhileDecRuns : Obligations.CommandsRefusedWhileDecRuns := by
  intro s i hactive hcommand
  calc exec i s = s.issue (commandBody i) := exec_eq_issue hcommand s
    _ = .refused .commandRunning := issue_of_active hactive _

end Sys2Proof.Machine
